-- ==== Sys2Proof/Word.lean ====
section
/-! DEFINITION. The bit-vector types of the block: every register, address and length is 32 bits
wide (R5), memory is byte wide (R34), table values are 6 bits wide (R62). -/

namespace Sys2Proof

/-- A register, an address or a length (R5). -/
abbrev Word := BitVec 32

/-- A byte of memory, a symbol byte or a byte lane of a register (R7, R34). -/
abbrev Byte := BitVec 8

/-- A value of the alphabet, 0 to 63 (R61). -/
abbrev Sextet := BitVec 6

/-- `ceil(a / b)` of R7, for `b > 0`. -/
def ceilDiv (a b : Nat) : Nat := (a + (b - 1)) / b

end Sys2Proof
end

