-- ==== Sys2Proof/Syntax.lean ====
section
/-! DEFINITION. The commands of the block: one constructor per row of spec/opcode_table.json (R54).
A command word carries no operand (R55), so no constructor has an argument. -/

namespace Sys2Proof

/-- The nine commands of R54. -/
inductive Instr where
  /-- ENC1, word 0x11: encode a final group of one byte (R69). -/
  | enc1
  /-- ENC2, word 0x12: encode a final group of two bytes (R70). -/
  | enc2
  /-- ENC3, word 0x13: encode a full group of three bytes (R71). -/
  | enc3
  /-- DEC, word 0x20: decode one non-final group (R83). -/
  | dec
  /-- DECF, word 0x21: decode a final group (R84). -/
  | decf
  /-- ENCODE, word 0x30: encode a buffer (R73). -/
  | encode
  /-- DECODE, word 0x31: decode a buffer (R87). -/
  | decode
  /-- FLUT, word 0x40: read the forward table (R65). -/
  | flut
  /-- RLUT, word 0x41: read the reverse table (R66). -/
  | rlut
deriving DecidableEq, Repr

end Sys2Proof
end

