-- ==== Sys2Proof/WellFormed.lean ====
section
/-! DEFINITION. Well-formed command words (R53, R54). An instruction has no operand (R55), so each
term of `Instr` is well formed; what can be ill formed is the 32-bit word a host writes to CMD. -/

namespace Sys2Proof

/-- The nine values of OP that R54 maps to a command. -/
def legalOps : List (BitVec 8) := [0x11, 0x12, 0x13, 0x20, 0x21, 0x30, 0x31, 0x40, 0x41]

/-- `CMD[31:8]` must be 0 (R53). -/
def CommandWord.zeroOk (w : Word) : Bool := w.extractLsb' 8 24 == 0

/-- `CMD[7:0]` must be a value of the opcode map (R54). -/
def CommandWord.opOk (w : Word) : Bool := legalOps.contains (w.extractLsb' 0 8)

/-- A legal command word (R54, R57): both checks pass. -/
def CommandWord.wf (w : Word) : Bool := CommandWord.zeroOk w && CommandWord.opOk w

/-- Every instruction is well formed: it has no field that could hold a wrong value (R55). -/
def Instr.wf (i : Instr) : Bool :=
  match i with
  | .enc1 => true
  | .enc2 => true
  | .enc3 => true
  | .dec => true
  | .decf => true
  | .encode => true
  | .decode => true
  | .flut => true
  | .rlut => true

end Sys2Proof
end

