-- ==== Sys2Proof/Decode.lean ====
section
/-! DEFINITION. The command decoder and encoder (R53 to R57). A command is one 32-bit word written
to CMD; there is no other length and no operand, so decoding is a match on the whole word. -/

namespace Sys2Proof

/-- Why a command word is illegal (R57). Both give ILLEGAL_CMD (R92). -/
inductive DecodeError where
  /-- A bit of `CMD[31:8]` is 1 (R53). -/
  | zeroFieldNotZero
  /-- `CMD[7:0]` is no value of the opcode map (R54). -/
  | opNotInMap
deriving DecidableEq, Repr

/-- OP = `CMD[7:0]` (R53). -/
def opField (w : Word) : BitVec 8 := w.extractLsb' 0 8

/-- `CMD[31:8]`, which must be 0 (R53). -/
def zeroField (w : Word) : BitVec 24 := w.extractLsb' 8 24

/-- The opcode map of R54 on OP alone. -/
def decodeOp (op : Nat) : Except DecodeError Instr :=
  match op with
  | 0x11 => .ok .enc1
  | 0x12 => .ok .enc2
  | 0x13 => .ok .enc3
  | 0x20 => .ok .dec
  | 0x21 => .ok .decf
  | 0x30 => .ok .encode
  | 0x31 => .ok .decode
  | 0x40 => .ok .flut
  | 0x41 => .ok .rlut
  | _ => .error .opNotInMap

/-- The command a CMD word names, or why it names none (R57): the whole 32-bit word counts. -/
def decode (w : Word) : Except DecodeError Instr :=
  if zeroField w = 0 then decodeOp (opField w).toNat else .error .zeroFieldNotZero

/-- The command word of an instruction: R54's table, read the other way. -/
def encode (i : Instr) : Word :=
  match i with
  | .enc1 => 0x00000011
  | .enc2 => 0x00000012
  | .enc3 => 0x00000013
  | .dec => 0x00000020
  | .decf => 0x00000021
  | .encode => 0x00000030
  | .decode => 0x00000031
  | .flut => 0x00000040
  | .rlut => 0x00000041

/-- R54's kind column: an immediate command completes within its CMD write (R58); the two others
run on the engine. -/
def Instr.immediate (i : Instr) : Bool :=
  match i with
  | .enc1 => true
  | .enc2 => true
  | .enc3 => true
  | .dec => true
  | .decf => true
  | .encode => false
  | .decode => false
  | .flut => true
  | .rlut => true

/-- The instruction read from a table row's bits: `nbits` of them are given, the rest of the 32-bit
command word is 0. More bits than a command word has, or a value that does not fit, is refused. -/
def decodeTableWord (nbits w : Nat) : Option Instr :=
  if nbits ≤ 32 then
    if w < 2 ^ nbits then
      match decode (BitVec.ofNat 32 w) with
      | .ok i => some i
      | .error _ => none
    else none
  else none

end Sys2Proof
end

