-- ==== Sys2Proof/Config.lean ====
section
/-! DEFINITION. What the spec fixes as constants (R2, R6, R30, R72), the platform's parameters as
plain data (R6), and the one free value of the model (R108). -/

namespace Sys2Proof

/-- The identification word of register ID (R2, R30). -/
def Config.idWord : Word := 0x42363401

/-- ENC_MAX_LEN, the largest LEN that ENCODE accepts (R6, R72). -/
def Config.encMaxLen : Nat := 0xBFFFFFFD

/-- The kind of a memory-port access, the second argument of MEM_OK (R6, R36). -/
inductive AccessKind where
  | read
  | write
deriving DecidableEq, Repr

/-- The two parameters that R6 leaves to the platform, as plain data: a statement over every state
holds for each base and each MEM_OK (log 2, DESIGN CHOICE of the form). -/
structure Platform where
  /-- `B64_BASE[31:8]`: the base is a multiple of 0x100 (R6). -/
  basePage : BitVec 24
  /-- The accesses for which MEM_OK is false (R6, R36): each MEM_OK is the complement of such a list. -/
  denied : List (Word × AccessKind)
deriving DecidableEq, Repr

/-- B64_BASE, the byte address of the register window (R6, R15). -/
def Platform.base (p : Platform) : Word := p.basePage ++ (0 : BitVec 8)

/-- MEM_OK(addr, kind): does the platform complete this memory-port access (R6, R36)? -/
def Platform.memOk (p : Platform) (a : Word) (k : AccessKind) : Bool := !p.denied.contains (a, k)

/-- FREE VALUE (log 5): how many writes of a running command survive a reset that aborts it (R108
fixes no prefix). Applied to the state's counter of draws, and cut to the writes made by then. It has no
body, so nothing can be proved of a value of it. -/
opaque Config.survivingWrites : Nat → Nat

end Sys2Proof
end

