-- ==== Sys2Proof/Machine/State.lean ====
section
/-! DEFINITION. The state of the machine as plain data: the block's registers and engine (R14, R15),
the memory (R35), the platform's parameters (R6), and the host agent with what it still does and what
it has been answered (R12). -/

namespace Sys2Proof.Machine

/-- The ten registers of the window (R15). -/
inductive Reg where
  | cmd
  | status
  | din
  | dout
  | src
  | dst
  | len
  | rlen
  | errgrp
  | id
deriving DecidableEq, Repr

/-- Which buffer command runs (R14). -/
inductive Phase where
  | idle
  | enc
  | dec
deriving DecidableEq, Repr

/-- The two agents that move (R12). -/
inductive Agent where
  | host
  | engine
deriving DecidableEq, Repr

/-- What a bus access does: read, or write a value. -/
inductive BusCommand where
  | read
  | write (v : Word)
deriving DecidableEq, Repr

/-- One access of a host on its bus (R15, R45): the byte address, the size in bytes and the number of
beats (more than one is a burst). -/
structure BusAccess where
  addr : Word
  size : Nat
  beats : Nat
  command : BusCommand
deriving DecidableEq, Repr

/-- What the host does in one step (R12, R59, R60, R107). -/
inductive HostOp where
  /-- An access of the register port (R15, R16, R45). -/
  | access (a : BusAccess)
  /-- R60's `poll`: read STATUS, again and again while BUSY is 1. -/
  | poll
  /-- Write a byte of memory (R12, R59 `mem`). -/
  | memWrite (a : Word) (b : Byte)
  /-- Read a byte of memory (R12). -/
  | memRead (a : Word)
  /-- Assert reset (R12, R107, R108). `landed` is how many writes of the engine step under way have
  landed when the reset meets it; 0 is a reset that comes between two steps (log 11). -/
  | reset (landed : Nat)
deriving DecidableEq, Repr

/-- What the host is answered. -/
inductive Answer where
  /-- A served register read (R16). -/
  | data (w : Word)
  /-- A served register write (R16). -/
  | done
  /-- The bus error response of R45; a read answered so returns 0. -/
  | busError
  /-- A memory read of the host (R12). -/
  | byte (b : Byte)
deriving DecidableEq, Repr

/-- Everything the machine holds. -/
structure State where
  /-- STATUS (R18 to R23). -/
  status : Word
  /-- DIN (R24). -/
  din : Word
  /-- DOUT (R25). -/
  dout : Word
  /-- SRC (R26). -/
  src : Word
  /-- DST (R26). -/
  dst : Word
  /-- LEN (R26). -/
  len : Word
  /-- RLEN (R28). -/
  rlen : Word
  /-- ERRGRP (R29). -/
  errgrp : Word
  /-- The engine's phase (R14). -/
  phase : Phase
  /-- The start step of the running command has been taken (R73, R87; log 3). -/
  started : Bool
  /-- The engine's `g`, the next group (R14). -/
  g : Word
  /-- The engine's `G`, the number of groups (R14). -/
  groups : Word
  /-- The engine's `olen`, the output bytes written so far (R14). -/
  olen : Word
  /-- The running command's writes, the last one first: the address and the byte that stood there
  (R108; log 4). -/
  undo : List Host.Cell
  /-- Memory (R35), in canonical form. -/
  mem : List Host.Cell
  /-- The parameters of R6. -/
  platform : Platform
  /-- What the host does next, in arrival order (R46; log 7). -/
  ops : List HostOp
  /-- Who moves where host and engine both can (R116; log 6). -/
  sched : List Agent
  /-- What the host has been answered, the last answer first (log 7). -/
  heard : List Answer
  /-- How many free values have been drawn (log 5). -/
  draws : Nat
deriving DecidableEq, Repr

/-- Why the machine stops with a fault. R90: the block raises no trap, and every failure is a result
in STATUS, so there is no constructor and no step faults. -/
inductive Fault where
deriving DecidableEq, Repr

/-- Why a step has no meaning. -/
inductive Refusal where
  /-- An instruction that has no meaning in the model yet. No arm raises it. SAFE: the machine stops. -/
  | notModelled (mnemonic : String)
  /-- The host would touch a buffer of the running command, a step that R49 does not give it (I3:
  refuse). Raised by the host's memory accesses. UNSAFE as the spec says: a claim about a program that
  breaks the duty says nothing of the hardware (log 9). -/
  | hostTouchesRunningBuffer
deriving DecidableEq, Repr

/-- The machine right after reset (R107): every register of the block 0 and the engine idle. Memory
lists nothing (log 1), the platform is the one of log 2, and the host has nothing to do (log 7). -/
def State.reset : State where
  status := 0
  din := 0
  dout := 0
  src := 0
  dst := 0
  len := 0
  rlen := 0
  errgrp := 0
  phase := .idle
  started := false
  g := 0
  groups := 0
  olen := 0
  undo := []
  mem := []
  platform := { basePage := 0, denied := [] }
  ops := []
  sched := []
  heard := []
  draws := 0

end Sys2Proof.Machine
end

