-- ==== Sys2Proof/Machine/Flags.lean ====
section
/-! DEFINITION. The STATUS register (R18 to R23): its error codes, its word, its fields, and the word
each way of ending or starting a command writes. -/

namespace Sys2Proof.Machine

/-- The error codes of R21. Values 6 to 15 have no name: they are never produced. -/
inductive ErrCode where
  | none
  | illegalCmd
  | length
  | invalidSymbol
  | misplacedPad
  | busError
deriving DecidableEq, Repr

/-- The value of an error code in STATUS.ERRCODE (R21). -/
def ErrCode.bits (e : ErrCode) : BitVec 4 :=
  match e with
  | .none => 0
  | .illegalCmd => 1
  | .length => 2
  | .invalidSymbol => 3
  | .misplacedPad => 4
  | .busError => 5

/-- The STATUS word with these fields (R18); bit 3 and bits 31:11 are 0 (R23). -/
def statusWord (busy err ign : Bool) (code : BitVec 4) (count : BitVec 3) : Word :=
  (0 : BitVec 21) ++ count ++ code ++ (0 : BitVec 1) ++ BitVec.ofBool ign ++ BitVec.ofBool err
    ++ BitVec.ofBool busy

/-- STATUS.BUSY, bit 0 (R18). -/
def statusBusy (w : Word) : Bool := w.getLsbD 0

/-- STATUS.ERR, bit 1 (R19). -/
def statusErr (w : Word) : Bool := w.getLsbD 1

/-- STATUS.IGN, bit 2 (R20). -/
def statusIgn (w : Word) : Bool := w.getLsbD 2

/-- STATUS.ERRCODE, bits 7:4 (R21). -/
def statusCode (w : Word) : BitVec 4 := w.extractLsb' 4 4

/-- STATUS.COUNT, bits 10:8 (R22). -/
def statusCount (w : Word) : BitVec 3 := w.extractLsb' 8 3

/-- `STATUS.IGN <- 1`, every other bit kept (R20). -/
def statusWithIgn (w : Word) : Word := w ||| 0x00000004

/-- STATUS after a successful immediate command (R58 `complete`). -/
def statusComplete (count : BitVec 3) : Word := statusWord false false false ErrCode.none.bits count

/-- STATUS after a failed immediate command or an illegal word (R58 `fail`, R92). -/
def statusFail (code : ErrCode) : Word := statusWord false true false code.bits 0

/-- STATUS when a buffer command is accepted (R73, R87). -/
def statusRunning : Word := statusWord true false false ErrCode.none.bits 0

/-- STATUS after `finish` (R74): IGN is kept from the old word, BUSY and COUNT become 0. -/
def statusFinish (old : Word) (err : Bool) (code : ErrCode) : Word :=
  statusWord false err (statusIgn old) code.bits 0

/-- STATUS.BUSY of a state. -/
def State.busy (s : State) : Bool := statusBusy s.status

end Sys2Proof.Machine
end

