-- ==== Sys2Proof/Machine/Ops.lean ====
section
/-! DEFINITION. The named operations over memory and registers: memory in its canonical form (R35,
R36), the register file of the window (R15, R16), how a command is accepted, completes, fails,
starts and finishes (R57, R58, R73, R74, R92), and how writes are taken back (R108; reset itself is in
Reset.lean, since it can meet an engine step). The block takes no exception
(R90): `State.fail`, `State.illegal` and `State.finish` are its error reporting. -/

namespace Sys2Proof.Machine

/-! ### Memory -/

/-- What a byte reads as that no entry lists (log 1). -/
def Memory.unlisted : Byte := 0

/-- The byte at address `a` (R35). -/
def Memory.read (m : List Host.Cell) (a : Nat) : Byte :=
  match m with
  | [] => Memory.unlisted
  | (k, v) :: rest => if k = a then v else Memory.read rest a

/-- The memory without an entry for `a`. -/
def Memory.erase (m : List Host.Cell) (a : Nat) : List Host.Cell := m.filter (fun c => c.1 != a)

/-- The memory with an entry for `a` in its place, where none is. -/
def Memory.insert (m : List Host.Cell) (a : Nat) (b : Byte) : List Host.Cell :=
  match m with
  | [] => [(a, b)]
  | (k, v) :: rest => if a < k then (a, b) :: (k, v) :: rest else (k, v) :: Memory.insert rest a b

/-- `Mem[a] <- b` (R36); an entry equal to the unlisted byte is dropped, so equal memories are equal
lists. -/
def Memory.write (m : List Host.Cell) (a : Nat) (b : Byte) : List Host.Cell :=
  if b = Memory.unlisted then Memory.erase m a else Memory.insert (Memory.erase m a) a b

/-- The canonical form: addresses of the 32-bit space (R34) rising strictly, no entry equal to the
unlisted byte. -/
abbrev Memory.wf (m : List Host.Cell) : Prop :=
  m.Pairwise (fun c d => c.1 < d.1) ∧ ∀ c ∈ m, c.1 < 2 ^ 32 ∧ c.2 ≠ Memory.unlisted

/-- The byte at a 32-bit address. -/
def State.byteAt (s : State) (a : Word) : Byte := Memory.read s.mem a.toNat

/-- `Mem[a] <- b`, by whichever agent. -/
def State.putByte (s : State) (a : Word) (b : Byte) : State :=
  { s with mem := Memory.write s.mem a.toNat b }

/-- `MemRead(a, 1)` of the memory port (R36); `none` is BusError. -/
def State.memRead (s : State) (a : Word) : Option Byte :=
  if s.platform.memOk a .read then some (s.byteAt a) else none

/-- A write of the memory port that is completed: the byte it replaces goes to the write sequence of
the running command (R108). -/
def State.engineWrite (s : State) (a : Word) (b : Byte) : State :=
  { s with mem := Memory.write s.mem a.toNat b, undo := (a.toNat, s.byteAt a) :: s.undo }

/-- `MemWrite(a, 1, b)` of the memory port (R36); `none` is BusError, with `Mem[a]` unchanged. -/
def State.memWrite (s : State) (a : Word) (b : Byte) : Option State :=
  if s.platform.memOk a .write then some (s.engineWrite a b) else none

/-! ### The register file -/

/-- The register at a window offset (R15); `none` at the other word offsets, which are reserved. -/
def regAt (offset : BitVec 8) : Option Reg :=
  match offset.toNat with
  | 0x00 => some .cmd
  | 0x04 => some .status
  | 0x08 => some .din
  | 0x0C => some .dout
  | 0x10 => some .src
  | 0x14 => some .dst
  | 0x18 => some .len
  | 0x1C => some .rlen
  | 0x20 => some .errgrp
  | 0x24 => some .id
  | _ => none

/-- The window offset of a register (R15). -/
def Reg.offset (r : Reg) : BitVec 8 :=
  match r with
  | .cmd => 0x00
  | .status => 0x04
  | .din => 0x08
  | .dout => 0x0C
  | .src => 0x10
  | .dst => 0x14
  | .len => 0x18
  | .rlen => 0x1C
  | .errgrp => 0x20
  | .id => 0x24

/-- What a read of a register returns (R15): CMD reads 0 (R17), ID is hardwired (R30). -/
def State.readReg (s : State) (r : Reg) : Word :=
  match r with
  | .cmd => 0
  | .status => s.status
  | .din => s.din
  | .dout => s.dout
  | .src => s.src
  | .dst => s.dst
  | .len => s.len
  | .rlen => s.rlen
  | .errgrp => s.errgrp
  | .id => Config.idWord

/-- What a read at a window offset returns; a reserved offset reads 0 (R16). -/
def State.readOffset (s : State) (offset : BitVec 8) : Word :=
  match regAt offset with
  | some r => s.readReg r
  | none => 0

/-- A write that is ignored because BUSY is 1: only IGN changes (R16, R20, R112). -/
def State.dropWrite (s : State) : State := { s with status := statusWithIgn s.status }

/-- A write to a register other than CMD (R16): the operand registers store it while BUSY is 0 and
drop it while BUSY is 1; a read-only register is unchanged, and so is CMD, whose writes issue
commands and are performed by `commandWrite` (R17). -/
def State.writeReg (s : State) (r : Reg) (v : Word) : State :=
  match r with
  | .din => if s.busy then s.dropWrite else { s with din := v }
  | .src => if s.busy then s.dropWrite else { s with src := v }
  | .dst => if s.busy then s.dropWrite else { s with dst := v }
  | .len => if s.busy then s.dropWrite else { s with len := v }
  | .cmd => s
  | .status => s
  | .dout => s
  | .rlen => s
  | .errgrp => s
  | .id => s

/-! ### Commands -/

/-- A CMD write (R57): accepted with this effect while BUSY is 0, dropped while BUSY is 1. -/
def State.accept (s : State) (effect : State → State) : Host.Outcome State Fault Refusal :=
  .next (if s.busy then s.dropWrite else effect s)

/-- `complete(dout, count)` of R58. -/
def State.complete (s : State) (dout : Word) (count : BitVec 3) : State :=
  { s with dout := dout, status := statusComplete count }

/-- `fail(code)` of R58. -/
def State.fail (s : State) (code : ErrCode) : State :=
  { s with dout := 0, status := statusFail code }

/-- An illegal command word: it changes STATUS alone (R92). -/
def State.illegal (s : State) : State := { s with status := statusFail .illegalCmd }

/-- A buffer command is accepted (R73, R87): the registers its acceptance writes, and the engine
before its start step. -/
def State.startBuffer (s : State) (phase : Phase) : State :=
  { s with
    status := statusRunning
    rlen := 0
    errgrp := 0
    phase := phase
    started := false
    g := 0
    olen := 0
    undo := [] }

/-- `finish(err, code, rlen, grp)` of R74. -/
def State.finish (s : State) (err : Bool) (code : ErrCode) (rlen grp : Word) : State :=
  { s with
    status := statusFinish s.status err code
    rlen := rlen
    errgrp := grp
    phase := .idle
    started := false
    g := 0
    groups := 0
    olen := 0
    undo := [] }

/-! ### The host's side, and taking writes back -/

/-- The host is answered. -/
def State.answer (s : State) (r : Answer) : State := { s with heard := r :: s.heard }

/-- The host's operations after this step. -/
def State.withOps (s : State) (ops : List HostOp) : State := { s with ops := ops }

/-- The memory before the last `n` writes of a write sequence (its last write first). -/
def undoWrites (m : List Host.Cell) (n : Nat) (log : List Host.Cell) : List Host.Cell :=
  match n, log with
  | 0, _ => m
  | _ + 1, [] => m
  | n + 1, (a, b) :: rest => undoWrites (Memory.write m a b) n rest

end Sys2Proof.Machine
end

