-- ==== Sys2Proof/Machine/Operands.lean ====
section
/-! DEFINITION. Every operand form: the byte lanes of DIN (R24, R55, R56), the packings of DOUT (R25),
and the addresses and the input range of a buffer command (R37, R40, R41). -/

namespace Sys2Proof.Machine

/-- Four bytes of a group in order, s0 first (R9). -/
structure Quad where
  s0 : Byte
  s1 : Byte
  s2 : Byte
  s3 : Byte
deriving DecidableEq, Repr

/-- `{s0, s1, s2, s3}`, s0 in bits 31:24 (R25). -/
def Quad.word (q : Quad) : Word := q.s0 ++ q.s1 ++ q.s2 ++ q.s3

/-- The four bytes in buffer order (R37). -/
def Quad.bytes (q : Quad) : List Byte := [q.s0, q.s1, q.s2, q.s3]

/-- DIN[31:24] (R24). -/
def State.din31 (s : State) : Byte := s.din.extractLsb' 24 8

/-- DIN[23:16] (R24). -/
def State.din23 (s : State) : Byte := s.din.extractLsb' 16 8

/-- DIN[15:8] (R24). -/
def State.din15 (s : State) : Byte := s.din.extractLsb' 8 8

/-- DIN[7:0] (R24). -/
def State.din7 (s : State) : Byte := s.din.extractLsb' 0 8

/-- DIN[5:0] (R24, R65). -/
def State.din5 (s : State) : Sextet := s.din.extractLsb' 0 6

/-- The four symbols of DEC and DECF: `s_i = DIN[31-8i : 24-8i]` (R56). -/
def State.dinQuad (s : State) : Quad := ⟨s.din31, s.din23, s.din15, s.din7⟩

/-- `{0x00, byte0, byte1, byte2}` with the bytes past the count 0 (R25). -/
def bytesWord (bytes : List Byte) : Word :=
  (0 : Byte) ++ bytes.getD 0 0 ++ bytes.getD 1 0 ++ bytes.getD 2 0

/-- `LEN mod 4 = 0` and `LEN != 0`, what DECODE requires (R85). -/
def State.decodeLenOk (s : State) : Bool := s.len.toNat % 4 == 0 && s.len.toNat != 0

/-- The byte count of group `g` of an ENCODE: `min(3, LEN - 3g)` (R72, R73). -/
def State.encodeCount (s : State) : Nat := min 3 (s.len.toNat - 3 * s.g.toNat)

/-- `SRC + 3g`, modulo 2^32 (R40, R73). -/
def State.encodeSource (s : State) : Word := s.src + 3 * s.g

/-- `DST + 4g`, modulo 2^32 (R40, R73). -/
def State.encodeTarget (s : State) : Word := s.dst + 4 * s.g

/-- `SRC + 4g`, modulo 2^32 (R40, R87). -/
def State.decodeSource (s : State) : Word := s.src + 4 * s.g

/-- `DST + olen`, modulo 2^32 (R40, R87). -/
def State.decodeTarget (s : State) : Word := s.dst + s.olen

/-- Address `a` is one of the `n` bytes from `base` up, modulo 2^32 (R40). -/
def inRange (a base : Word) (n : Nat) : Bool := (a - base).toNat < n

/-- `[SRC, SRC + LEN)` (R41). -/
def State.inInput (s : State) (a : Word) : Bool := inRange a s.src s.len.toNat

end Sys2Proof.Machine
end

