-- ==== Sys2Proof/Machine/Tables.lean ====
section
/-! DEFINITION. The two ROM tables (R61 to R64). They are constants, valid from reset (R32, R110). -/

namespace Sys2Proof.Machine

/-- The three results of the reverse table (R63). -/
inductive SymbolClass where
  | valid (v : Sextet)
  | pad
  | invalid
deriving DecidableEq, Repr

/-- The pad symbol `=` (R61). -/
def padSymbol : Byte := 0x3D

/-- The terminator and the zero-length marker (R73, R85, R87). -/
def terminator : Byte := 0x00

/-- FWD[0..15]: `A` to `P` (R62). -/
def fwdRow0 : List Byte :=
  [0x41, 0x42, 0x43, 0x44, 0x45, 0x46, 0x47, 0x48, 0x49, 0x4A, 0x4B, 0x4C, 0x4D, 0x4E, 0x4F, 0x50]

/-- FWD[16..31]: `Q` to `Z`, then `a` to `f` (R62). -/
def fwdRow1 : List Byte :=
  [0x51, 0x52, 0x53, 0x54, 0x55, 0x56, 0x57, 0x58, 0x59, 0x5A, 0x61, 0x62, 0x63, 0x64, 0x65, 0x66]

/-- FWD[32..47]: `g` to `v` (R62). -/
def fwdRow2 : List Byte :=
  [0x67, 0x68, 0x69, 0x6A, 0x6B, 0x6C, 0x6D, 0x6E, 0x6F, 0x70, 0x71, 0x72, 0x73, 0x74, 0x75, 0x76]

/-- FWD[48..63]: `w` to `z`, `0` to `9`, `+`, `/` (R62). -/
def fwdRow3 : List Byte :=
  [0x77, 0x78, 0x79, 0x7A, 0x30, 0x31, 0x32, 0x33, 0x34, 0x35, 0x36, 0x37, 0x38, 0x39, 0x2B, 0x2F]

/-- The forward table (R62). -/
def fwdRom : List Byte := fwdRow0 ++ fwdRow1 ++ fwdRow2 ++ fwdRow3

/-- `FWD[v]`: the symbol byte of a value (R62). -/
def fwd (v : Sextet) : Byte := fwdRom.getD v.toNat 0

/-- `REV[b]`: the class of a byte (R63). -/
def rev (b : Byte) : SymbolClass :=
  if 0x41 ≤ b.toNat ∧ b.toNat ≤ 0x5A then .valid (BitVec.ofNat 6 (b.toNat - 0x41))
  else if 0x61 ≤ b.toNat ∧ b.toNat ≤ 0x7A then .valid (BitVec.ofNat 6 (b.toNat - 0x47))
  else if 0x30 ≤ b.toNat ∧ b.toNat ≤ 0x39 then .valid (BitVec.ofNat 6 (b.toNat + 4))
  else if b.toNat = 0x2B then .valid 62
  else if b.toNat = 0x2F then .valid 63
  else if b.toNat = 0x3D then .pad
  else .invalid

/-- The value a class contributes to packing: a pad enters as 0 (R80, R82). -/
def SymbolClass.value (c : SymbolClass) : Sextet :=
  match c with
  | .valid v => v
  | .pad => 0
  | .invalid => 0

end Sys2Proof.Machine
end

