-- ==== Sys2Proof/Machine/Group.lean ====
section
/-! DEFINITION. The two group transforms: EncGroup (R67, R68), and DecGroup with its validation and
packing (R77 to R82). -/

namespace Sys2Proof.Machine

/-- The 24-bit value of a group of `n` bytes; absent bytes are zero (R67, R68). -/
def groupWord (n : Nat) (b0 b1 b2 : Byte) : BitVec 24 :=
  b0 ++ (if 2 ≤ n then b1 else (0 : Byte)) ++ (if n = 3 then b2 else (0 : Byte))

/-- `EncGroup(n, b0, b1, b2)` (R67). -/
def encGroup (n : Nat) (b0 b1 b2 : Byte) : Quad :=
  let w := groupWord n b0 b1 b2
  { s0 := fwd (w.extractLsb' 18 6)
    s1 := fwd (w.extractLsb' 12 6)
    s2 := if 2 ≤ n then fwd (w.extractLsb' 6 6) else padSymbol
    s3 := if n = 3 then fwd (w.extractLsb' 0 6) else padSymbol }

/-- The code of the first class that is not VALID, in order of position (R78, R79). -/
def firstFailure (cs : List SymbolClass) : Option ErrCode :=
  match cs with
  | [] => none
  | .invalid :: _ => some .invalidSymbol
  | .pad :: _ => some .misplacedPad
  | .valid _ :: rest => firstFailure rest

/-- `CheckNonFinal` (R78): the byte count, or the code. -/
def checkNonFinal (c0 c1 c2 c3 : SymbolClass) : Except ErrCode Nat :=
  match firstFailure [c0, c1, c2, c3] with
  | some e => .error e
  | none => .ok 3

/-- The table of R79 on the last two positions of a final group. -/
def checkTail (c2 c3 : SymbolClass) : Except ErrCode Nat :=
  match c2, c3 with
  | .valid _, .valid _ => .ok 3
  | .valid _, .pad => .ok 2
  | .pad, .pad => .ok 1
  | .valid _, .invalid => .error .invalidSymbol
  | .invalid, _ => .error .invalidSymbol
  | .pad, .valid _ => .error .misplacedPad
  | .pad, .invalid => .error .misplacedPad

/-- `CheckFinal` (R79): the byte count, or the code. -/
def checkFinal (c0 c1 c2 c3 : SymbolClass) : Except ErrCode Nat :=
  match firstFailure [c0, c1] with
  | some e => .error e
  | none => checkTail c2 c3

/-- `Pack` (R80): the three bytes, each truncated to 8 bits. -/
def packBytes (v0 v1 v2 v3 : Sextet) : List Byte :=
  [ (v0.setWidth 8 <<< 2) ||| (v1.setWidth 8 >>> 4),
    (v1.setWidth 8 <<< 4) ||| (v2.setWidth 8 >>> 2),
    (v2.setWidth 8 <<< 6) ||| v3.setWidth 8 ]

/-- The validation of a group, by its kind (R77). -/
def checkGroup (final : Bool) (c0 c1 c2 c3 : SymbolClass) : Except ErrCode Nat :=
  if final then checkFinal c0 c1 c2 c3 else checkNonFinal c0 c1 c2 c3

/-- `DecGroup(final, s0, s1, s2, s3)` (R82): the bytes, or the code. -/
def decGroup (final : Bool) (q : Quad) : Except ErrCode (List Byte) :=
  match checkGroup final (rev q.s0) (rev q.s1) (rev q.s2) (rev q.s3) with
  | .error e => .error e
  | .ok k =>
    .ok ((packBytes (rev q.s0).value (rev q.s1).value (rev q.s2).value (rev q.s3).value).take k)

end Sys2Proof.Machine
end

