-- ==== Sys2Proof/Machine/Decoder.lean ====
section
/-! DEFINITION. The decoder family: DEC, DECF (R83, R84) and the acceptance of DECODE (R87), whose
engine steps are in Engine.lean. -/

namespace Sys2Proof.Machine

/-- How DEC and DECF end (R83, R84): complete with the bytes and their number, or fail. -/
def State.endDecode (s : State) (r : Except ErrCode (List Byte)) : State :=
  match r with
  | .ok bytes => s.complete (bytesWord bytes) (BitVec.ofNat 3 bytes.length)
  | .error e => s.fail e

/-- DEC (R83): decode DIN as a non-final group. -/
def execDec (s : State) : Host.Outcome State Fault Refusal :=
  s.accept fun s => s.endDecode (decGroup false s.dinQuad)

/-- DECF (R84): decode DIN as a final group. -/
def execDecf (s : State) : Host.Outcome State Fault Refusal :=
  s.accept fun s => s.endDecode (decGroup true s.dinQuad)

/-- DECODE (R87): acceptance; the engine then runs it. -/
def execDecode (s : State) : Host.Outcome State Fault Refusal :=
  s.accept fun s => s.startBuffer .dec

end Sys2Proof.Machine
end

