-- ==== Sys2Proof/Machine/Encoder.lean ====
section
/-! DEFINITION. The encoder family: ENC1, ENC2, ENC3 (R69 to R71) and the acceptance of ENCODE (R73),
whose engine steps are in Engine.lean. -/

namespace Sys2Proof.Machine

/-- ENC1 (R69): encode DIN[23:16] as a final group of one byte. -/
def execEnc1 (s : State) : Host.Outcome State Fault Refusal :=
  s.accept fun s => s.complete (encGroup 1 s.din23 0 0).word 4

/-- ENC2 (R70): encode DIN[23:8] as a final group of two bytes. -/
def execEnc2 (s : State) : Host.Outcome State Fault Refusal :=
  s.accept fun s => s.complete (encGroup 2 s.din23 s.din15 0).word 4

/-- ENC3 (R71): encode DIN[23:0] as a full group. -/
def execEnc3 (s : State) : Host.Outcome State Fault Refusal :=
  s.accept fun s => s.complete (encGroup 3 s.din23 s.din15 s.din7).word 4

/-- ENCODE (R73): acceptance; the engine then runs it. -/
def execEncode (s : State) : Host.Outcome State Fault Refusal :=
  s.accept fun s => s.startBuffer .enc

end Sys2Proof.Machine
end

