-- ==== Sys2Proof/Machine/Lookup.lean ====
section
/-! DEFINITION. The lookup family: FLUT (R65) and RLUT (R66). -/

namespace Sys2Proof.Machine

/-- RLUT's result word (R66): the value in bits 5:0, the class in bits 9:8. -/
def SymbolClass.word (c : SymbolClass) : Word :=
  match c with
  | .valid v => v.setWidth 32
  | .pad => 0x00000100
  | .invalid => 0x00000200

/-- FLUT (R65): read the forward table at DIN[5:0]. -/
def execFlut (s : State) : Host.Outcome State Fault Refusal :=
  s.accept fun s => s.complete ((fwd s.din5).setWidth 32) 1

/-- RLUT (R66): read the reverse table at DIN[7:0]. -/
def execRlut (s : State) : Host.Outcome State Fault Refusal :=
  s.accept fun s => s.complete (rev s.din7).word 1

end Sys2Proof.Machine
end

