-- ==== Sys2Proof/Machine/Dispatch.lean ====
section
/-! DEFINITION. What a CMD write of each command does (R54, R57): one arm per constructor. -/

namespace Sys2Proof.Machine

def exec (i : Instr) (s : State) : Host.Outcome State Fault Refusal :=
  match i with
  | .enc1 => Sys2Proof.Machine.execEnc1 s
  | .enc2 => Sys2Proof.Machine.execEnc2 s
  | .enc3 => Sys2Proof.Machine.execEnc3 s
  | .dec => Sys2Proof.Machine.execDec s
  | .decf => Sys2Proof.Machine.execDecf s
  | .encode => Sys2Proof.Machine.execEncode s
  | .decode => Sys2Proof.Machine.execDecode s
  | .flut => Sys2Proof.Machine.execFlut s
  | .rlut => Sys2Proof.Machine.execRlut s

end Sys2Proof.Machine
end

