-- ==== Sys2Proof/Machine/Engine.lean ====
section
/-! DEFINITION. The engine's steps of ENCODE (R73) and DECODE (R87): a start step, group steps and a
terminator step, each of them one step of the machine (R14). A step is first a move, the bytes it is to
write and how it goes on, and then its accesses one by one. -/

namespace Sys2Proof.Machine

/-- Read `n` bytes from `a` up (R73, R87); `none` when an access gets a bus error. -/
def State.readBytes (s : State) (n : Nat) (a : Word) : Option (List Byte) :=
  match n with
  | 0 => some []
  | n + 1 =>
    match s.memRead a with
    | none => none
    | some b =>
      match s.readBytes n (a + 1) with
      | none => none
      | some bs => some (b :: bs)

/-- Write the bytes from `a` up (R73, R87): the state after the writes done, and whether all were. -/
def State.writeBytes (s : State) (a : Word) (bs : List Byte) : State × Bool :=
  match bs with
  | [] => (s, true)
  | b :: rest =>
    match s.memWrite a b with
    | none => (s, false)
    | some s' => s'.writeBytes (a + 1) rest

/-- The engine's `olen <- olen + k; g <- g + 1` after a group (R73, R87). -/
def State.nextGroup (s : State) (k : Nat) : State :=
  { s with olen := s.olen + BitVec.ofNat 32 k, g := s.g + 1 }

/-- The start step has fixed `G` (R73, R87). -/
def State.begin (s : State) (groups : Nat) : State :=
  { s with groups := BitVec.ofNat 32 groups, started := true }

/-! ### Moves -/

/-- How an engine step goes on when its accesses are completed. -/
inductive StepEnd where
  /-- The start step has fixed `G` (R73, R87). -/
  | begin (groups : Nat)
  /-- A group of so many output bytes is done (R73, R87). -/
  | next (bytes : Nat)
  /-- The command finishes (R74). -/
  | finish (err : Bool) (code : ErrCode) (rlen grp : Word)
deriving DecidableEq, Repr

/-- What an engine step is to do after its reads: the bytes to write and the address of the first, the
ERRGRP of a bus error among these writes (R94), and how the step goes on without one. -/
structure EngineMove where
  target : Word
  bytes : List Byte
  grp : Word
  goOn : StepEnd
deriving DecidableEq, Repr

/-- A move that writes nothing. -/
def EngineMove.quiet (e : StepEnd) : EngineMove := ⟨0, [], 0, e⟩

/-- ENCODE's start step (R73): the length check, before any access. -/
def State.encodeStart (s : State) : EngineMove :=
  if Config.encMaxLen < s.len.toNat then .quiet (.finish true .length 0 0)
  else .quiet (.begin (ceilDiv s.len.toNat 3))

/-- The symbols of ENCODE's group from the bytes read for it (R73): absent bytes are 0. -/
def encodeSymbols (bs : List Byte) : Quad :=
  encGroup bs.length (bs.getD 0 0) (bs.getD 1 0) (bs.getD 2 0)

/-- ENCODE's group step (R73): read the group's bytes, write its four symbols. -/
def State.encodeGroup (s : State) : EngineMove :=
  match s.readBytes s.encodeCount s.encodeSource with
  | none => .quiet (.finish true .busError 0 s.g)
  | some bs => ⟨s.encodeTarget, (encodeSymbols bs).bytes, s.g, .next 4⟩

/-- ENCODE's terminator step (R73). -/
def State.encodeTerminator (s : State) : EngineMove :=
  ⟨s.dst + 4 * s.groups, [terminator], s.groups, .finish false .none (4 * s.groups) 0⟩

/-- DECODE's start step (R85, R87): a bad length writes the zero-length marker. -/
def State.decodeStart (s : State) : EngineMove :=
  if s.decodeLenOk then .quiet (.begin (s.len.toNat / 4))
  else ⟨s.dst, [terminator], 0, .finish true .length 0 0⟩

/-- The group being processed is the last one (R87). -/
def State.lastGroup (s : State) : Bool := s.g + 1 == s.groups

/-- The four symbols of DECODE's group from the bytes read for it (R87). -/
def decodeSymbols (bs : List Byte) : Quad :=
  ⟨bs.getD 0 0, bs.getD 1 0, bs.getD 2 0, bs.getD 3 0⟩

/-- DECODE's group step (R87): read four symbols, validate them, write the decoded bytes. -/
def State.decodeGroup (s : State) : EngineMove :=
  match s.readBytes 4 s.decodeSource with
  | none => .quiet (.finish true .busError 0 s.g)
  | some bs =>
    match decGroup s.lastGroup (decodeSymbols bs) with
    | .error e => .quiet (.finish true e 0 s.g)
    | .ok out => ⟨s.decodeTarget, out, s.g, .next out.length⟩

/-- DECODE's terminator step (R87). -/
def State.decodeTerminator (s : State) : EngineMove :=
  ⟨s.decodeTarget, [terminator], s.groups, .finish false .none s.olen 0⟩

/-- The next move of a running ENCODE (R73). -/
def State.encodeMove (s : State) : EngineMove :=
  if s.started then
    if s.g < s.groups then s.encodeGroup else s.encodeTerminator
  else s.encodeStart

/-- The next move of a running DECODE (R87). -/
def State.decodeMove (s : State) : EngineMove :=
  if s.started then
    if s.g < s.groups then s.decodeGroup else s.decodeTerminator
  else s.decodeStart

/-- The engine's next move (R14): none while it is idle. -/
def State.engineMove (s : State) : Option EngineMove :=
  match s.phase with
  | .idle => none
  | .enc => some s.encodeMove
  | .dec => some s.decodeMove

/-! ### Steps -/

/-- The state after a move's writes, up to the first one that gets a bus error (R94). -/
def State.writeMove (s : State) (m : EngineMove) : State := (s.writeBytes m.target m.bytes).1

/-- How a step ends whose accesses are completed. -/
def State.endStep (s : State) (e : StepEnd) : State :=
  match e with
  | .begin groups => s.begin groups
  | .next bytes => s.nextGroup bytes
  | .finish err code rlen grp => s.finish err code rlen grp

/-- Perform a move: its writes, and then go on, or finish with BUS_ERROR (R94). -/
def State.performMove (s : State) (m : EngineMove) : State :=
  if (s.writeBytes m.target m.bytes).2 then (s.writeMove m).endStep m.goOn
  else (s.writeMove m).finish true .busError 0 m.grp

/-- One engine step (R14): none is possible while the engine is idle. -/
def State.engineStep (s : State) : State :=
  match s.engineMove with
  | none => s
  | some m => s.performMove m

/-- The engine in the middle of its next step, with the first `landed` writes of the step made, or as
many as there are before the end or a bus error. No step makes more than four. -/
def State.midStep (s : State) (landed : Nat) : State :=
  match s.engineMove with
  | none => s
  | some m => s.writeMove { m with bytes := m.bytes.take landed }

end Sys2Proof.Machine
end

