-- ==== Sys2Proof/Machine/Duty.lean ====
section
/-! DEFINITION. The host duty of R49: the bytes a running command leaves to the engine alone. The input
range is in Operands.lean. -/

namespace Sys2Proof.Machine

/-- How many bytes the running command will have written when it is over, if it is so within
`steps + 1` more engine steps: the engine is run ahead. The input holds still meanwhile (R49). -/
def State.writesAhead (s : State) (steps : Nat) : Nat :=
  match steps with
  | 0 => (s.midStep 4).undo.length
  | n + 1 =>
    if s.engineStep.phase = .idle then (s.midStep 4).undo.length else s.engineStep.writesAhead n

/-- The number of bytes of the running command's output range, terminator included (R41): for ENCODE
`4*ceil(LEN/3) + 1`; for DECODE the bytes it writes, which are `RLEN + 1` when it succeeds (R41), and
those of R85, R88 and R94 when it fails (log 9). It is over within `LEN/4 + 2` steps (R116). -/
def State.outputBytes (s : State) : Nat :=
  match s.phase with
  | .idle => 0
  | .enc => 4 * ceilDiv s.len.toNat 3 + 1
  | .dec => s.writesAhead (s.len.toNat / 4 + 2)

/-- The output range of the running command (R41). -/
def State.inOutput (s : State) (a : Word) : Bool := inRange a s.dst s.outputBytes

/-- The host must not write this byte now (R49). -/
def State.writeForbidden (s : State) (a : Word) : Bool := s.busy && (s.inInput a || s.inOutput a)

/-- The host must not read this byte now (R49). -/
def State.readForbidden (s : State) (a : Word) : Bool := s.busy && s.inOutput a

end Sys2Proof.Machine
end

