-- ==== Sys2Proof/Machine/Reset.lean ====
section
/-! DEFINITION. Reset (R107, R108), which can meet a running command at any point, in the middle of an
engine step too. -/

namespace Sys2Proof.Machine

/-- How many writes of the running command survive this reset: a draw over every prefix, from empty up
to the writes done (R108, I2; log 5), which are those of the steps taken and `landed` ones of the step
under way (D22; log 11). -/
def State.surviving (s : State) (landed : Nat) : Nat :=
  min (Config.survivingWrites s.draws) (s.midStep landed).undo.length

/-- Memory after a reset (R107, R108): kept when no command runs; when one runs, the effects of some
prefix of its write sequence. -/
def State.memAfterReset (s : State) (landed : Nat) : List Host.Cell :=
  let done := s.midStep landed
  if s.busy then undoWrites done.mem (done.undo.length - s.surviving landed) done.undo else s.mem

/-- Reset (R107, R108): the block's registers and engine take their reset values; memory is kept as
R108 says; the platform and the host are outside the block. -/
def State.resetBlock (s : State) (landed : Nat) : State :=
  { s with
    status := 0
    din := 0
    dout := 0
    src := 0
    dst := 0
    len := 0
    rlen := 0
    errgrp := 0
    phase := .idle
    started := false
    g := 0
    groups := 0
    olen := 0
    undo := []
    mem := s.memAfterReset landed
    draws := s.draws + 1 }

end Sys2Proof.Machine
end

