-- ==== Sys2Proof/Machine/Port.lean ====
section
/-! DEFINITION. The register port (R15 to R17, R45, R57), the host's operations (R12, R49, R60, R107),
and who moves next (R12, R96, R116). -/

namespace Sys2Proof.Machine

/-- A write of `w` to CMD (R57): the command it names, or ILLEGAL_CMD (R92); dropped while BUSY is 1. -/
def commandWrite (w : Word) (s : State) : Host.Outcome State Fault Refusal :=
  match decode w with
  | .ok i => exec i s
  | .error _ => s.accept State.illegal

/-- A write of `v` at a window offset (R16): CMD issues a command, a reserved offset ignores it. -/
def writeOffset (offset : BitVec 8) (v : Word) (s : State) : Host.Outcome State Fault Refusal :=
  match regAt offset with
  | none => .next s
  | some r => if r = .cmd then commandWrite v s else .next (s.writeReg r v)

/-- The port serves this access (R45): 32 bits, not a burst, word aligned, inside the window. -/
def State.serves (s : State) (a : BusAccess) : Bool :=
  a.size == 4 && a.beats == 1 && a.addr.extractLsb' 0 2 == 0
    && a.addr.extractLsb' 8 24 == s.platform.basePage

/-- The window offset of an address: the base is a multiple of 0x100 (R6, R15). -/
def BusAccess.offset (a : BusAccess) : BitVec 8 := a.addr.extractLsb' 0 8

/-- The value a read returns with this answer; a read answered with an error returns 0 (R45). -/
def Answer.value (r : Answer) : Word :=
  match r with
  | .data w => w
  | .done => 0
  | .busError => 0
  | .byte b => b.setWidth 32

/-- One access of the register port (R16, R45), with its answer to the host. -/
def portAccess (a : BusAccess) (s : State) : Host.Outcome State Fault Refusal :=
  if s.serves a then
    match a.command with
    | .read => .next (s.answer (.data (s.readOffset a.offset)))
    | .write v => writeOffset a.offset v (s.answer .done)
  else .next (s.answer .busError)

/-- R60's `poll`: read STATUS, and poll again while BUSY is 1. -/
def State.pollStep (s : State) : State :=
  if s.busy then (s.answer (.data s.status)).withOps (.poll :: s.ops)
  else s.answer (.data s.status)

/-- One operation of the host (R12). A memory access that R49 allows is performed on the one shared
memory: after the end of a command it sees and follows the command's writes even when no STATUS read has
returned BUSY = 0 since, where R50 promises no order. DESIGN CHOICE (log 21). -/
def hostStep (op : HostOp) (s : State) : Host.Outcome State Fault Refusal :=
  match op with
  | .access a => portAccess a s
  | .poll => .next s.pollStep
  | .memWrite a b =>
    if s.writeForbidden a then .refused .hostTouchesRunningBuffer else .next (s.putByte a b)
  | .memRead a =>
    if s.readForbidden a then .refused .hostTouchesRunningBuffer
    else .next (s.answer (.byte (s.byteAt a)))
  | .reset landed => .next (s.resetBlock landed)

/-- Both agents can move: the engine runs a command and the host has something to do. -/
def State.contended (s : State) : Bool := s.phase != .idle && !s.ops.isEmpty

/-- Who moves next (R116; log 6). Alone, an agent moves; where both can, the schedule says, and past
its end the engine goes first, so that every engine step is taken in the end. -/
def State.mover (s : State) : Agent :=
  if s.contended then s.sched.headD .engine
  else if s.phase = .idle then .host
  else .engine

/-- The schedule is used up by one choice where there was one to make. -/
def State.takeTurn (s : State) : State :=
  if s.contended then { s with sched := s.sched.tail } else s

/-- One step of the machine: one host operation or one engine step; nothing where neither has any. -/
def advance (s : State) : Host.Outcome State Fault Refusal :=
  match s.mover with
  | .engine => .next s.takeTurn.engineStep
  | .host =>
    match s.ops with
    | [] => .next s
    | op :: rest => hostStep op (s.takeTurn.withOps rest)

/-- The CMD write of the command word `w` (R17, R59 `wr CMD, w`). -/
def cmdWrite (base w : Word) : BusAccess := ⟨base, 4, 1, .write w⟩

/-- The host's next operation is this CMD write, and the host moves next. -/
def State.placeCommand (s : State) (w : Word) : State :=
  { s with
    ops := .access (cmdWrite s.platform.base w) :: s.ops
    sched := if s.phase = .idle then s.sched else .host :: s.sched }

end Sys2Proof.Machine
end

