-- ==== Sys2Proof/Machine/Step.lean ====
section
/-! DEFINITION. One step of the machine, and how a command word is placed as the next one to run. -/

namespace Sys2Proof.Machine

/-- One step: one host operation or one engine step (R12, R14). -/
def step (s : State) : Host.Outcome State Fault Refusal := advance s

/-- The block fetches nothing (R51): a command comes as a CMD write, so the instruction whose bits are
`w` is placed as the host's next operation, a CMD write of its word (log 8). While a command runs
that write is performed next and dropped, as R57 says. -/
def State.withFetchWord (s : State) (nbits w : Nat) : State :=
  s.placeCommand (BitVec.ofNat 32 (w % 2 ^ nbits))

end Sys2Proof.Machine
end

