-- ==== Sys2Proof/Machine/Asm.lean ====
section
/-! DEFINITION. The host assembly of R59 and R60: its lines, and the host operations each expands to. -/

namespace Sys2Proof.Machine

/-- A line of host assembly (R59, R60). -/
inductive AsmLine where
  /-- `wr REG, v` -/
  | wr (r : Reg) (v : Word)
  /-- `wr` with an offset in place of a register name -/
  | wrAt (offset : BitVec 8) (v : Word)
  /-- `rd REG -> t`; the value read is the answer the host hears -/
  | rd (r : Reg)
  /-- `rd` with an offset in place of a register name -/
  | rdAt (offset : BitVec 8)
  /-- `mem a, b0, b1, ...` -/
  | mem (a : Word) (bytes : List Byte)
  /-- `mem a, "text"` -/
  | text (a : Word) (chars : List Char)
  /-- `; comment` -/
  | comment
  /-- a bare mnemonic -/
  | bare (i : Instr)
  /-- `enc1 d` and its like: an immediate command with its operand -/
  | operand (i : Instr) (d : Word)
  /-- `poll` -/
  | poll
  /-- `encode s, n, d` -/
  | encodeBuffer (s n d : Word)
  /-- `decode s, n, d` -/
  | decodeBuffer (s n d : Word)
deriving DecidableEq, Repr

/-- The lines R59 and R60 give: a text is US-ASCII, and only the immediate commands take an operand. -/
def AsmLine.wf (l : AsmLine) : Bool :=
  match l with
  | .text _ chars => chars.all (fun c => c.toNat < 128)
  | .operand i _ => i.immediate
  | .wr _ _ => true
  | .wrAt _ _ => true
  | .rd _ => true
  | .rdAt _ => true
  | .mem _ _ => true
  | .comment => true
  | .bare _ => true
  | .poll => true
  | .encodeBuffer _ _ _ => true
  | .decodeBuffer _ _ _ => true

/-- A 32-bit write of `v` at a window offset (R59). -/
def writeOp (base : Word) (offset : BitVec 8) (v : Word) : HostOp :=
  .access ⟨base + offset.setWidth 32, 4, 1, .write v⟩

/-- A 32-bit read at a window offset (R59). -/
def readOp (base : Word) (offset : BitVec 8) : HostOp :=
  .access ⟨base + offset.setWidth 32, 4, 1, .read⟩

/-- The host writes the bytes from `a` up (R59 `mem`). -/
def memOps (a : Word) (bytes : List Byte) : List HostOp :=
  match bytes with
  | [] => []
  | b :: rest => .memWrite a b :: memOps (a + 1) rest

/-- `wr CMD, <word>` (R60). -/
def issueOp (base : Word) (i : Instr) : HostOp := writeOp base Reg.cmd.offset (encode i)

/-- `encode s, n, d` and `decode s, n, d` (R60). -/
def bufferOps (base : Word) (i : Instr) (s n d : Word) : List HostOp :=
  [ writeOp base Reg.src.offset s, writeOp base Reg.len.offset n, writeOp base Reg.dst.offset d,
    issueOp base i, .poll ]

/-- The operations a line stands for, with the window at `base` (R59, R60). -/
def AsmLine.expand (base : Word) (l : AsmLine) : List HostOp :=
  match l with
  | .wr r v => [writeOp base r.offset v]
  | .wrAt offset v => [writeOp base offset v]
  | .rd r => [readOp base r.offset]
  | .rdAt offset => [readOp base offset]
  | .mem a bytes => memOps a bytes
  | .text a chars => memOps a (chars.map fun c => BitVec.ofNat 8 c.toNat)
  | .comment => []
  | .bare i => [issueOp base i]
  | .operand i d => [writeOp base Reg.din.offset d, issueOp base i]
  | .poll => [.poll]
  | .encodeBuffer s n d => bufferOps base .encode s n d
  | .decodeBuffer s n d => bufferOps base .decode s n d

/-- A host program's operations, line by line. -/
def assemble (base : Word) (lines : List AsmLine) : List HostOp :=
  match lines with
  | [] => []
  | l :: rest => l.expand base ++ assemble base rest

end Sys2Proof.Machine
end

