-- ==== Sys2Proof/Safety.lean ====
section
/-! DEFINITION. The terms that claims use: the invariants of the machine, runs of the engine alone,
the bytes of a buffer, and ENCODE and DECODE as functions on lists of bytes. -/

namespace Sys2Proof.Machine

/-! ### Invariants -/

/-- STATUS holds a legal word: reserved bits 0 (R23), ERRCODE at most 5 and 0 exactly when ERR is 0
(R19, R21), COUNT at most 4 and 0 after a failure (R22), and neither ERR nor COUNT set while BUSY
(R73, R87). -/
abbrev State.StatusLegal (s : State) : Prop :=
  s.status.getLsbD 3 = false ∧ s.status.extractLsb' 11 21 = 0 ∧
    (statusCode s.status).toNat ≤ 5 ∧ (statusErr s.status = false ↔ statusCode s.status = 0) ∧
    (statusCount s.status).toNat ≤ 4 ∧
    (statusErr s.status = true → statusCount s.status = 0) ∧
    (s.busy = true → statusErr s.status = false ∧ statusCount s.status = 0)

/-- Memory is in its canonical form, and so are the addresses a reset would write back. -/
abbrev State.MemoryCanonical (s : State) : Prop :=
  Memory.wf s.mem ∧ ∀ c ∈ s.undo, c.1 < 2 ^ 32

/-- The engine at rest (R14's idle values). -/
abbrev State.EngineAtRest (s : State) : Prop :=
  s.started = false ∧ s.g = 0 ∧ s.groups = 0 ∧ s.olen = 0 ∧ s.undo = []

/-- A started ENCODE (R72, R73): `4g` symbols are written when group `g` is next. -/
abbrev State.EncodeRunning (s : State) : Prop :=
  s.len.toNat ≤ Config.encMaxLen ∧ s.groups.toNat = ceilDiv s.len.toNat 3 ∧
    s.g.toNat ≤ s.groups.toNat ∧ s.olen.toNat = 4 * s.g.toNat ∧ s.undo.length = 4 * s.g.toNat

/-- A started DECODE (R86, R87): `3g` bytes are written when group `g` is next, and 1 to 3 more after
the last group. -/
abbrev State.DecodeRunning (s : State) : Prop :=
  s.decodeLenOk = true ∧ s.groups.toNat = s.len.toNat / 4 ∧ s.g.toNat ≤ s.groups.toNat ∧
    (s.g.toNat < s.groups.toNat → s.olen.toNat = 3 * s.g.toNat) ∧
    (s.g.toNat = s.groups.toNat →
      3 * (s.g.toNat - 1) < s.olen.toNat ∧ s.olen.toNat ≤ 3 * s.g.toNat) ∧
    s.undo.length = s.olen.toNat

/-- The engine's progress is legal: BUSY exactly when it is not idle (R14), its idle values when it
is idle or before its start step, RLEN and ERRGRP 0 while it runs (R28, R29). -/
abbrev State.EngineLegal (s : State) : Prop :=
  (s.busy = true ↔ s.phase ≠ .idle) ∧
    (s.started = false → s.EngineAtRest) ∧
    (s.phase = .idle → s.started = false) ∧
    (s.phase ≠ .idle → s.rlen = 0 ∧ s.errgrp = 0) ∧
    (s.phase = .enc → s.started = true → s.EncodeRunning) ∧
    (s.phase = .dec → s.started = true → s.DecodeRunning)

/-! ### Runs of the engine -/

/-- `n` engine steps with no host step between them. -/
def State.engineSteps (s : State) (n : Nat) : State :=
  match n with
  | 0 => s
  | n + 1 => s.engineStep.engineSteps n

/-- The number of groups of the running command (R72, R86): `ceil(LEN/3)` or `LEN/4`. -/
def State.groupCount (s : State) : Nat :=
  match s.phase with
  | .idle => 0
  | .enc => ceilDiv s.len.toNat 3
  | .dec => s.len.toNat / 4

/-- MEM_OK is true for every access (R36's default). -/
abbrev State.NoBusErrors (s : State) : Prop := s.platform.denied = []

/-- The `n` bytes of memory from `a` up, modulo 2^32 (R37, R40). -/
def State.bytesAt (s : State) (a : Word) (n : Nat) : List Byte :=
  match n with
  | 0 => []
  | n + 1 => s.byteAt a :: s.bytesAt (a + 1) n

/-- No byte of the input lies in the first `n` bytes of the output (R41, R52). -/
abbrev State.Disjoint (s : State) (n : Nat) : Prop :=
  ∀ a : Word, s.inInput a = true → inRange a s.dst n = false

/-! ### The transforms on lists (R73, R87) -/

/-- ENCODE on a list of bytes, terminator left out (R72, R73). -/
def encodeText (input : List Byte) : List Byte :=
  match input with
  | [] => []
  | [b0] => (encGroup 1 b0 0 0).bytes
  | [b0, b1] => (encGroup 2 b0 b1 0).bytes
  | b0 :: b1 :: b2 :: rest => (encGroup 3 b0 b1 b2).bytes ++ encodeText rest

/-- DECODE on a list of symbols of a legal length (R87, R88): the bytes written before the end, and
the group and code of the failure, if there is one. The last group is the final one. -/
def decodeText (input : List Byte) : List Byte × Option (Nat × ErrCode) :=
  match input with
  | s0 :: s1 :: s2 :: s3 :: rest =>
    match decGroup rest.isEmpty ⟨s0, s1, s2, s3⟩ with
    | .error e => ([], some (0, e))
    | .ok bytes =>
      (bytes ++ (decodeText rest).1, (decodeText rest).2.map fun f => (f.1 + 1, f.2))
  | _ => ([], none)

/-- A CMD write of `w` on the host's bus, at the base of the window (R15, R17). -/
def State.cmdAccess (s : State) (w : Word) : BusAccess := cmdWrite s.platform.base w

/-- The state in which the host's next operation, taken from `ops`, is performed. -/
def State.hostTurn (s : State) (rest : List HostOp) : State := s.takeTurn.withOps rest

end Sys2Proof.Machine
end

