-- ==== Sys2Proof/Certificates/Slice0/Obligations.lean ====
section
/-! DEFINITION. The statements for the provers, from the numbered rules of spec/. -/

open Sys2Proof Sys2Proof.Machine

/-! ### Encoding (R53, R54, R57) -/

/-- R54: the nine command words, written out, decode to the nine commands. -/
def Obligations.CommandWordsDecode : Prop :=
  decode 0x00000011 = .ok .enc1 ∧ decode 0x00000012 = .ok .enc2 ∧
    decode 0x00000013 = .ok .enc3 ∧ decode 0x00000020 = .ok .dec ∧
    decode 0x00000021 = .ok .decf ∧ decode 0x00000030 = .ok .encode ∧
    decode 0x00000031 = .ok .decode ∧ decode 0x00000040 = .ok .flut ∧
    decode 0x00000041 = .ok .rlut

/-- R54, R57: the decoder reads a word as an instruction exactly when it is that instruction's word;
all 32 bits count. -/
def Obligations.DecodeExactlyTheNineWords : Prop :=
  ∀ (w : Word) (i : Instr), decode w = .ok i ↔ w = encode i

/-- R53, R57: a word with a bit of CMD[31:8] set is illegal whatever its OP is, and a word with
CMD[31:8] zero is illegal exactly when OP is not in the map. -/
def Obligations.IllegalWordsRejectedByName : Prop :=
  ∀ w : Word,
    (zeroField w ≠ 0 → decode w = .error .zeroFieldNotZero) ∧
      (zeroField w = 0 → legalOps.contains (opField w) = false → decode w = .error .opNotInMap) ∧
      (zeroField w = 0 → legalOps.contains (opField w) = true → ∃ i, decode w = .ok i)

/-! ### A step runs the decoded command -/

/-- R12, R17, R57 (who moves next is log 6): when the host moves next, the step is the host's next
operation, whatever it is, on the state in which that operation is taken off the host's list (and a
choice off the schedule, if there was one to make). When that operation is a 32-bit write of `w` to
CMD and `w` is the word of `i`, the step is `exec i` on that state with the write answered. When the
engine moves next, the step is an engine step. -/
def Obligations.StepRunsDecodedCommand : Prop :=
  (∀ (s : State) (op : HostOp) (rest : List HostOp),
    s.mover = .host → s.ops = op :: rest → step s = hostStep op (s.hostTurn rest)) ∧
  (∀ (s : State) (w : Word) (i : Instr) (rest : List HostOp),
    s.mover = .host → s.ops = .access (s.cmdAccess w) :: rest → decode w = .ok i →
      step s = exec i ((s.hostTurn rest).answer .done)) ∧
  ∀ s : State, s.mover = .engine → step s = .next s.takeTurn.engineStep

/-- The model's way of placing a command (log 8): with the block idle, the next step after
`withFetchWord` runs the instruction whose word is placed. -/
def Obligations.PlacedCommandRunsNext : Prop :=
  ∀ (s : State) (i : Instr), s.phase = .idle →
    step (s.withFetchWord 32 (encode i).toNat) = exec i (s.answer .done)

/-! ### The tables (R61 to R64) -/

/-- R62: the forward table as its closed form; its entries are distinct, and none is the pad symbol. -/
def Obligations.ForwardTableClosedForm : Prop :=
  (∀ v : Sextet,
    (v.toNat ≤ 25 → (fwd v).toNat = v.toNat + 0x41) ∧
      (26 ≤ v.toNat → v.toNat ≤ 51 → (fwd v).toNat = v.toNat + 0x47) ∧
      (52 ≤ v.toNat → v.toNat ≤ 61 → (fwd v).toNat = v.toNat - 4) ∧
      (v.toNat = 62 → fwd v = 0x2B) ∧ (v.toNat = 63 → fwd v = 0x2F)) ∧
    (∀ v w : Sextet, fwd v = fwd w → v = w) ∧ ∀ v : Sextet, fwd v ≠ 0x3D

/-- R63: the reverse table by ranges of bytes; 64 bytes are VALID, one is PAD, 191 are INVALID. -/
def Obligations.ReverseTableEntries : Prop :=
  let bytes := (List.range 256).map (BitVec.ofNat 8)
  (∀ b : Byte,
    (0x41 ≤ b.toNat → b.toNat ≤ 0x5A → rev b = .valid (BitVec.ofNat 6 (b.toNat - 0x41))) ∧
      (0x61 ≤ b.toNat → b.toNat ≤ 0x7A → rev b = .valid (BitVec.ofNat 6 (b.toNat - 0x47))) ∧
      (0x30 ≤ b.toNat → b.toNat ≤ 0x39 → rev b = .valid (BitVec.ofNat 6 (b.toNat + 4)))) ∧
    rev 0x2B = .valid 62 ∧ rev 0x2F = .valid 63 ∧
    (bytes.filter fun b => rev b != .pad && rev b != .invalid).length = 64 ∧
    bytes.filter (fun b => rev b == .pad) = [0x3D] ∧
    (bytes.filter fun b => rev b == .invalid).length = 191

/-- R64: the two tables are inverse on their valid domains, and `=` is PAD and no entry of FWD. -/
def Obligations.TablesAreInverse : Prop :=
  (∀ v : Sextet, rev (fwd v) = .valid v) ∧
    (∀ (b : Byte) (v : Sextet), rev b = .valid v → fwd v = b) ∧
    rev 0x3D = .pad ∧ ∀ v : Sextet, fwd v ≠ 0x3D

/-! ### The group transforms (R67, R68, R78 to R82) -/

/-- R67, R68: EncGroup by its byte formulas, absent bytes zero, pads for the absent symbols. -/
def Obligations.EncGroupFormula : Prop :=
  ∀ b0 b1 b2 : Byte,
    let v0 : Sextet := (b0 >>> 2).setWidth 6
    let v1 := fun x1 : Byte => (((b0 &&& 0x03) <<< 4) ||| (x1 >>> 4)).setWidth 6
    let v2 := fun x1 x2 : Byte => (((x1 &&& 0x0F) <<< 2) ||| (x2 >>> 6)).setWidth 6
    let v3 := fun x2 : Byte => (x2 &&& 0x3F).setWidth 6
    encGroup 1 b0 b1 b2 = ⟨fwd v0, fwd (v1 0), 0x3D, 0x3D⟩ ∧
      encGroup 2 b0 b1 b2 = ⟨fwd v0, fwd (v1 b1), fwd (v2 b1 0), 0x3D⟩ ∧
      encGroup 3 b0 b1 b2 = ⟨fwd v0, fwd (v1 b1), fwd (v2 b1 b2), fwd (v3 b2)⟩

/-! ### The immediate commands (R65, R66, R69 to R71, R83, R84) -/

/-- R69: ENC1 completes with the two data symbols of b0 and two pads, COUNT 4; nothing else changes. -/
def Obligations.Enc1Result : Prop :=
  encode .enc1 = 0x00000011 ∧
  ∀ s : State, s.busy = false →
    exec .enc1 s = .next { s with
      dout := fwd (s.din23.extractLsb' 2 6) ++ fwd (s.din23.extractLsb' 0 2 ++ (0 : BitVec 4)) ++
        (0x3D : Byte) ++ (0x3D : Byte)
      status := 0x00000400 }

/-- R70: ENC2 completes with the three data symbols of b0, b1 and one pad, COUNT 4; nothing else
changes. -/
def Obligations.Enc2Result : Prop :=
  encode .enc2 = 0x00000012 ∧
  ∀ s : State, s.busy = false →
    exec .enc2 s = .next { s with
      dout := fwd (s.din23.extractLsb' 2 6) ++
        fwd (s.din23.extractLsb' 0 2 ++ s.din15.extractLsb' 4 4) ++
        fwd (s.din15.extractLsb' 0 4 ++ (0 : BitVec 2)) ++ (0x3D : Byte)
      status := 0x00000400 }

/-- R71: ENC3 completes with the four data symbols of b0, b1, b2, COUNT 4; nothing else changes. -/
def Obligations.Enc3Result : Prop :=
  encode .enc3 = 0x00000013 ∧
  ∀ s : State, s.busy = false →
    exec .enc3 s = .next { s with
      dout := fwd (s.din23.extractLsb' 2 6) ++
        fwd (s.din23.extractLsb' 0 2 ++ s.din15.extractLsb' 4 4) ++
        fwd (s.din15.extractLsb' 0 4 ++ s.din7.extractLsb' 6 2) ++ fwd (s.din7.extractLsb' 0 6)
      status := 0x00000400 }

/-- R65: FLUT completes with FWD[DIN[5:0]] in DOUT, COUNT 1; nothing else changes. -/
def Obligations.FlutResult : Prop :=
  encode .flut = 0x00000040 ∧
  ∀ s : State, s.busy = false →
    exec .flut s = .next { s with
      dout := (0 : BitVec 24) ++ fwd (s.din.extractLsb' 0 6), status := 0x00000100 }

/-- R66: RLUT completes with the value of a VALID byte, 0x100 for PAD and 0x200 for INVALID, COUNT 1,
ERR 0; nothing else changes. -/
def Obligations.RlutResult : Prop :=
  encode .rlut = 0x00000041 ∧
  ∀ s : State, s.busy = false →
    (∀ v : Sextet, rev s.din7 = .valid v →
      exec .rlut s = .next { s with dout := (0 : BitVec 26) ++ v, status := 0x00000100 }) ∧
    (rev s.din7 = .pad →
      exec .rlut s = .next { s with dout := 0x00000100, status := 0x00000100 }) ∧
    (rev s.din7 = .invalid →
      exec .rlut s = .next { s with dout := 0x00000200, status := 0x00000100 })

/-- R83 with R78 and R80: DEC of four VALID symbols completes with the 24 bits of their values and
COUNT 3; otherwise it fails by the class of the first position that is not VALID, with DOUT and COUNT
0. Nothing but DOUT and STATUS changes. -/
def Obligations.DecResult : Prop :=
  encode .dec = 0x00000020 ∧
  ∀ s : State, s.busy = false →
    (∀ v0 v1 v2 v3 : Sextet, rev s.din31 = .valid v0 → rev s.din23 = .valid v1 →
      rev s.din15 = .valid v2 → rev s.din7 = .valid v3 →
        exec .dec s = .next { s with
          dout := (0 : Byte) ++ v0 ++ v1 ++ v2 ++ v3, status := 0x00000300 }) ∧
    (∀ before after : List SymbolClass, (∀ c ∈ before, ∃ v, c = .valid v) →
      ([rev s.din31, rev s.din23, rev s.din15, rev s.din7] = before ++ .invalid :: after →
        exec .dec s = .next { s with dout := 0, status := 0x00000032 }) ∧
      ([rev s.din31, rev s.din23, rev s.din15, rev s.din7] = before ++ .pad :: after →
        exec .dec s = .next { s with dout := 0, status := 0x00000042 }))

/-- R84 with R79 and R80: DECF with two VALID symbols first completes with 3, 2 or 1 bytes by the
classes of s2 and s3, the bytes past COUNT 0; it fails at positions 0 and 1 as DEC does, and at
positions 2 and 3 by R79's table, with DOUT and COUNT 0. Nothing but DOUT and STATUS changes. -/
def Obligations.DecfResult : Prop :=
  encode .decf = 0x00000021 ∧
  ∀ s : State, s.busy = false →
    let completes := fun (dout status : Word) =>
      exec .decf s = .next { s with dout := dout, status := status }
    (rev s.din31 = .invalid → completes 0 0x00000032) ∧
    (rev s.din31 = .pad → completes 0 0x00000042) ∧
    (∀ v0, rev s.din31 = .valid v0 →
      (rev s.din23 = .invalid → completes 0 0x00000032) ∧
      (rev s.din23 = .pad → completes 0 0x00000042) ∧
      (∀ v1, rev s.din23 = .valid v1 →
        (∀ v2 v3, rev s.din15 = .valid v2 → rev s.din7 = .valid v3 →
          completes ((0 : Byte) ++ v0 ++ v1 ++ v2 ++ v3) 0x00000300) ∧
        (∀ v2, rev s.din15 = .valid v2 → rev s.din7 = .pad →
          completes ((0 : Byte) ++ v0 ++ v1 ++ v2.extractLsb' 2 4 ++ (0 : Byte)) 0x00000200) ∧
        (rev s.din15 = .pad → rev s.din7 = .pad →
          completes ((0 : Byte) ++ v0 ++ v1.extractLsb' 4 2 ++ (0 : BitVec 16)) 0x00000100) ∧
        (∀ v2, rev s.din15 = .valid v2 → rev s.din7 = .invalid → completes 0 0x00000032) ∧
        (rev s.din15 = .invalid → completes 0 0x00000032) ∧
        (rev s.din15 = .pad → rev s.din7 ≠ .pad → completes 0 0x00000042)))

/-- R27: an accepted immediate or illegal command changes DOUT and STATUS at most, and leaves BUSY and
IGN 0 and the reserved bits of STATUS 0; an accepted buffer command leaves DIN and DOUT, and so does
every engine step. -/
def Obligations.CommandFrames : Prop :=
  (∀ (i : Instr) (s : State), i.immediate = true → s.busy = false →
    ∃ (dout status : Word), exec i s = .next { s with dout := dout, status := status } ∧
      statusBusy status = false ∧ statusIgn status = false ∧ status.getLsbD 3 = false ∧
      status.extractLsb' 11 21 = 0) ∧
  (∀ (w : Word) (s : State), CommandWord.wf w = false → s.busy = false →
    ∃ status : Word, commandWrite w s = .next { s with status := status } ∧
      statusBusy status = false ∧ statusIgn status = false ∧ status.getLsbD 3 = false ∧
      status.extractLsb' 11 21 = 0) ∧
  (∀ (i : Instr) (s : State), i.immediate = false →
    ∃ t, exec i s = .next t ∧ t.din = s.din ∧ t.dout = s.dout) ∧
  ∀ s : State, s.engineStep.din = s.din ∧ s.engineStep.dout = s.dout

/-- R20: IGN is set by a dropped write and nothing else changes then; acceptance of a command clears
it; an engine step keeps it; it is 0 at reset. -/
def Obligations.IgnFollowsItsRule : Prop :=
  (∀ (w : Word) (s : State), s.busy = true →
    ∃ t, commandWrite w s = .next t ∧ t = { s with status := t.status } ∧
      statusIgn t.status = true ∧ ∀ k, k ≠ 2 → t.status.getLsbD k = s.status.getLsbD k) ∧
  (∀ (r : Reg) (v : Word) (s : State), s.busy = true →
    r = .din ∨ r = .src ∨ r = .dst ∨ r = .len →
      s.writeReg r v = { s with status := (s.writeReg r v).status } ∧
        statusIgn (s.writeReg r v).status = true ∧
        ∀ k, k ≠ 2 → (s.writeReg r v).status.getLsbD k = s.status.getLsbD k) ∧
  (∀ (w : Word) (s t : State), s.busy = false → commandWrite w s = .next t →
    statusIgn t.status = false) ∧
  (∀ s : State, statusIgn s.engineStep.status = statusIgn s.status) ∧
  statusIgn State.reset.status = false

/-- R57: a CMD write while BUSY is 1 sets IGN alone, whatever the word; while BUSY is 0 the nine words
run their commands, and every other word is illegal. -/
def Obligations.CommandDispatch : Prop :=
  (∀ (w : Word) (s : State), s.busy = true →
    commandWrite w s = .next { s with status := s.status ||| 0x00000004 }) ∧
  (∀ (i : Instr) (s : State), commandWrite (encode i) s = exec i s) ∧
  ∀ (w : Word) (s : State), (∀ i, encode i ≠ w) → s.busy = false →
    commandWrite w s = .next { s with status := 0x00000012 }

/-! ### The buffer commands (R72 to R76, R85 to R89) -/

/-- R73: an accepted ENCODE sets BUSY, clears RLEN and ERRGRP and starts the engine; the other
registers and memory keep their values. -/
def Obligations.EncodeAccepted : Prop :=
  ∀ s : State, s.busy = false →
    exec .encode s = .next { s with
      status := 0x00000001, rlen := 0, errgrp := 0, phase := .enc, started := false, g := 0,
      olen := 0, undo := [] }

/-- R87: an accepted DECODE sets BUSY, clears RLEN and ERRGRP and starts the engine; the other
registers and memory keep their values. -/
def Obligations.DecodeAccepted : Prop :=
  ∀ s : State, s.busy = false →
    exec .decode s = .next { s with
      status := 0x00000001, rlen := 0, errgrp := 0, phase := .dec, started := false, g := 0,
      olen := 0, undo := [] }

/-- R36: the two primitives of the memory port; and the engine's reads of `n` bytes from `a` up, which
get a bus error exactly when MEM_OK denies the read of one of them, and otherwise answer the bytes of
memory. -/
def Obligations.MemoryPortPrimitives : Prop :=
  (∀ (s : State) (n : Nat) (a : Word),
    ((∃ i, i < n ∧ s.platform.memOk (a + BitVec.ofNat 32 i) .read = false) →
      s.readBytes n a = none) ∧
    ((∀ i, i < n → s.platform.memOk (a + BitVec.ofNat 32 i) .read = true) →
      s.readBytes n a = some (s.bytesAt a n))) ∧
  ∀ (s : State) (a : Word) (b : Byte),
    s.memRead a = (if s.platform.memOk a .read = true then some (s.byteAt a) else none) ∧
    (s.platform.memOk a .write = false → s.memWrite a b = none) ∧
    (s.platform.memOk a .write = true → ∃ t, s.memWrite a b = some t ∧
      t = { s with mem := t.mem, undo := t.undo } ∧
      ∀ a', t.byteAt a' = if a' = a then b else s.byteAt a')

/-- R74: `finish` writes RLEN, ERRGRP, STATUS.ERR, ERRCODE, COUNT and BUSY, keeps IGN, and puts the
engine to rest; nothing else changes. -/
def Obligations.FinishEndsCommand : Prop :=
  ∀ (s : State) (err : Bool) (code : ErrCode) (rlen grp : Word),
    let t := s.finish err code rlen grp
    t.rlen = rlen ∧ t.errgrp = grp ∧ statusErr t.status = err ∧ statusCode t.status = code.bits ∧
      statusCount t.status = 0 ∧ statusBusy t.status = false ∧
      statusIgn t.status = statusIgn s.status ∧ t.phase = .idle ∧ t.EngineAtRest ∧
      s = { t with
        rlen := s.rlen, errgrp := s.errgrp, status := s.status, phase := s.phase,
        started := s.started, g := s.g, groups := s.groups, olen := s.olen, undo := s.undo }

/-- R72, R73: ENCODE with LEN above ENC_MAX_LEN finishes with LENGTH in its start step, with no memory
access; IGN is kept. -/
def Obligations.EncodeLengthLimit : Prop :=
  ∀ s : State, s.phase = .enc → s.started = false → 0xBFFFFFFD < s.len.toNat →
    s.engineStep = { s with
      status := statusWord false true (statusIgn s.status) 2 0, rlen := 0, errgrp := 0,
      phase := .idle, started := false, g := 0, groups := 0, olen := 0, undo := [] }

/-- R85: DECODE with a length that is 0 or no multiple of 4 writes the marker 0x00 at DST and finishes
with LENGTH; with a bus error on the marker write it writes nothing and finishes with BUS_ERROR. -/
def Obligations.DecodeLengthCheck : Prop :=
  ∀ s : State, s.phase = .dec → s.started = false →
    (s.len.toNat = 0 ∨ s.len.toNat % 4 ≠ 0) →
      (s.engineStep.phase = .idle ∧ s.engineStep.rlen = 0 ∧ s.engineStep.errgrp = 0 ∧
        statusBusy s.engineStep.status = false ∧ statusErr s.engineStep.status = true) ∧
      (s.platform.memOk s.dst .write = true →
        statusCode s.engineStep.status = 2 ∧
        ∀ a, s.engineStep.byteAt a = if a = s.dst then 0 else s.byteAt a) ∧
      (s.platform.memOk s.dst .write = false →
        statusCode s.engineStep.status = 5 ∧ ∀ a, s.engineStep.byteAt a = s.byteAt a)

/-- R75: ENCODE with LEN = 0 reads nothing, writes 0x00 at DST and finishes with ERR 0, NONE and
RLEN 0, whatever MEM_OK is for reads. -/
def Obligations.EncodeOfNothing : Prop :=
  ∀ s : State, s.len = 0 → s.platform.memOk s.dst .write = true →
    let t := (s.startBuffer .enc).engineSteps 2
    t.phase = .idle ∧ t.status = 0 ∧ t.rlen = 0 ∧ t.errgrp = 0 ∧
      ∀ a, t.byteAt a = if a = s.dst then 0 else s.byteAt a

/-- R72, R73, R75: with no bus error, an ENCODE of a legal length is over within `ceil(LEN/3) + 2`
engine steps, with RLEN = 4*ceil(LEN/3), ERRGRP 0, STATUS 0 and the terminator written. -/
def Obligations.EncodeRunSucceeds : Prop :=
  ∀ s : State, s.NoBusErrors → s.len.toNat ≤ Config.encMaxLen →
    let G := ceilDiv s.len.toNat 3
    let t := (s.startBuffer .enc).engineSteps (G + 2)
    t.phase = .idle ∧ t.status = 0 ∧ t.rlen.toNat = 4 * G ∧ t.errgrp = 0 ∧
      t.byteAt (s.dst + BitVec.ofNat 32 (4 * G)) = 0

/-- R67, R72, R73, R76: with no bus error and an input that the output does not overlap, a run of
ENCODE writes the encoding of the input at DST, then 0x00, and changes no other byte. -/
def Obligations.EncodeRunWritesEncoding : Prop :=
  ∀ s : State, s.NoBusErrors → s.len.toNat ≤ Config.encMaxLen →
    s.Disjoint (4 * ceilDiv s.len.toNat 3 + 1) →
      let G := ceilDiv s.len.toNat 3
      let t := (s.startBuffer .enc).engineSteps (G + 2)
      t.bytesAt s.dst (4 * G + 1) = encodeText (s.bytesAt s.src s.len.toNat) ++ [0] ∧
        ∀ a, inRange a s.dst (4 * G + 1) = false → t.byteAt a = s.byteAt a

/-- R85 to R89, R52: with no bus error, a legal length, and an output that does not overlap the input
or starts where it does (in place), a run of DECODE ends as the transform on the input bytes says:
on success the decoded bytes and 0x00 are written and RLEN is their number; on a failure in group `g`
the bytes of the groups before it are written, no terminator, ERRGRP = g, RLEN = 0. No other byte
changes. The output range that the host leaves alone (R41, R49) is exactly the bytes written, from the
acceptance on; for a DECODE that fails R41 gives no range, and this one is the model's reading (log 9,
DEDUCED). -/
def Obligations.DecodeRunRefinesTransform : Prop :=
  ∀ s : State, s.NoBusErrors → s.decodeLenOk = true →
    (s.Disjoint (3 * (s.len.toNat / 4) + 1) ∨ s.dst = s.src) →
      let t := (s.startBuffer .dec).engineSteps (s.len.toNat / 4 + 2)
      let out := (decodeText (s.bytesAt s.src s.len.toNat)).1
      let range := (s.startBuffer .dec).outputBytes
      t.phase = .idle ∧
        match (decodeText (s.bytesAt s.src s.len.toNat)).2 with
        | none =>
          t.status = 0 ∧ t.rlen.toNat = out.length ∧ t.errgrp = 0 ∧ range = out.length + 1 ∧
            t.bytesAt s.dst (out.length + 1) = out ++ [0] ∧
            ∀ a, inRange a s.dst (out.length + 1) = false → t.byteAt a = s.byteAt a
        | some (g, e) =>
          t.status = statusWord false true false e.bits 0 ∧ t.rlen = 0 ∧ t.errgrp.toNat = g ∧
            out.length = 3 * g ∧ range = 3 * g ∧ t.bytesAt s.dst (3 * g) = out ∧
            ∀ a, inRange a s.dst (3 * g) = false → t.byteAt a = s.byteAt a

/-- R89: decoding the encoding of a byte sequence gives it back. -/
def Obligations.TransformRoundTrip : Prop :=
  ∀ b : List Byte, decodeText (encodeText b) = (b, none)

/-- R89: with no bus error, after an ENCODE of 1 to ENC_MAX_LEN bytes into a buffer that does not
overlap them, a DECODE of its output into a third place returns the bytes, and RLEN is their
number. -/
def Obligations.EngineRoundTrip : Prop :=
  ∀ (s : State) (d : Word), s.NoBusErrors → s.len ≠ 0 → s.len.toNat ≤ Config.encMaxLen →
    s.Disjoint (4 * ceilDiv s.len.toNat 3 + 1) →
      let G := ceilDiv s.len.toNat 3
      let e := (s.startBuffer .enc).engineSteps (G + 2)
      let u := { e with src := s.dst, len := e.rlen, dst := d }
      u.Disjoint (3 * G + 1) →
        let t := (u.startBuffer .dec).engineSteps (G + 2)
        t.status = 0 ∧ t.rlen = s.len ∧
          t.bytesAt d s.len.toNat = s.bytesAt s.src s.len.toNat

/-- R89 on one group: a final group decodes to the 1, 2 or 3 bytes it was encoded from, and a full
group does as a non-final one. -/
def Obligations.GroupRoundTrip : Prop :=
  ∀ b0 b1 b2 : Byte,
    decGroup true (encGroup 1 b0 b1 b2) = .ok [b0] ∧
      decGroup true (encGroup 2 b0 b1 b2) = .ok [b0, b1] ∧
      decGroup true (encGroup 3 b0 b1 b2) = .ok [b0, b1, b2] ∧
      decGroup false (encGroup 3 b0 b1 b2) = .ok [b0, b1, b2]

/-- R81: in an accepted padded final group the discarded bits do not count: groups whose symbols
differ in them alone decode alike, and "Zh==" decodes to 0x66. -/
def Obligations.DiscardedBitsIgnored : Prop :=
  (∀ (a b b' : Byte) (va vb vb' : Sextet),
    rev a = .valid va → rev b = .valid vb → rev b' = .valid vb' →
      vb.extractLsb' 4 2 = vb'.extractLsb' 4 2 →
        decGroup true ⟨a, b, 0x3D, 0x3D⟩ = decGroup true ⟨a, b', 0x3D, 0x3D⟩) ∧
  (∀ (a b c c' : Byte) (va vb vc vc' : Sextet),
    rev a = .valid va → rev b = .valid vb → rev c = .valid vc → rev c' = .valid vc' →
      vc.extractLsb' 2 4 = vc'.extractLsb' 2 4 →
        decGroup true ⟨a, b, c, 0x3D⟩ = decGroup true ⟨a, b, c', 0x3D⟩) ∧
  decGroup true ⟨0x5A, 0x68, 0x3D, 0x3D⟩ = .ok [0x66]

/-- R94, R36: when MEM_OK denies the read of a byte of a group, the command ends with BUS_ERROR, ERRGRP
the group and nothing of the group written. -/
def Obligations.ReadBusErrorStops : Prop :=
  ∀ s : State, s.started = true → s.g < s.groups →
    (s.phase = .enc ∧ (∃ i, i < 3 ∧ 3 * s.g.toNat + i < s.len.toNat ∧
        s.platform.memOk (s.src + 3 * s.g + BitVec.ofNat 32 i) .read = false) ∨
      s.phase = .dec ∧ (∃ i, i < 4 ∧
        s.platform.memOk (s.src + 4 * s.g + BitVec.ofNat 32 i) .read = false)) →
        s.engineStep = { s with
          status := statusWord false true (statusIgn s.status) 5 0, rlen := 0, errgrp := s.g,
          phase := .idle, started := false, g := 0, groups := 0, olen := 0, undo := [] }

/-- R94, R36, R73, R87: writes get a bus error exactly when MEM_OK denies the write of one of the bytes,
and otherwise all bytes are written and no other byte changes. The writes of a group end at the first
one that gets a bus error: the bytes before it are written and no other byte changes. The group
step of either command then ends the command, with ERR 1, BUS_ERROR, RLEN 0, ERRGRP the group and IGN
kept, on the memory that those writes leave; nothing else changes. -/
def Obligations.WriteBusErrorKeepsEarlierBytes : Prop :=
  (∀ (s : State) (a : Word) (bs : List Byte), (s.writeBytes a bs).2 = false ↔
    ∃ i, i < bs.length ∧ s.platform.memOk (a + BitVec.ofNat 32 i) .write = false) ∧
  (∀ (s : State) (a : Word) (bs : List Byte), bs.length ≤ 4 → (s.writeBytes a bs).2 = true →
    (s.writeBytes a bs).1.bytesAt a bs.length = bs ∧
      ∀ a', inRange a' a bs.length = false → (s.writeBytes a bs).1.byteAt a' = s.byteAt a') ∧
  (∀ (s : State) (a : Word) (bs : List Byte), bs.length ≤ 4 → (s.writeBytes a bs).2 = false →
    ∃ k, k < bs.length ∧
      s.platform.memOk (a + BitVec.ofNat 32 k) .write = false ∧
      (∀ i, i < k → s.platform.memOk (a + BitVec.ofNat 32 i) .write = true) ∧
      (s.writeBytes a bs).1.bytesAt a k = bs.take k ∧
      (s.writeBytes a bs).1 =
        { s with mem := (s.writeBytes a bs).1.mem, undo := (s.writeBytes a bs).1.undo } ∧
      ∀ a', inRange a' a k = false → (s.writeBytes a bs).1.byteAt a' = s.byteAt a') ∧
  ∀ s : State, s.started = true → s.g < s.groups →
    let stopped := fun w : State => { w with
      status := statusWord false true (statusIgn s.status) 5 0, rlen := 0, errgrp := s.g,
      phase := .idle, started := false, g := 0, groups := 0, olen := 0, undo := [] }
    (∀ (b0 b1 b2 : Byte) (n : Nat), s.phase = .enc →
      n = min 3 (s.len.toNat - 3 * s.g.toNat) → 1 ≤ n →
        s.readBytes n (s.src + 3 * s.g) = some ([b0, b1, b2].take n) →
          let w := s.writeBytes (s.dst + 4 * s.g) (encGroup n b0 b1 b2).bytes
          w.2 = false → s.engineStep = stopped w.1) ∧
    (∀ (q : Quad) (out : List Byte), s.phase = .dec →
      s.readBytes 4 (s.src + 4 * s.g) = some q.bytes →
        decGroup (s.g == s.groups - 1) q = .ok out →
          let w := s.writeBytes (s.dst + s.olen) out
          w.2 = false → s.engineStep = stopped w.1)

/-- R87: DECODE's group step, when its reads are completed: a group that fails validation ends the
command with its code and writes nothing; an accepted one whose writes are completed writes its bytes
at DST + olen and moves on. The last group, and no other, is validated as the final one. -/
def Obligations.DecodeGroupStep : Prop :=
  ∀ (s : State) (q : Quad), s.phase = .dec → s.started = true → s.g < s.groups →
    s.readBytes 4 (s.src + 4 * s.g) = some q.bytes →
      (∀ e, decGroup (s.g == s.groups - 1) q = .error e → s.engineStep = s.finish true e 0 s.g) ∧
      (∀ out, decGroup (s.g == s.groups - 1) q = .ok out →
        (s.writeBytes (s.dst + s.olen) out).2 = true →
          s.engineStep = { (s.writeBytes (s.dst + s.olen) out).1 with
            olen := s.olen + BitVec.ofNat 32 out.length, g := s.g + 1 })

/-- R73: ENCODE's group step, when its accesses are completed: the group's 1 to 3 bytes are encoded,
absent bytes zero, written at DST + 4g, and the engine moves on. -/
def Obligations.EncodeGroupStep : Prop :=
  ∀ (s : State) (b0 b1 b2 : Byte) (n : Nat), s.phase = .enc → s.started = true →
    s.g < s.groups → n = min 3 (s.len.toNat - 3 * s.g.toNat) → 1 ≤ n →
      s.readBytes n (s.src + 3 * s.g) = some ([b0, b1, b2].take n) →
        (s.writeBytes (s.dst + 4 * s.g) (encGroup n b0 b1 b2).bytes).2 = true →
          s.engineStep =
            { (s.writeBytes (s.dst + 4 * s.g) (encGroup n b0 b1 b2).bytes).1 with
              olen := s.olen + 4, g := s.g + 1 }

/-- R14, R116: from acceptance a buffer command is over after at most G + 2 engine steps, whatever
MEM_OK is. -/
def Obligations.BufferCommandTerminates : Prop :=
  ∀ (s : State) (p : Phase), p = .enc ∨ p = .dec →
    let t := (s.startBuffer p).engineSteps ((s.startBuffer p).groupCount + 2)
    t.phase = .idle ∧ t.busy = false

/-- With nothing left for the host to do, `n` steps of the machine are `n` engine steps, and none is
refused. This is the model's choice of who moves: alone, an agent moves (log 6), and a step in which
neither agent has anything to do gives the same state (log 17). -/
def Obligations.StepsRunTheEngine : Prop :=
  ∀ (s : State) (n : Nat), s.ops = [] → Host.Core.run core n s = .next (s.engineSteps n)

/-- R41: an engine step changes no byte outside the output range of the running command, and the range
stays the same until the command is over. For a DECODE the range is the bytes that the engine, run
ahead, writes, which is the model's reading of R41 for a DECODE that fails (log 9). -/
def Obligations.EngineWritesOnlyOutputRange : Prop :=
  ∀ s : State, s.EngineLegal →
    (∀ a : Word, s.inOutput a = false → s.engineStep.byteAt a = s.byteAt a) ∧
      (s.engineStep.phase ≠ .idle → s.engineStep.outputBytes = s.outputBytes)

/-- R41: an engine step reads nothing outside the input range: two memories that agree on it lead to
the same registers, the same progress and the same bytes written. -/
def Obligations.EngineReadsOnlyInputRange : Prop :=
  ∀ (s : State) (m : List Host.Cell), s.EngineLegal →
    (∀ a : Word, s.inInput a = true → Memory.read m a.toNat = s.byteAt a) →
      let t := s.engineStep
      let t' := { s with mem := m }.engineStep
      t' = { t with mem := t'.mem, undo := t'.undo } ∧
        ∀ a : Word, t'.byteAt a = t.byteAt a ∨
          (t.byteAt a = s.byteAt a ∧ t'.byteAt a = Memory.read m a.toNat)

/-- R26, R27: an engine step writes none of DIN, DOUT, SRC, DST and LEN, keeps IGN (R20, R74), and
changes nothing of the platform or the host. -/
def Obligations.EngineStepFrame : Prop :=
  ∀ s : State,
    let t := s.engineStep
    t.din = s.din ∧ t.dout = s.dout ∧ t.src = s.src ∧ t.dst = s.dst ∧ t.len = s.len ∧
      statusIgn t.status = statusIgn s.status ∧ t.platform = s.platform ∧ t.ops = s.ops ∧
      t.sched = s.sched ∧ t.heard = s.heard ∧ t.draws = s.draws

/-- R16, R26: the operands hold still while BUSY is 1: a step of any kind but a reset keeps DIN, SRC,
DST and LEN, and DOUT. A reset that is only pending does not count: the host must be the one to
move. -/
def Obligations.OperandsHoldStillWhileBusy : Prop :=
  ∀ s t : State, s.busy = true → step s = .next t →
    (t.din = s.din ∧ t.src = s.src ∧ t.dst = s.dst ∧ t.len = s.len ∧ t.dout = s.dout) ∨
      (s.mover = .host ∧ ∃ n rest, s.ops = .reset n :: rest)

/-! ### The register port (R15, R16, R45) -/

/-- R15, R16, R17, R30: a read of a register answers its value (CMD reads 0, ID is hardwired), a read
of a reserved offset answers 0, and neither changes anything but what the host has heard. -/
def Obligations.RegisterReads : Prop :=
  ∀ (s : State) (offset : BitVec 8), offset.extractLsb' 0 2 = 0 →
    portAccess ⟨s.platform.base + offset.setWidth 32, 4, 1, .read⟩ s =
      .next { s with heard := .data (
        if offset = 0x00 then 0 else if offset = 0x04 then s.status
        else if offset = 0x08 then s.din else if offset = 0x0C then s.dout
        else if offset = 0x10 then s.src else if offset = 0x14 then s.dst
        else if offset = 0x18 then s.len else if offset = 0x1C then s.rlen
        else if offset = 0x20 then s.errgrp else if offset = 0x24 then 0x42363401
        else 0) :: s.heard }

/-- R16, R20: a write to DIN, SRC, DST or LEN stores its value while BUSY is 0 and sets IGN alone
while BUSY is 1; a write to STATUS, DOUT, RLEN, ERRGRP, ID or a reserved offset changes nothing but
what the host has heard. -/
def Obligations.RegisterWrites : Prop :=
  ∀ (s : State) (v : Word),
    let write := fun offset : BitVec 8 =>
      portAccess ⟨s.platform.base + offset.setWidth 32, 4, 1, .write v⟩ s
    let u := { s with heard := .done :: s.heard }
    (s.busy = false →
      write 0x08 = .next { u with din := v } ∧ write 0x10 = .next { u with src := v } ∧
      write 0x14 = .next { u with dst := v } ∧ write 0x18 = .next { u with len := v }) ∧
    (s.busy = true → ∀ offset : BitVec 8,
      offset = 0x08 ∨ offset = 0x10 ∨ offset = 0x14 ∨ offset = 0x18 →
        write offset = .next { u with status := s.status ||| 0x00000004 }) ∧
    (∀ offset : BitVec 8, offset.extractLsb' 0 2 = 0 → offset ≠ 0x00 → offset ≠ 0x08 →
      offset ≠ 0x10 → offset ≠ 0x14 → offset ≠ 0x18 → write offset = .next u)

/-- R45: an access that is not a single 32-bit access at a word-aligned address of the window is
answered with an error, returns 0 and changes nothing else. -/
def Obligations.UnservedAccessAnswersError : Prop :=
  (Answer.busError).value = 0 ∧
  ∀ (s : State) (a : BusAccess),
    (a.size ≠ 4 ∨ a.beats ≠ 1 ∨ a.addr.toNat % 4 ≠ 0 ∨
      a.addr.toNat / 256 ≠ s.platform.base.toNat / 256) →
        portAccess a s = .next { s with heard := .busError :: s.heard }

/-! ### The host's memory and its duty (R12, R49, I3) -/

/-- R49: while BUSY is 1 the host has no step that writes a byte of the input, or that reads or writes a
byte of the output range (log 9 for the ranges, DEDUCED). Every other memory access of the host is
performed, and those clauses are the model's choice: whatever MEM_OK says (log 19, DEDUCED), a read
changing nothing but what the host has heard (log 14, DEDUCED), and after the end of a command on the
memory that the command has left, also with no STATUS read of BUSY = 0 since, where R50 promises no order
(log 21, DESIGN CHOICE). -/
def Obligations.HostMemoryAccess : Prop :=
  ∀ (s : State) (a : Word) (b : Byte),
    (s.busy = true → s.inInput a = true ∨ s.inOutput a = true →
      hostStep (.memWrite a b) s = .refused .hostTouchesRunningBuffer) ∧
    (s.busy = true → s.inOutput a = true →
      hostStep (.memRead a) s = .refused .hostTouchesRunningBuffer) ∧
    (s.busy = false ∨ s.inInput a = false ∧ s.inOutput a = false →
      ∃ t, hostStep (.memWrite a b) s = .next t ∧ t = { s with mem := t.mem } ∧
        ∀ a', t.byteAt a' = if a' = a then b else s.byteAt a') ∧
    (s.busy = false ∨ s.inOutput a = false →
      hostStep (.memRead a) s = .next { s with heard := .byte (s.byteAt a) :: s.heard })

/-- R90: no step has no answer but the one the host duty of R49 leaves out: a step that is refused is
a host access to a buffer of a running command. -/
def Obligations.OnlyHostDutyRefuses : Prop :=
  ∀ (s : State) (r : Refusal), step s = .refused r →
    r = .hostTouchesRunningBuffer ∧ s.busy = true ∧
      ∃ a rest, (∃ b, s.ops = .memWrite a b :: rest ∧ (s.inInput a = true ∨ s.inOutput a = true)) ∨
        (s.ops = .memRead a :: rest ∧ s.inOutput a = true)

/-- R60, R111: from a legal state in which the host's next operation is `poll`, the poll is over after
at most as many steps as the schedule is long, the command's engine steps and one more; its last
answer is a STATUS word with BUSY 0. -/
def Obligations.PollTerminates : Prop :=
  ∀ (s : State) (rest : List HostOp), s.EngineLegal → s.ops = .poll :: rest →
    ∃ n t, n ≤ s.sched.length + s.groupCount + 3 ∧ Host.Core.run core n s = .next t ∧
      t.ops = rest ∧ t.busy = false ∧ t.heard.head? = some (.data t.status)

/-! ### Reset (R107, R108) -/

/-- R107: at reset the registers read 0 and ID its word, and the engine is idle. R109: after a reset,
and in the reset state, the host's next register access is served by the very next step (the engine
being idle, the host moves; log 6). -/
def Obligations.ResetValues : Prop :=
  (∀ r : Reg, State.reset.readReg r = if r = .id then 0x42363401 else 0) ∧
    State.reset.phase = .idle ∧ State.reset.EngineAtRest ∧ State.reset.busy = false ∧
    (∀ (a : BusAccess) (rest : List HostOp),
      step { State.reset with ops := .access a :: rest } =
        portAccess a { State.reset with ops := rest }) ∧
    ∀ (s t : State) (n : Nat) (a : BusAccess) (rest : List HostOp),
      hostStep (.reset n) s = .next t → t.ops = .access a :: rest →
        step t = portAccess a { t with ops := rest }

/-- R107, R108: a reset puts the block's registers and engine to their reset values; memory is kept
when no command runs, and otherwise holds the effects of the first `k` writes of the command, for
some `k` up to the writes done. Those are the writes of the steps taken, and of the step under way the
first `landed` ones, 0 where the reset comes between two steps (`midStep`; log 11); `undo` lists them,
the last one first. Platform and host keep theirs. -/
def Obligations.ResetAborts : Prop :=
  ∀ (s : State) (landed : Nat),
    let done := s.midStep landed
    ∃ (t : State) (k : Nat), hostStep (.reset landed) s = .next t ∧ k ≤ done.undo.length ∧
      (∀ r : Reg, t.readReg r = if r = .id then 0x42363401 else 0) ∧
      t.phase = .idle ∧ t.EngineAtRest ∧ t.platform = s.platform ∧ t.ops = s.ops ∧
      t.sched = s.sched ∧ t.heard = s.heard ∧
      t.mem = if s.busy then undoWrites done.mem (done.undo.length - k) done.undo else s.mem

/-- R108: the write sequence is right (log 4). In the middle of an engine step (log 11) as many of the
step's writes are made as have landed, or as there are, at most four; they stand at the head of the
list, and taking them back gives the memory before the step. With all of them made the memory is the one
that the step ends with, whether the command goes on or is over, and a step after which the command goes
on keeps the list. -/
def Obligations.WriteSequenceRecordsMemory : Prop :=
  ∀ (s : State) (landed : Nat), s.MemoryCanonical →
    let m := s.midStep landed
    let all := s.midStep 4
    m = { s with mem := m.mem, undo := m.undo } ∧
      m.undo.length = min (s.undo.length + landed) all.undo.length ∧ s.undo.length ≤ m.undo.length ∧
      all.undo.drop (all.undo.length - m.undo.length) = m.undo ∧
      m.undo.drop (m.undo.length - s.undo.length) = s.undo ∧
      undoWrites m.mem (m.undo.length - s.undo.length) m.undo = s.mem ∧
      s.engineStep.mem = all.mem ∧
      (s.engineStep.phase ≠ .idle → s.engineStep.undo = all.undo)

/-! ### Invariants that every step keeps -/

/-- The memory's canonical form (R35; log 1). -/
def Obligations.StepKeepsMemoryCanonical : Prop :=
  ∀ s t : State, s.MemoryCanonical → step s = .next t → t.MemoryCanonical

/-- R18 to R23: STATUS keeps a legal word: reserved bits 0, ERRCODE at most 5 and 0 exactly when ERR is
0, COUNT at most 4. -/
def Obligations.StepKeepsStatusLegal : Prop :=
  ∀ s t : State, s.StatusLegal → step s = .next t → t.StatusLegal

/-- R14, R28, R29, R72, R86: the engine's progress stays legal: BUSY exactly when it runs, its idle
values at rest, RLEN and ERRGRP 0 while it runs, and G, g and olen as the length laws say. -/
def Obligations.StepKeepsEngineLegal : Prop :=
  ∀ s t : State, s.EngineLegal → step s = .next t → t.EngineLegal

/-- The three invariants hold at reset. -/
def Obligations.ResetMeetsInvariants : Prop :=
  State.reset.MemoryCanonical ∧ State.reset.StatusLegal ∧ State.reset.EngineLegal

/-- R6, R12: the platform's parameters never change. -/
def Obligations.StepKeepsPlatform : Prop :=
  ∀ s t : State, step s = .next t → t.platform = s.platform

/-- R19, R98: ERR and ERRCODE stay as written until a command is accepted, a running command
finishes, or a reset: a step in which BUSY is 0 before and after and STATUS changes is a write to CMD
or a reset. -/
def Obligations.ErrorStaysUntilNextCommand : Prop :=
  ∀ s t : State, s.EngineLegal → s.busy = false → step s = .next t →
    t.status = s.status ∨ (∃ n rest, s.ops = .reset n :: rest) ∨
      ∃ w rest, s.ops = .access (s.cmdAccess w) :: rest

/-- R60: the expansions of the mnemonics and pseudo-instructions, and `poll`: read STATUS, and repeat
while its bit 0 is 1. That `poll` is one host operation that stays the next one is the model's form of
the loop (log 12). -/
def Obligations.PseudoInstructionExpansions : Prop :=
  (∀ base s n d : Word,
    let wr := fun (offset : Word) (v : Word) => HostOp.access ⟨base + offset, 4, 1, .write v⟩
    (∀ i, AsmLine.expand base (.bare i) = [wr 0x00 (encode i)]) ∧
    (∀ i, i.immediate = true →
      AsmLine.expand base (.operand i d) = [wr 0x08 d, wr 0x00 (encode i)]) ∧
    AsmLine.expand base .poll = [.poll] ∧
    AsmLine.expand base (.encodeBuffer s n d) =
      [wr 0x10 s, wr 0x18 n, wr 0x14 d, wr 0x00 0x30, .poll] ∧
    AsmLine.expand base (.decodeBuffer s n d) =
      [wr 0x10 s, wr 0x18 n, wr 0x14 d, wr 0x00 0x31, .poll]) ∧
  ∀ s : State,
    (s.status.getLsbD 0 = true → hostStep .poll s =
      .next { s with heard := .data s.status :: s.heard, ops := .poll :: s.ops }) ∧
    (s.status.getLsbD 0 = false → hostStep .poll s =
      .next { s with heard := .data s.status :: s.heard })

/-! ### The terminator step -/

/-- R73, R87, R94, R29: the terminator step writes 0x00 right after the output and finishes with ERR 0,
NONE, ERRGRP 0 and RLEN the number of output bytes; when that write gets a bus error nothing is written
and the command ends with ERR 1, BUS_ERROR, RLEN 0 and ERRGRP = G. IGN is kept and nothing else
changes. -/
def Obligations.TerminatorStepFinishes : Prop :=
  ∀ (s : State) (n : Word), s.started = true → ¬ s.g < s.groups →
    s.phase = .enc ∧ n = 4 * s.groups ∨ s.phase = .dec ∧ n = s.olen →
      let ended := fun (mem : List Host.Cell) (status rlen errgrp : Word) => { s with
        mem := mem, status := status, rlen := rlen, errgrp := errgrp,
        phase := .idle, started := false, g := 0, groups := 0, olen := 0, undo := [] }
      (s.platform.memOk (s.dst + n) .write = true →
        s.engineStep = ended (Memory.write s.mem (s.dst + n).toNat 0)
          (statusWord false false (statusIgn s.status) 0 0) n 0) ∧
      (s.platform.memOk (s.dst + n) .write = false →
        s.engineStep = ended s.mem (statusWord false true (statusIgn s.status) 5 0) 0 s.groups)
end

