-- ==== Sys2Proof/Laws/State.lean ====
section
/-! SUPPORT. One lemma per field of State per update: what the update writes, and what it keeps. -/

namespace Sys2Proof.Machine

variable (s : State)

/-! ### `complete` of R58 writes DOUT and STATUS alone (R27) -/

@[simp] theorem State.complete_status (d : Word) (n : BitVec 3) :
    (s.complete d n).status = statusComplete n := rfl
@[simp] theorem State.complete_din (d : Word) (n : BitVec 3) : (s.complete d n).din = s.din := rfl
@[simp] theorem State.complete_dout (d : Word) (n : BitVec 3) : (s.complete d n).dout = d := rfl
@[simp] theorem State.complete_src (d : Word) (n : BitVec 3) : (s.complete d n).src = s.src := rfl
@[simp] theorem State.complete_dst (d : Word) (n : BitVec 3) : (s.complete d n).dst = s.dst := rfl
@[simp] theorem State.complete_len (d : Word) (n : BitVec 3) : (s.complete d n).len = s.len := rfl
@[simp] theorem State.complete_rlen (d : Word) (n : BitVec 3) :
    (s.complete d n).rlen = s.rlen := rfl
@[simp] theorem State.complete_errgrp (d : Word) (n : BitVec 3) :
    (s.complete d n).errgrp = s.errgrp := rfl
@[simp] theorem State.complete_phase (d : Word) (n : BitVec 3) :
    (s.complete d n).phase = s.phase := rfl
@[simp] theorem State.complete_started (d : Word) (n : BitVec 3) :
    (s.complete d n).started = s.started := rfl
@[simp] theorem State.complete_g (d : Word) (n : BitVec 3) : (s.complete d n).g = s.g := rfl
@[simp] theorem State.complete_groups (d : Word) (n : BitVec 3) :
    (s.complete d n).groups = s.groups := rfl
@[simp] theorem State.complete_olen (d : Word) (n : BitVec 3) :
    (s.complete d n).olen = s.olen := rfl
@[simp] theorem State.complete_undo (d : Word) (n : BitVec 3) :
    (s.complete d n).undo = s.undo := rfl
@[simp] theorem State.complete_mem (d : Word) (n : BitVec 3) : (s.complete d n).mem = s.mem := rfl
@[simp] theorem State.complete_platform (d : Word) (n : BitVec 3) :
    (s.complete d n).platform = s.platform := rfl
@[simp] theorem State.complete_ops (d : Word) (n : BitVec 3) : (s.complete d n).ops = s.ops := rfl
@[simp] theorem State.complete_sched (d : Word) (n : BitVec 3) :
    (s.complete d n).sched = s.sched := rfl
@[simp] theorem State.complete_heard (d : Word) (n : BitVec 3) :
    (s.complete d n).heard = s.heard := rfl
@[simp] theorem State.complete_draws (d : Word) (n : BitVec 3) :
    (s.complete d n).draws = s.draws := rfl

/-! ### `fail` of R58 writes DOUT and STATUS alone (R27) -/

@[simp] theorem State.fail_status (e : ErrCode) : (s.fail e).status = statusFail e := rfl
@[simp] theorem State.fail_din (e : ErrCode) : (s.fail e).din = s.din := rfl
@[simp] theorem State.fail_dout (e : ErrCode) : (s.fail e).dout = 0 := rfl
@[simp] theorem State.fail_src (e : ErrCode) : (s.fail e).src = s.src := rfl
@[simp] theorem State.fail_dst (e : ErrCode) : (s.fail e).dst = s.dst := rfl
@[simp] theorem State.fail_len (e : ErrCode) : (s.fail e).len = s.len := rfl
@[simp] theorem State.fail_rlen (e : ErrCode) : (s.fail e).rlen = s.rlen := rfl
@[simp] theorem State.fail_errgrp (e : ErrCode) : (s.fail e).errgrp = s.errgrp := rfl
@[simp] theorem State.fail_phase (e : ErrCode) : (s.fail e).phase = s.phase := rfl
@[simp] theorem State.fail_started (e : ErrCode) : (s.fail e).started = s.started := rfl
@[simp] theorem State.fail_g (e : ErrCode) : (s.fail e).g = s.g := rfl
@[simp] theorem State.fail_groups (e : ErrCode) : (s.fail e).groups = s.groups := rfl
@[simp] theorem State.fail_olen (e : ErrCode) : (s.fail e).olen = s.olen := rfl
@[simp] theorem State.fail_undo (e : ErrCode) : (s.fail e).undo = s.undo := rfl
@[simp] theorem State.fail_mem (e : ErrCode) : (s.fail e).mem = s.mem := rfl
@[simp] theorem State.fail_platform (e : ErrCode) : (s.fail e).platform = s.platform := rfl
@[simp] theorem State.fail_ops (e : ErrCode) : (s.fail e).ops = s.ops := rfl
@[simp] theorem State.fail_sched (e : ErrCode) : (s.fail e).sched = s.sched := rfl
@[simp] theorem State.fail_heard (e : ErrCode) : (s.fail e).heard = s.heard := rfl
@[simp] theorem State.fail_draws (e : ErrCode) : (s.fail e).draws = s.draws := rfl

/-! ### an illegal word writes STATUS alone (R92) -/

@[simp] theorem State.illegal_status : (s.illegal).status = statusFail .illegalCmd := rfl
@[simp] theorem State.illegal_din : (s.illegal).din = s.din := rfl
@[simp] theorem State.illegal_dout : (s.illegal).dout = s.dout := rfl
@[simp] theorem State.illegal_src : (s.illegal).src = s.src := rfl
@[simp] theorem State.illegal_dst : (s.illegal).dst = s.dst := rfl
@[simp] theorem State.illegal_len : (s.illegal).len = s.len := rfl
@[simp] theorem State.illegal_rlen : (s.illegal).rlen = s.rlen := rfl
@[simp] theorem State.illegal_errgrp : (s.illegal).errgrp = s.errgrp := rfl
@[simp] theorem State.illegal_phase : (s.illegal).phase = s.phase := rfl
@[simp] theorem State.illegal_started : (s.illegal).started = s.started := rfl
@[simp] theorem State.illegal_g : (s.illegal).g = s.g := rfl
@[simp] theorem State.illegal_groups : (s.illegal).groups = s.groups := rfl
@[simp] theorem State.illegal_olen : (s.illegal).olen = s.olen := rfl
@[simp] theorem State.illegal_undo : (s.illegal).undo = s.undo := rfl
@[simp] theorem State.illegal_mem : (s.illegal).mem = s.mem := rfl
@[simp] theorem State.illegal_platform : (s.illegal).platform = s.platform := rfl
@[simp] theorem State.illegal_ops : (s.illegal).ops = s.ops := rfl
@[simp] theorem State.illegal_sched : (s.illegal).sched = s.sched := rfl
@[simp] theorem State.illegal_heard : (s.illegal).heard = s.heard := rfl
@[simp] theorem State.illegal_draws : (s.illegal).draws = s.draws := rfl

/-! ### what acceptance of a buffer command writes (R73, R87) -/

@[simp] theorem State.startBuffer_status (p : Phase) :
    (s.startBuffer p).status = statusRunning := rfl
@[simp] theorem State.startBuffer_din (p : Phase) : (s.startBuffer p).din = s.din := rfl
@[simp] theorem State.startBuffer_dout (p : Phase) : (s.startBuffer p).dout = s.dout := rfl
@[simp] theorem State.startBuffer_src (p : Phase) : (s.startBuffer p).src = s.src := rfl
@[simp] theorem State.startBuffer_dst (p : Phase) : (s.startBuffer p).dst = s.dst := rfl
@[simp] theorem State.startBuffer_len (p : Phase) : (s.startBuffer p).len = s.len := rfl
@[simp] theorem State.startBuffer_rlen (p : Phase) : (s.startBuffer p).rlen = 0 := rfl
@[simp] theorem State.startBuffer_errgrp (p : Phase) : (s.startBuffer p).errgrp = 0 := rfl
@[simp] theorem State.startBuffer_phase (p : Phase) : (s.startBuffer p).phase = p := rfl
@[simp] theorem State.startBuffer_started (p : Phase) : (s.startBuffer p).started = false := rfl
@[simp] theorem State.startBuffer_g (p : Phase) : (s.startBuffer p).g = 0 := rfl
@[simp] theorem State.startBuffer_groups (p : Phase) : (s.startBuffer p).groups = s.groups := rfl
@[simp] theorem State.startBuffer_olen (p : Phase) : (s.startBuffer p).olen = 0 := rfl
@[simp] theorem State.startBuffer_undo (p : Phase) : (s.startBuffer p).undo = [] := rfl
@[simp] theorem State.startBuffer_mem (p : Phase) : (s.startBuffer p).mem = s.mem := rfl
@[simp] theorem State.startBuffer_platform (p : Phase) :
    (s.startBuffer p).platform = s.platform := rfl
@[simp] theorem State.startBuffer_ops (p : Phase) : (s.startBuffer p).ops = s.ops := rfl
@[simp] theorem State.startBuffer_sched (p : Phase) : (s.startBuffer p).sched = s.sched := rfl
@[simp] theorem State.startBuffer_heard (p : Phase) : (s.startBuffer p).heard = s.heard := rfl
@[simp] theorem State.startBuffer_draws (p : Phase) : (s.startBuffer p).draws = s.draws := rfl

/-! ### `finish` of R74 -/

@[simp] theorem State.finish_status (e : Bool) (c : ErrCode) (r grp : Word) :
    (s.finish e c r grp).status = statusFinish s.status e c := rfl
@[simp] theorem State.finish_din (e : Bool) (c : ErrCode) (r grp : Word) :
    (s.finish e c r grp).din = s.din := rfl
@[simp] theorem State.finish_dout (e : Bool) (c : ErrCode) (r grp : Word) :
    (s.finish e c r grp).dout = s.dout := rfl
@[simp] theorem State.finish_src (e : Bool) (c : ErrCode) (r grp : Word) :
    (s.finish e c r grp).src = s.src := rfl
@[simp] theorem State.finish_dst (e : Bool) (c : ErrCode) (r grp : Word) :
    (s.finish e c r grp).dst = s.dst := rfl
@[simp] theorem State.finish_len (e : Bool) (c : ErrCode) (r grp : Word) :
    (s.finish e c r grp).len = s.len := rfl
@[simp] theorem State.finish_rlen (e : Bool) (c : ErrCode) (r grp : Word) :
    (s.finish e c r grp).rlen = r := rfl
@[simp] theorem State.finish_errgrp (e : Bool) (c : ErrCode) (r grp : Word) :
    (s.finish e c r grp).errgrp = grp := rfl
@[simp] theorem State.finish_phase (e : Bool) (c : ErrCode) (r grp : Word) :
    (s.finish e c r grp).phase = .idle := rfl
@[simp] theorem State.finish_started (e : Bool) (c : ErrCode) (r grp : Word) :
    (s.finish e c r grp).started = false := rfl
@[simp] theorem State.finish_g (e : Bool) (c : ErrCode) (r grp : Word) :
    (s.finish e c r grp).g = 0 := rfl
@[simp] theorem State.finish_groups (e : Bool) (c : ErrCode) (r grp : Word) :
    (s.finish e c r grp).groups = 0 := rfl
@[simp] theorem State.finish_olen (e : Bool) (c : ErrCode) (r grp : Word) :
    (s.finish e c r grp).olen = 0 := rfl
@[simp] theorem State.finish_undo (e : Bool) (c : ErrCode) (r grp : Word) :
    (s.finish e c r grp).undo = [] := rfl
@[simp] theorem State.finish_mem (e : Bool) (c : ErrCode) (r grp : Word) :
    (s.finish e c r grp).mem = s.mem := rfl
@[simp] theorem State.finish_platform (e : Bool) (c : ErrCode) (r grp : Word) :
    (s.finish e c r grp).platform = s.platform := rfl
@[simp] theorem State.finish_ops (e : Bool) (c : ErrCode) (r grp : Word) :
    (s.finish e c r grp).ops = s.ops := rfl
@[simp] theorem State.finish_sched (e : Bool) (c : ErrCode) (r grp : Word) :
    (s.finish e c r grp).sched = s.sched := rfl
@[simp] theorem State.finish_heard (e : Bool) (c : ErrCode) (r grp : Word) :
    (s.finish e c r grp).heard = s.heard := rfl
@[simp] theorem State.finish_draws (e : Bool) (c : ErrCode) (r grp : Word) :
    (s.finish e c r grp).draws = s.draws := rfl

/-! ### a dropped write sets IGN alone (R20) -/

@[simp] theorem State.dropWrite_status : (s.dropWrite).status = statusWithIgn s.status := rfl
@[simp] theorem State.dropWrite_din : (s.dropWrite).din = s.din := rfl
@[simp] theorem State.dropWrite_dout : (s.dropWrite).dout = s.dout := rfl
@[simp] theorem State.dropWrite_src : (s.dropWrite).src = s.src := rfl
@[simp] theorem State.dropWrite_dst : (s.dropWrite).dst = s.dst := rfl
@[simp] theorem State.dropWrite_len : (s.dropWrite).len = s.len := rfl
@[simp] theorem State.dropWrite_rlen : (s.dropWrite).rlen = s.rlen := rfl
@[simp] theorem State.dropWrite_errgrp : (s.dropWrite).errgrp = s.errgrp := rfl
@[simp] theorem State.dropWrite_phase : (s.dropWrite).phase = s.phase := rfl
@[simp] theorem State.dropWrite_started : (s.dropWrite).started = s.started := rfl
@[simp] theorem State.dropWrite_g : (s.dropWrite).g = s.g := rfl
@[simp] theorem State.dropWrite_groups : (s.dropWrite).groups = s.groups := rfl
@[simp] theorem State.dropWrite_olen : (s.dropWrite).olen = s.olen := rfl
@[simp] theorem State.dropWrite_undo : (s.dropWrite).undo = s.undo := rfl
@[simp] theorem State.dropWrite_mem : (s.dropWrite).mem = s.mem := rfl
@[simp] theorem State.dropWrite_platform : (s.dropWrite).platform = s.platform := rfl
@[simp] theorem State.dropWrite_ops : (s.dropWrite).ops = s.ops := rfl
@[simp] theorem State.dropWrite_sched : (s.dropWrite).sched = s.sched := rfl
@[simp] theorem State.dropWrite_heard : (s.dropWrite).heard = s.heard := rfl
@[simp] theorem State.dropWrite_draws : (s.dropWrite).draws = s.draws := rfl

/-! ### an answer is heard by the host -/

@[simp] theorem State.answer_status (r : Answer) : (s.answer r).status = s.status := rfl
@[simp] theorem State.answer_din (r : Answer) : (s.answer r).din = s.din := rfl
@[simp] theorem State.answer_dout (r : Answer) : (s.answer r).dout = s.dout := rfl
@[simp] theorem State.answer_src (r : Answer) : (s.answer r).src = s.src := rfl
@[simp] theorem State.answer_dst (r : Answer) : (s.answer r).dst = s.dst := rfl
@[simp] theorem State.answer_len (r : Answer) : (s.answer r).len = s.len := rfl
@[simp] theorem State.answer_rlen (r : Answer) : (s.answer r).rlen = s.rlen := rfl
@[simp] theorem State.answer_errgrp (r : Answer) : (s.answer r).errgrp = s.errgrp := rfl
@[simp] theorem State.answer_phase (r : Answer) : (s.answer r).phase = s.phase := rfl
@[simp] theorem State.answer_started (r : Answer) : (s.answer r).started = s.started := rfl
@[simp] theorem State.answer_g (r : Answer) : (s.answer r).g = s.g := rfl
@[simp] theorem State.answer_groups (r : Answer) : (s.answer r).groups = s.groups := rfl
@[simp] theorem State.answer_olen (r : Answer) : (s.answer r).olen = s.olen := rfl
@[simp] theorem State.answer_undo (r : Answer) : (s.answer r).undo = s.undo := rfl
@[simp] theorem State.answer_mem (r : Answer) : (s.answer r).mem = s.mem := rfl
@[simp] theorem State.answer_platform (r : Answer) : (s.answer r).platform = s.platform := rfl
@[simp] theorem State.answer_ops (r : Answer) : (s.answer r).ops = s.ops := rfl
@[simp] theorem State.answer_sched (r : Answer) : (s.answer r).sched = s.sched := rfl
@[simp] theorem State.answer_heard (r : Answer) : (s.answer r).heard = r :: s.heard := rfl
@[simp] theorem State.answer_draws (r : Answer) : (s.answer r).draws = s.draws := rfl

/-! ### the host's operations move on -/

@[simp] theorem State.withOps_status (o : List HostOp) : (s.withOps o).status = s.status := rfl
@[simp] theorem State.withOps_din (o : List HostOp) : (s.withOps o).din = s.din := rfl
@[simp] theorem State.withOps_dout (o : List HostOp) : (s.withOps o).dout = s.dout := rfl
@[simp] theorem State.withOps_src (o : List HostOp) : (s.withOps o).src = s.src := rfl
@[simp] theorem State.withOps_dst (o : List HostOp) : (s.withOps o).dst = s.dst := rfl
@[simp] theorem State.withOps_len (o : List HostOp) : (s.withOps o).len = s.len := rfl
@[simp] theorem State.withOps_rlen (o : List HostOp) : (s.withOps o).rlen = s.rlen := rfl
@[simp] theorem State.withOps_errgrp (o : List HostOp) : (s.withOps o).errgrp = s.errgrp := rfl
@[simp] theorem State.withOps_phase (o : List HostOp) : (s.withOps o).phase = s.phase := rfl
@[simp] theorem State.withOps_started (o : List HostOp) : (s.withOps o).started = s.started := rfl
@[simp] theorem State.withOps_g (o : List HostOp) : (s.withOps o).g = s.g := rfl
@[simp] theorem State.withOps_groups (o : List HostOp) : (s.withOps o).groups = s.groups := rfl
@[simp] theorem State.withOps_olen (o : List HostOp) : (s.withOps o).olen = s.olen := rfl
@[simp] theorem State.withOps_undo (o : List HostOp) : (s.withOps o).undo = s.undo := rfl
@[simp] theorem State.withOps_mem (o : List HostOp) : (s.withOps o).mem = s.mem := rfl
@[simp] theorem State.withOps_platform (o : List HostOp) :
    (s.withOps o).platform = s.platform := rfl
@[simp] theorem State.withOps_ops (o : List HostOp) : (s.withOps o).ops = o := rfl
@[simp] theorem State.withOps_sched (o : List HostOp) : (s.withOps o).sched = s.sched := rfl
@[simp] theorem State.withOps_heard (o : List HostOp) : (s.withOps o).heard = s.heard := rfl
@[simp] theorem State.withOps_draws (o : List HostOp) : (s.withOps o).draws = s.draws := rfl

/-! ### a byte is written (R36) -/

@[simp] theorem State.putByte_status (a : Word) (b : Byte) :
    (s.putByte a b).status = s.status := rfl
@[simp] theorem State.putByte_din (a : Word) (b : Byte) : (s.putByte a b).din = s.din := rfl
@[simp] theorem State.putByte_dout (a : Word) (b : Byte) : (s.putByte a b).dout = s.dout := rfl
@[simp] theorem State.putByte_src (a : Word) (b : Byte) : (s.putByte a b).src = s.src := rfl
@[simp] theorem State.putByte_dst (a : Word) (b : Byte) : (s.putByte a b).dst = s.dst := rfl
@[simp] theorem State.putByte_len (a : Word) (b : Byte) : (s.putByte a b).len = s.len := rfl
@[simp] theorem State.putByte_rlen (a : Word) (b : Byte) : (s.putByte a b).rlen = s.rlen := rfl
@[simp] theorem State.putByte_errgrp (a : Word) (b : Byte) :
    (s.putByte a b).errgrp = s.errgrp := rfl
@[simp] theorem State.putByte_phase (a : Word) (b : Byte) : (s.putByte a b).phase = s.phase := rfl
@[simp] theorem State.putByte_started (a : Word) (b : Byte) :
    (s.putByte a b).started = s.started := rfl
@[simp] theorem State.putByte_g (a : Word) (b : Byte) : (s.putByte a b).g = s.g := rfl
@[simp] theorem State.putByte_groups (a : Word) (b : Byte) :
    (s.putByte a b).groups = s.groups := rfl
@[simp] theorem State.putByte_olen (a : Word) (b : Byte) : (s.putByte a b).olen = s.olen := rfl
@[simp] theorem State.putByte_undo (a : Word) (b : Byte) : (s.putByte a b).undo = s.undo := rfl
@[simp] theorem State.putByte_mem (a : Word) (b : Byte) :
    (s.putByte a b).mem = Memory.write s.mem a.toNat b := rfl
@[simp] theorem State.putByte_platform (a : Word) (b : Byte) :
    (s.putByte a b).platform = s.platform := rfl
@[simp] theorem State.putByte_ops (a : Word) (b : Byte) : (s.putByte a b).ops = s.ops := rfl
@[simp] theorem State.putByte_sched (a : Word) (b : Byte) : (s.putByte a b).sched = s.sched := rfl
@[simp] theorem State.putByte_heard (a : Word) (b : Byte) : (s.putByte a b).heard = s.heard := rfl
@[simp] theorem State.putByte_draws (a : Word) (b : Byte) : (s.putByte a b).draws = s.draws := rfl

/-! ### a write of the engine (R36, R108) -/

@[simp] theorem State.engineWrite_status (a : Word) (b : Byte) :
    (s.engineWrite a b).status = s.status := rfl
@[simp] theorem State.engineWrite_din (a : Word) (b : Byte) : (s.engineWrite a b).din = s.din := rfl
@[simp] theorem State.engineWrite_dout (a : Word) (b : Byte) :
    (s.engineWrite a b).dout = s.dout := rfl
@[simp] theorem State.engineWrite_src (a : Word) (b : Byte) : (s.engineWrite a b).src = s.src := rfl
@[simp] theorem State.engineWrite_dst (a : Word) (b : Byte) : (s.engineWrite a b).dst = s.dst := rfl
@[simp] theorem State.engineWrite_len (a : Word) (b : Byte) : (s.engineWrite a b).len = s.len := rfl
@[simp] theorem State.engineWrite_rlen (a : Word) (b : Byte) :
    (s.engineWrite a b).rlen = s.rlen := rfl
@[simp] theorem State.engineWrite_errgrp (a : Word) (b : Byte) :
    (s.engineWrite a b).errgrp = s.errgrp := rfl
@[simp] theorem State.engineWrite_phase (a : Word) (b : Byte) :
    (s.engineWrite a b).phase = s.phase := rfl
@[simp] theorem State.engineWrite_started (a : Word) (b : Byte) :
    (s.engineWrite a b).started = s.started := rfl
@[simp] theorem State.engineWrite_g (a : Word) (b : Byte) : (s.engineWrite a b).g = s.g := rfl
@[simp] theorem State.engineWrite_groups (a : Word) (b : Byte) :
    (s.engineWrite a b).groups = s.groups := rfl
@[simp] theorem State.engineWrite_olen (a : Word) (b : Byte) :
    (s.engineWrite a b).olen = s.olen := rfl
@[simp] theorem State.engineWrite_undo (a : Word) (b : Byte) :
    (s.engineWrite a b).undo = (a.toNat, s.byteAt a) :: s.undo := rfl
@[simp] theorem State.engineWrite_mem (a : Word) (b : Byte) :
    (s.engineWrite a b).mem = Memory.write s.mem a.toNat b := rfl
@[simp] theorem State.engineWrite_platform (a : Word) (b : Byte) :
    (s.engineWrite a b).platform = s.platform := rfl
@[simp] theorem State.engineWrite_ops (a : Word) (b : Byte) : (s.engineWrite a b).ops = s.ops := rfl
@[simp] theorem State.engineWrite_sched (a : Word) (b : Byte) :
    (s.engineWrite a b).sched = s.sched := rfl
@[simp] theorem State.engineWrite_heard (a : Word) (b : Byte) :
    (s.engineWrite a b).heard = s.heard := rfl
@[simp] theorem State.engineWrite_draws (a : Word) (b : Byte) :
    (s.engineWrite a b).draws = s.draws := rfl

/-! ### the engine moves to the next group (R73, R87) -/

@[simp] theorem State.nextGroup_status (k : Nat) : (s.nextGroup k).status = s.status := rfl
@[simp] theorem State.nextGroup_din (k : Nat) : (s.nextGroup k).din = s.din := rfl
@[simp] theorem State.nextGroup_dout (k : Nat) : (s.nextGroup k).dout = s.dout := rfl
@[simp] theorem State.nextGroup_src (k : Nat) : (s.nextGroup k).src = s.src := rfl
@[simp] theorem State.nextGroup_dst (k : Nat) : (s.nextGroup k).dst = s.dst := rfl
@[simp] theorem State.nextGroup_len (k : Nat) : (s.nextGroup k).len = s.len := rfl
@[simp] theorem State.nextGroup_rlen (k : Nat) : (s.nextGroup k).rlen = s.rlen := rfl
@[simp] theorem State.nextGroup_errgrp (k : Nat) : (s.nextGroup k).errgrp = s.errgrp := rfl
@[simp] theorem State.nextGroup_phase (k : Nat) : (s.nextGroup k).phase = s.phase := rfl
@[simp] theorem State.nextGroup_started (k : Nat) : (s.nextGroup k).started = s.started := rfl
@[simp] theorem State.nextGroup_g (k : Nat) : (s.nextGroup k).g = s.g + 1 := rfl
@[simp] theorem State.nextGroup_groups (k : Nat) : (s.nextGroup k).groups = s.groups := rfl
@[simp] theorem State.nextGroup_olen (k : Nat) :
    (s.nextGroup k).olen = s.olen + BitVec.ofNat 32 k := rfl
@[simp] theorem State.nextGroup_undo (k : Nat) : (s.nextGroup k).undo = s.undo := rfl
@[simp] theorem State.nextGroup_mem (k : Nat) : (s.nextGroup k).mem = s.mem := rfl
@[simp] theorem State.nextGroup_platform (k : Nat) : (s.nextGroup k).platform = s.platform := rfl
@[simp] theorem State.nextGroup_ops (k : Nat) : (s.nextGroup k).ops = s.ops := rfl
@[simp] theorem State.nextGroup_sched (k : Nat) : (s.nextGroup k).sched = s.sched := rfl
@[simp] theorem State.nextGroup_heard (k : Nat) : (s.nextGroup k).heard = s.heard := rfl
@[simp] theorem State.nextGroup_draws (k : Nat) : (s.nextGroup k).draws = s.draws := rfl

/-! ### the start step fixes G (R73, R87) -/

@[simp] theorem State.begin_status (k : Nat) : (s.begin k).status = s.status := rfl
@[simp] theorem State.begin_din (k : Nat) : (s.begin k).din = s.din := rfl
@[simp] theorem State.begin_dout (k : Nat) : (s.begin k).dout = s.dout := rfl
@[simp] theorem State.begin_src (k : Nat) : (s.begin k).src = s.src := rfl
@[simp] theorem State.begin_dst (k : Nat) : (s.begin k).dst = s.dst := rfl
@[simp] theorem State.begin_len (k : Nat) : (s.begin k).len = s.len := rfl
@[simp] theorem State.begin_rlen (k : Nat) : (s.begin k).rlen = s.rlen := rfl
@[simp] theorem State.begin_errgrp (k : Nat) : (s.begin k).errgrp = s.errgrp := rfl
@[simp] theorem State.begin_phase (k : Nat) : (s.begin k).phase = s.phase := rfl
@[simp] theorem State.begin_started (k : Nat) : (s.begin k).started = true := rfl
@[simp] theorem State.begin_g (k : Nat) : (s.begin k).g = s.g := rfl
@[simp] theorem State.begin_groups (k : Nat) : (s.begin k).groups = BitVec.ofNat 32 k := rfl
@[simp] theorem State.begin_olen (k : Nat) : (s.begin k).olen = s.olen := rfl
@[simp] theorem State.begin_undo (k : Nat) : (s.begin k).undo = s.undo := rfl
@[simp] theorem State.begin_mem (k : Nat) : (s.begin k).mem = s.mem := rfl
@[simp] theorem State.begin_platform (k : Nat) : (s.begin k).platform = s.platform := rfl
@[simp] theorem State.begin_ops (k : Nat) : (s.begin k).ops = s.ops := rfl
@[simp] theorem State.begin_sched (k : Nat) : (s.begin k).sched = s.sched := rfl
@[simp] theorem State.begin_heard (k : Nat) : (s.begin k).heard = s.heard := rfl
@[simp] theorem State.begin_draws (k : Nat) : (s.begin k).draws = s.draws := rfl

/-! ### reset (R107, R108) -/

section
variable (n : Nat)

@[simp] theorem State.resetBlock_status : (s.resetBlock n).status = 0 := rfl
@[simp] theorem State.resetBlock_din : (s.resetBlock n).din = 0 := rfl
@[simp] theorem State.resetBlock_dout : (s.resetBlock n).dout = 0 := rfl
@[simp] theorem State.resetBlock_src : (s.resetBlock n).src = 0 := rfl
@[simp] theorem State.resetBlock_dst : (s.resetBlock n).dst = 0 := rfl
@[simp] theorem State.resetBlock_len : (s.resetBlock n).len = 0 := rfl
@[simp] theorem State.resetBlock_rlen : (s.resetBlock n).rlen = 0 := rfl
@[simp] theorem State.resetBlock_errgrp : (s.resetBlock n).errgrp = 0 := rfl
@[simp] theorem State.resetBlock_phase : (s.resetBlock n).phase = .idle := rfl
@[simp] theorem State.resetBlock_started : (s.resetBlock n).started = false := rfl
@[simp] theorem State.resetBlock_g : (s.resetBlock n).g = 0 := rfl
@[simp] theorem State.resetBlock_groups : (s.resetBlock n).groups = 0 := rfl
@[simp] theorem State.resetBlock_olen : (s.resetBlock n).olen = 0 := rfl
@[simp] theorem State.resetBlock_undo : (s.resetBlock n).undo = [] := rfl
@[simp] theorem State.resetBlock_mem : (s.resetBlock n).mem = s.memAfterReset n := rfl
@[simp] theorem State.resetBlock_platform : (s.resetBlock n).platform = s.platform := rfl
@[simp] theorem State.resetBlock_ops : (s.resetBlock n).ops = s.ops := rfl
@[simp] theorem State.resetBlock_sched : (s.resetBlock n).sched = s.sched := rfl
@[simp] theorem State.resetBlock_heard : (s.resetBlock n).heard = s.heard := rfl
@[simp] theorem State.resetBlock_draws : (s.resetBlock n).draws = s.draws + 1 := rfl

end

/-! ### the schedule uses up one choice (R116) -/

@[simp] theorem State.takeTurn_status : s.takeTurn.status = s.status := by
  unfold State.takeTurn; split <;> rfl
@[simp] theorem State.takeTurn_din : s.takeTurn.din = s.din := by
  unfold State.takeTurn; split <;> rfl
@[simp] theorem State.takeTurn_dout : s.takeTurn.dout = s.dout := by
  unfold State.takeTurn; split <;> rfl
@[simp] theorem State.takeTurn_src : s.takeTurn.src = s.src := by
  unfold State.takeTurn; split <;> rfl
@[simp] theorem State.takeTurn_dst : s.takeTurn.dst = s.dst := by
  unfold State.takeTurn; split <;> rfl
@[simp] theorem State.takeTurn_len : s.takeTurn.len = s.len := by
  unfold State.takeTurn; split <;> rfl
@[simp] theorem State.takeTurn_rlen : s.takeTurn.rlen = s.rlen := by
  unfold State.takeTurn; split <;> rfl
@[simp] theorem State.takeTurn_errgrp : s.takeTurn.errgrp = s.errgrp := by
  unfold State.takeTurn; split <;> rfl
@[simp] theorem State.takeTurn_phase : s.takeTurn.phase = s.phase := by
  unfold State.takeTurn; split <;> rfl
@[simp] theorem State.takeTurn_started : s.takeTurn.started = s.started := by
  unfold State.takeTurn; split <;> rfl
@[simp] theorem State.takeTurn_g : s.takeTurn.g = s.g := by
  unfold State.takeTurn; split <;> rfl
@[simp] theorem State.takeTurn_groups : s.takeTurn.groups = s.groups := by
  unfold State.takeTurn; split <;> rfl
@[simp] theorem State.takeTurn_olen : s.takeTurn.olen = s.olen := by
  unfold State.takeTurn; split <;> rfl
@[simp] theorem State.takeTurn_undo : s.takeTurn.undo = s.undo := by
  unfold State.takeTurn; split <;> rfl
@[simp] theorem State.takeTurn_mem : s.takeTurn.mem = s.mem := by
  unfold State.takeTurn; split <;> rfl
@[simp] theorem State.takeTurn_platform : s.takeTurn.platform = s.platform := by
  unfold State.takeTurn; split <;> rfl
@[simp] theorem State.takeTurn_ops : s.takeTurn.ops = s.ops := by
  unfold State.takeTurn; split <;> rfl
@[simp] theorem State.takeTurn_heard : s.takeTurn.heard = s.heard := by
  unfold State.takeTurn; split <;> rfl
@[simp] theorem State.takeTurn_draws : s.takeTurn.draws = s.draws := by
  unfold State.takeTurn; split <;> rfl

end Sys2Proof.Machine
end

