-- ==== Sys2Proof/Laws/Memory.lean ====
section
/-! SUPPORT. Laws of memory: a read after a write, and the canonical form under every operation. -/

namespace Sys2Proof.Machine

theorem Memory.read_erase (m : List Host.Cell) (a b : Nat) :
    Memory.read (Memory.erase m a) b = if b = a then Memory.unlisted else Memory.read m b := by
  induction m with
  | nil => simp [Memory.erase, Memory.read]
  | cons c m ih =>
    obtain ⟨k, v⟩ := c
    simp only [Memory.erase] at ih ⊢
    by_cases hk : k = a
    · subst hk
      by_cases hb : b = k
      · simp_all
      · simp_all [Memory.read, Ne.symm hb]
    · by_cases hb : b = a
      · subst hb; simp_all [Memory.read]
      · simp_all [Memory.read]

theorem Memory.read_insert_self (m : List Host.Cell) (a : Nat) (b : Byte)
    (h : ∀ c ∈ m, c.1 ≠ a) : Memory.read (Memory.insert m a b) a = b := by
  induction m with
  | nil => simp [Memory.insert, Memory.read]
  | cons c m ih =>
    obtain ⟨k, v⟩ := c
    have hk : k ≠ a := h (k, v) (by simp)
    unfold Memory.insert
    split
    · simp [Memory.read]
    · simp [Memory.read, hk, ih fun c hc => h c (by simp [hc])]

theorem Memory.read_insert_other (m : List Host.Cell) (a a' : Nat) (b : Byte) (h : a' ≠ a) :
    Memory.read (Memory.insert m a b) a' = Memory.read m a' := by
  induction m with
  | nil => simp [Memory.insert, Memory.read, Ne.symm h]
  | cons c m ih =>
    obtain ⟨k, v⟩ := c
    unfold Memory.insert
    split
    · simp [Memory.read, Ne.symm h]
    · simp [Memory.read, ih]

theorem Memory.erase_ne (m : List Host.Cell) (a : Nat) : ∀ c ∈ Memory.erase m a, c.1 ≠ a := by
  intro c hc
  simpa using (List.mem_filter.1 hc).2

/-- A read after a write, at every address of every memory. -/
theorem Memory.read_write (m : List Host.Cell) (a a' : Nat) (b : Byte) :
    Memory.read (Memory.write m a b) a' = if a' = a then b else Memory.read m a' := by
  unfold Memory.write
  split
  · next h => rw [Memory.read_erase, h]
  · by_cases ha : a' = a
    · subst ha; simp [Memory.read_insert_self _ _ _ (Memory.erase_ne m a')]
    · simp [Memory.read_insert_other _ _ _ _ ha, Memory.read_erase, ha]

theorem Memory.mem_insert {m : List Host.Cell} {a : Nat} {b : Byte} {c : Host.Cell}
    (h : c ∈ Memory.insert m a b) : c = (a, b) ∨ c ∈ m := by
  induction m with
  | nil => simpa [Memory.insert] using h
  | cons d m ih =>
    obtain ⟨k, v⟩ := d
    unfold Memory.insert at h
    split at h
    · simpa using h
    · rcases List.mem_cons.1 h with h | h
      · simp [h]
      · rcases ih h with h | h <;> simp [h]

theorem Memory.pairwise_insert (m : List Host.Cell) (a : Nat) (b : Byte)
    (hm : m.Pairwise fun c d => c.1 < d.1) (ha : ∀ c ∈ m, c.1 ≠ a) :
    (Memory.insert m a b).Pairwise fun c d => c.1 < d.1 := by
  induction m with
  | nil => simp [Memory.insert]
  | cons c m ih =>
    obtain ⟨k, v⟩ := c
    obtain ⟨h1, h2⟩ := List.pairwise_cons.1 hm
    have hk : k ≠ a := ha (k, v) (by simp)
    unfold Memory.insert
    split
    · next hlt =>
      refine List.pairwise_cons.2 ⟨fun d hd => ?_, hm⟩
      rcases List.mem_cons.1 hd with rfl | hd
      · exact hlt
      · exact Nat.lt_trans hlt (h1 d hd)
    · refine List.pairwise_cons.2 ⟨fun d hd => ?_, ih h2 fun c hc => ha c (by simp [hc])⟩
      rcases Memory.mem_insert hd with rfl | hd
      · simp; omega
      · exact h1 d hd

/-- A write at an address of the 32-bit space keeps the canonical form. -/
theorem Memory.wf_write {m : List Host.Cell} {a : Nat} (b : Byte) (hm : Memory.wf m)
    (ha : a < 2 ^ 32) : Memory.wf (Memory.write m a b) := by
  have he : Memory.wf (Memory.erase m a) :=
    ⟨hm.1.filter _, fun c hc => hm.2 c (List.mem_filter.1 hc).1⟩
  unfold Memory.write
  split
  · exact he
  · next hb =>
    refine ⟨Memory.pairwise_insert _ _ _ he.1 (Memory.erase_ne m a), fun c hc => ?_⟩
    rcases Memory.mem_insert hc with rfl | hc
    · exact ⟨ha, hb⟩
    · exact he.2 c hc

/-- Taking writes back keeps the canonical form. -/
theorem Memory.wf_undoWrites {m : List Host.Cell} (n : Nat) {log : List Host.Cell}
    (hm : Memory.wf m) (hl : ∀ c ∈ log, c.1 < 2 ^ 32) : Memory.wf (undoWrites m n log) := by
  induction n generalizing m log with
  | zero => simpa [undoWrites] using hm
  | succ n ih =>
    cases log with
    | nil => simpa [undoWrites] using hm
    | cons c log =>
      obtain ⟨a, b⟩ := c
      exact ih (Memory.wf_write b hm (hl (a, b) (by simp))) fun c hc => hl c (by simp [hc])

theorem Memory.wf_reset : Memory.wf State.reset.mem := by decide

/-- Two canonical memories that read alike at every address are the same list. -/
theorem Memory.eq_of_read {m m' : List Host.Cell} (hm : Memory.wf m) (hm' : Memory.wf m')
    (h : ∀ a, Memory.read m a = Memory.read m' a) : m = m' := by
  have lookup_mem : ∀ {l : List Host.Cell} {c : Host.Cell}, Memory.wf l → c ∈ l →
      Memory.read l c.1 = c.2 := by
    intro l c hl hc
    induction l with
    | nil => simp at hc
    | cons d l ih =>
      obtain ⟨h1, h2⟩ := List.pairwise_cons.1 hl.1
      rcases List.mem_cons.1 hc with rfl | hcl
      · simp [Memory.read]
      · have hlt := h1 c hcl
        have hne : d.1 ≠ c.1 := by omega
        have hrest := ih ⟨h2, fun e he => hl.2 e (by simp [he])⟩ hcl
        obtain ⟨k, v⟩ := d
        simp only [Memory.read]
        rw [if_neg hne]
        exact hrest
  have mem_lookup : ∀ {l : List Host.Cell} {a : Nat}, Memory.read l a ≠ Memory.unlisted →
      (a, Memory.read l a) ∈ l := by
    intro l a hl
    induction l with
    | nil => simp [Memory.read] at hl
    | cons d l ih =>
      obtain ⟨k, v⟩ := d
      simp only [Memory.read] at hl ⊢
      by_cases hk : k = a
      · subst hk; simp
      · simp only [if_neg hk] at hl ⊢; simp [ih hl]
  have sub : ∀ {l l' : List Host.Cell}, Memory.wf l →
      (∀ a, Memory.read l a = Memory.read l' a) → ∀ c ∈ l, c ∈ l' := by
    intro l l' hl hr c hc
    have hv := lookup_mem hl hc
    have hne : Memory.read l' c.1 ≠ Memory.unlisted := by
      rw [← hr, hv]; exact (hl.2 c hc).2
    have := mem_lookup hne
    rwa [← hr, hv] at this
  have nodup : ∀ {l : List Host.Cell}, Memory.wf l → l.Nodup := by
    intro l hl
    refine hl.1.imp fun {c d} hcd heq => ?_
    subst heq; exact Nat.lt_irrefl _ hcd
  have hperm : m.Perm m' := (List.perm_ext_iff_of_nodup (nodup hm) (nodup hm')).2 fun c =>
    ⟨sub hm h c, sub hm' (fun a => (h a).symm) c⟩
  refine hperm.eq_of_pairwise (le := fun c d : Host.Cell => c.1 < d.1) ?_ hm.1 hm'.1
  intro c d _ _ h1 h2
  omega

end Sys2Proof.Machine
end

