-- ==== Sys2Proof/Laws/Flags.lean ====
section
/-! SUPPORT. Laws of the STATUS word: each field of each word that is written, and the words as
numbers (R18). -/

namespace Sys2Proof.Machine

section
variable (busy err ign : Bool) (code : BitVec 4) (count : BitVec 3)

/-- Bit `i` of the STATUS word, field by field (R18). -/
theorem statusWord_getLsbD (i : Nat) :
    (statusWord busy err ign code count).getLsbD i =
      if i < 1 then (BitVec.ofBool busy).getLsbD i
      else if i - 1 < 1 then (BitVec.ofBool err).getLsbD (i - 1)
      else if i - 2 < 1 then (BitVec.ofBool ign).getLsbD (i - 2)
      else if i - 3 < 1 then false
      else if i - 4 < 4 then code.getLsbD (i - 4)
      else if i - 8 < 3 then count.getLsbD (i - 8)
      else false := by
  have app : ∀ {n m k : Nat} (h : n + m = k) (x : BitVec n) (y : BitVec m) (i : Nat),
      ((x ++ y).cast h).getLsbD i = if i < m then y.getLsbD i else x.getLsbD (i - m) := by
    intro n m k h x y i; subst h; simp [BitVec.getLsbD_append]
  refine (app (k := 32) rfl _ _ i).trans ?_
  refine if_congr Iff.rfl rfl ?_
  refine (app (k := 31) rfl _ _ _).trans ?_
  refine if_congr Iff.rfl rfl ?_
  refine (app (k := 30) rfl _ _ _).trans ?_
  refine if_congr Iff.rfl rfl ?_
  refine (app (k := 29) rfl _ _ _).trans ?_
  refine if_congr Iff.rfl (by simp) ?_
  refine (app (k := 28) rfl _ _ _).trans ?_
  refine if_congr Iff.rfl rfl ?_
  refine (app (k := 24) rfl _ _ _).trans ?_
  refine if_congr Iff.rfl rfl (by simp)

@[simp] theorem statusBusy_statusWord : statusBusy (statusWord busy err ign code count) = busy := by
  simp only [statusBusy, statusWord_getLsbD]; simp

@[simp] theorem statusErr_statusWord : statusErr (statusWord busy err ign code count) = err := by
  simp only [statusErr, statusWord_getLsbD]; simp

@[simp] theorem statusIgn_statusWord : statusIgn (statusWord busy err ign code count) = ign := by
  simp only [statusIgn, statusWord_getLsbD]; simp

@[simp] theorem statusCode_statusWord : statusCode (statusWord busy err ign code count) = code := by
  refine BitVec.eq_of_getLsbD_eq fun i hi => ?_
  have hi : i = 0 ∨ i = 1 ∨ i = 2 ∨ i = 3 := by omega
  rcases hi with rfl | rfl | rfl | rfl <;>
    (simp only [statusCode, BitVec.getLsbD_extractLsb', statusWord_getLsbD]; simp)

@[simp] theorem statusCount_statusWord :
    statusCount (statusWord busy err ign code count) = count := by
  refine BitVec.eq_of_getLsbD_eq fun i hi => ?_
  have hi : i = 0 ∨ i = 1 ∨ i = 2 := by omega
  rcases hi with rfl | rfl | rfl <;>
    (simp only [statusCount, BitVec.getLsbD_extractLsb', statusWord_getLsbD]; simp)

/-- The reserved bits of a written STATUS word are 0 (R23). -/
theorem statusWord_bit3 : (statusWord busy err ign code count).getLsbD 3 = false := by
  rw [statusWord_getLsbD]; simp

/-- The same in simp's normal form. -/
@[simp] theorem statusWord_getElem_three :
    (statusWord busy err ign code count)[3] = false :=
  statusWord_bit3 busy err ign code count

@[simp] theorem statusWord_high :
    (statusWord busy err ign code count).extractLsb' 11 21 = 0 := by
  refine BitVec.eq_of_getLsbD_eq fun i hi => ?_
  simp only [BitVec.getLsbD_extractLsb', statusWord_getLsbD]
  split_ifs <;> first | omega | simp

end

section
variable (w : Word)

@[simp] theorem statusBusy_withIgn : statusBusy (statusWithIgn w) = statusBusy w := by
  simp [statusBusy, statusWithIgn]

@[simp] theorem statusErr_withIgn : statusErr (statusWithIgn w) = statusErr w := by
  simp [statusErr, statusWithIgn]

@[simp] theorem statusIgn_withIgn : statusIgn (statusWithIgn w) = true := by
  simp [statusIgn, statusWithIgn]

@[simp] theorem statusCode_withIgn : statusCode (statusWithIgn w) = statusCode w := by
  refine BitVec.eq_of_getLsbD_eq fun i hi => ?_
  have hi : i = 0 ∨ i = 1 ∨ i = 2 ∨ i = 3 := by omega
  rcases hi with rfl | rfl | rfl | rfl <;> simp [statusCode, statusWithIgn]

@[simp] theorem statusCount_withIgn : statusCount (statusWithIgn w) = statusCount w := by
  refine BitVec.eq_of_getLsbD_eq fun i hi => ?_
  have hi : i = 0 ∨ i = 1 ∨ i = 2 := by omega
  rcases hi with rfl | rfl | rfl <;> simp [statusCount, statusWithIgn]

theorem withIgn_bit3 : (statusWithIgn w).getLsbD 3 = w.getLsbD 3 := by
  simp [statusWithIgn]

@[simp] theorem withIgn_high :
    (statusWithIgn w).extractLsb' 11 21 = w.extractLsb' 11 21 := by
  refine BitVec.eq_of_getLsbD_eq fun i hi => ?_
  have h : (0x00000004 : BitVec 32).getLsbD (11 + i) = false := by
    have : ∀ j : Fin 21, (0x00000004 : BitVec 32).getLsbD (11 + j.val) = false := by decide
    exact this ⟨i, hi⟩
  simp only [statusWithIgn, BitVec.getLsbD_extractLsb', BitVec.getLsbD_or, h, Bool.or_false]

end

/-- The words of R58, R73 and R92 as numbers, and those of the decode failures. -/
theorem statusComplete_four : statusComplete 4 = 0x00000400 := by decide
theorem statusComplete_three : statusComplete 3 = 0x00000300 := by decide
theorem statusComplete_two : statusComplete 2 = 0x00000200 := by decide
theorem statusComplete_one : statusComplete 1 = 0x00000100 := by decide
theorem statusFail_illegalCmd : statusFail .illegalCmd = 0x00000012 := by decide
theorem statusFail_invalidSymbol : statusFail .invalidSymbol = 0x00000032 := by decide
theorem statusFail_misplacedPad : statusFail .misplacedPad = 0x00000042 := by decide
theorem statusRunning_word : statusRunning = 0x00000001 := by decide

@[simp] theorem statusBusy_finish (w : Word) (e : Bool) (c : ErrCode) :
    statusBusy (statusFinish w e c) = false := by simp [statusFinish]

@[simp] theorem statusIgn_finish (w : Word) (e : Bool) (c : ErrCode) :
    statusIgn (statusFinish w e c) = statusIgn w := by simp [statusFinish]

@[simp] theorem statusErr_finish (w : Word) (e : Bool) (c : ErrCode) :
    statusErr (statusFinish w e c) = e := by simp [statusFinish]

@[simp] theorem statusCode_finish (w : Word) (e : Bool) (c : ErrCode) :
    statusCode (statusFinish w e c) = c.bits := by simp [statusFinish]

@[simp] theorem statusCount_finish (w : Word) (e : Bool) (c : ErrCode) :
    statusCount (statusFinish w e c) = 0 := by simp [statusFinish]

section
variable (s : State)

@[simp] theorem State.complete_busy (d : Word) (n : BitVec 3) : (s.complete d n).busy = false := by
  simp [State.busy, statusComplete]

@[simp] theorem State.fail_busy (e : ErrCode) : (s.fail e).busy = false := by
  simp [State.busy, statusFail]

@[simp] theorem State.illegal_busy : s.illegal.busy = false := by simp [State.busy, statusFail]

@[simp] theorem State.startBuffer_busy (p : Phase) : (s.startBuffer p).busy = true := by
  simp [State.busy, statusRunning]

@[simp] theorem State.finish_busy (e : Bool) (c : ErrCode) (r grp : Word) :
    (s.finish e c r grp).busy = false := by
  simp [State.busy]

@[simp] theorem State.dropWrite_busy : s.dropWrite.busy = s.busy := by simp [State.busy]

@[simp] theorem State.answer_busy (r : Answer) : (s.answer r).busy = s.busy := rfl
@[simp] theorem State.withOps_busy (o : List HostOp) : (s.withOps o).busy = s.busy := rfl
@[simp] theorem State.putByte_busy (a : Word) (b : Byte) : (s.putByte a b).busy = s.busy := rfl
@[simp] theorem State.engineWrite_busy (a : Word) (b : Byte) :
    (s.engineWrite a b).busy = s.busy := rfl
@[simp] theorem State.nextGroup_busy (k : Nat) : (s.nextGroup k).busy = s.busy := rfl
@[simp] theorem State.begin_busy (k : Nat) : (s.begin k).busy = s.busy := rfl
@[simp] theorem State.resetBlock_busy (n : Nat) : (s.resetBlock n).busy = false := by
  simp [State.busy, statusBusy]
@[simp] theorem State.takeTurn_busy : s.takeTurn.busy = s.busy := by simp [State.busy]

end

end Sys2Proof.Machine
end

