-- ==== Sys2Proof/Laws/Ops.lean ====
section
/-! SUPPORT. Laws of the shared operations: what a CMD write does with a command, what a read and a
write of the memory port do, and what the register file keeps. -/

namespace Sys2Proof.Machine

section
variable (s : State)

/-! ### Acceptance (R57) -/

theorem State.accept_idle {s : State} (h : s.busy = false) (f : State → State) :
    s.accept f = .next (f s) := by simp [State.accept, h]

theorem State.accept_busy {s : State} (h : s.busy = true) (f : State → State) :
    s.accept f = .next s.dropWrite := by simp [State.accept, h]

/-- Everything a CMD write can do: it is dropped, or it has the command's effect. -/
theorem State.accept_cases {s t : State} {f : State → State} (h : s.accept f = .next t) :
    (s.busy = true ∧ t = s.dropWrite) ∨ (s.busy = false ∧ t = f s) := by
  cases hb : s.busy
  · rw [State.accept_idle hb] at h; injection h with h; exact .inr ⟨rfl, h.symm⟩
  · rw [State.accept_busy hb] at h; injection h with h; exact .inl ⟨rfl, h.symm⟩

theorem State.accept_next (f : State → State) : ∃ t, s.accept f = .next t := ⟨_, rfl⟩

/-! ### Memory -/

theorem State.byteAt_of_mem {s t : State} (h : t.mem = s.mem) (a : Word) :
    t.byteAt a = s.byteAt a := by simp [State.byteAt, h]

theorem State.byteAt_putByte (a a' : Word) (b : Byte) :
    (s.putByte a b).byteAt a' = if a' = a then b else s.byteAt a' := by
  rw [State.byteAt, State.putByte_mem, Memory.read_write]
  exact if_congr BitVec.toNat_inj rfl rfl

theorem State.byteAt_engineWrite (a a' : Word) (b : Byte) :
    (s.engineWrite a b).byteAt a' = if a' = a then b else s.byteAt a' := by
  rw [State.byteAt, State.engineWrite_mem, Memory.read_write]
  exact if_congr BitVec.toNat_inj rfl rfl

theorem State.memRead_eq_some {s : State} {a : Word} {b : Byte} :
    s.memRead a = some b ↔ s.platform.memOk a .read = true ∧ b = s.byteAt a := by
  unfold State.memRead
  split
  · next h => exact ⟨fun e => ⟨h, (Option.some.inj e).symm⟩, fun e => congrArg some e.2.symm⟩
  · next h => exact ⟨fun e => (by cases e), fun e => absurd e.1 h⟩

theorem State.memWrite_eq_some {s t : State} {a : Word} {b : Byte} :
    s.memWrite a b = some t ↔ s.platform.memOk a .write = true ∧ t = s.engineWrite a b := by
  unfold State.memWrite
  split
  · next h => exact ⟨fun e => ⟨h, (Option.some.inj e).symm⟩, fun e => congrArg some e.2.symm⟩
  · next h => exact ⟨fun e => (by cases e), fun e => absurd e.1 h⟩

theorem Platform.memOk_of_denied {p : Platform} (h : p.denied = []) (a : Word) (k : AccessKind) :
    p.memOk a k = true := by simp [Platform.memOk, h]

/-! ### The register file -/

/-- Everything a write to a register other than CMD can do (R16). -/
theorem State.writeReg_cases (r : Reg) (v : Word) :
    s.writeReg r v = s ∨ (s.busy = true ∧ s.writeReg r v = s.dropWrite) ∨
      (s.busy = false ∧
        (s.writeReg r v = { s with din := v } ∨ s.writeReg r v = { s with src := v } ∨
          s.writeReg r v = { s with dst := v } ∨ s.writeReg r v = { s with len := v })) := by
  cases r <;> simp only [State.writeReg, true_or] <;> cases s.busy <;> simp

theorem regAt_offset (r : Reg) : regAt r.offset = some r := by cases r <;> rfl

@[simp] theorem State.answer_readReg (a : Answer) (r : Reg) :
    (s.answer a).readReg r = s.readReg r := by cases r <;> rfl

end

end Sys2Proof.Machine
end

