-- ==== Sys2Proof/Laws/Group.lean ====
section
/-! SUPPORT. Laws of the group transforms: the number of bytes a group decodes to, and the codes a
group can fail with (R78, R79). -/

namespace Sys2Proof.Machine

theorem Quad.bytes_length (q : Quad) : q.bytes.length = 4 := rfl

theorem packBytes_length (v0 v1 v2 v3 : Sextet) : (packBytes v0 v1 v2 v3).length = 3 := rfl

/-- A position that is not VALID gives one of the two symbol codes (R78). -/
theorem firstFailure_code {cs : List SymbolClass} {e : ErrCode} (h : firstFailure cs = some e) :
    e = .invalidSymbol ∨ e = .misplacedPad := by
  induction cs with
  | nil => simp [firstFailure] at h
  | cons c cs ih => cases c <;> simp_all [firstFailure]

theorem checkTail_count {c2 c3 : SymbolClass} {k : Nat} (h : checkTail c2 c3 = .ok k) :
    1 ≤ k ∧ k ≤ 3 := by
  cases c2 <;> cases c3 <;> simp [checkTail] at h <;> omega

theorem checkTail_code {c2 c3 : SymbolClass} {e : ErrCode} (h : checkTail c2 c3 = .error e) :
    e = .invalidSymbol ∨ e = .misplacedPad := by
  cases c2 <;> cases c3 <;> simp_all [checkTail]

/-- A group that is accepted yields 1 to 3 bytes, 3 when it is not the final one (R78, R79). -/
theorem checkGroup_count {final : Bool} {c0 c1 c2 c3 : SymbolClass} {k : Nat}
    (h : checkGroup final c0 c1 c2 c3 = .ok k) : 1 ≤ k ∧ k ≤ 3 ∧ (final = false → k = 3) := by
  cases final
  · simp only [checkGroup, checkNonFinal, Bool.false_eq_true, if_false] at h
    split at h
    · cases h
    · injection h with h; omega
  · simp only [checkGroup, checkFinal, if_true] at h
    split at h
    · cases h
    · have := checkTail_count h; simp; omega

/-- A group fails with INVALID_SYMBOL or MISPLACED_PAD (R78, R79). -/
theorem checkGroup_code {final : Bool} {c0 c1 c2 c3 : SymbolClass} {e : ErrCode}
    (h : checkGroup final c0 c1 c2 c3 = .error e) : e = .invalidSymbol ∨ e = .misplacedPad := by
  cases final
  · simp only [checkGroup, checkNonFinal, Bool.false_eq_true, if_false] at h
    split at h
    · next hf => injection h with h; subst h; exact firstFailure_code hf
    · cases h
  · simp only [checkGroup, checkFinal, if_true] at h
    split at h
    · next hf => injection h with h; subst h; exact firstFailure_code hf
    · exact checkTail_code h

theorem decGroup_length {final : Bool} {q : Quad} {bs : List Byte}
    (h : decGroup final q = .ok bs) :
    1 ≤ bs.length ∧ bs.length ≤ 3 ∧ (final = false → bs.length = 3) := by
  unfold decGroup at h
  split at h
  · cases h
  · next k hk =>
    injection h with h
    subst h
    obtain ⟨h1, h2, h3⟩ := checkGroup_count hk
    simp only [List.length_take, packBytes_length]
    exact ⟨by omega, by omega, fun hf => by have := h3 hf; omega⟩

theorem decGroup_code {final : Bool} {q : Quad} {e : ErrCode} (h : decGroup final q = .error e) :
    e = .invalidSymbol ∨ e = .misplacedPad := by
  unfold decGroup at h
  split at h
  · next hk => injection h with h; subst h; exact checkGroup_code hk
  · cases h

/-! ### The four slices of the 24-bit group word (R67) -/

theorem getLsbD_cast_append {n m k : Nat} (h : n + m = k) (x : BitVec n) (y : BitVec m) (i : Nat) :
    ((x ++ y).cast h).getLsbD i = if i < m then y.getLsbD i else x.getLsbD (i - m) := by
  subst h; simp [BitVec.getLsbD_append]

section
variable (a b c : Byte)

theorem group_getLsbD (i : Nat) :
    (a ++ b ++ c : BitVec 24).getLsbD i =
      if i < 8 then c.getLsbD i else if i - 8 < 8 then b.getLsbD (i - 8) else a.getLsbD (i - 16) := by
  refine (getLsbD_cast_append (k := 24) rfl _ _ i).trans ?_
  refine if_congr Iff.rfl rfl ?_
  exact getLsbD_cast_append (k := 16) rfl _ _ _

theorem group_slice0 : (a ++ b ++ c : BitVec 24).extractLsb' 18 6 = a.extractLsb' 2 6 := by
  refine BitVec.eq_of_getLsbD_eq fun i hi => ?_
  rw [BitVec.getLsbD_extractLsb', BitVec.getLsbD_extractLsb', group_getLsbD, if_neg (by omega),
    if_neg (by omega)]
  congr 2; omega

theorem group_slice1 :
    (a ++ b ++ c : BitVec 24).extractLsb' 12 6 = a.extractLsb' 0 2 ++ b.extractLsb' 4 4 := by
  refine BitVec.eq_of_getLsbD_eq fun i hi => ?_
  rw [BitVec.getLsbD_extractLsb', group_getLsbD, if_neg (by omega)]
  refine Eq.trans ?_
    (getLsbD_cast_append (k := 6) rfl (a.extractLsb' 0 2) (b.extractLsb' 4 4) i).symm
  by_cases h : i < 4
  · rw [if_pos (by omega), if_pos h, BitVec.getLsbD_extractLsb']
    simp [h, hi]; congr 1; omega
  · rw [if_neg (by omega), if_neg h, BitVec.getLsbD_extractLsb']
    have : i - 4 < 2 := by omega
    simp [this, hi]; congr 1; omega

theorem group_slice2 :
    (a ++ b ++ c : BitVec 24).extractLsb' 6 6 = b.extractLsb' 0 4 ++ c.extractLsb' 6 2 := by
  refine BitVec.eq_of_getLsbD_eq fun i hi => ?_
  rw [BitVec.getLsbD_extractLsb', group_getLsbD]
  refine Eq.trans ?_
    (getLsbD_cast_append (k := 6) rfl (b.extractLsb' 0 4) (c.extractLsb' 6 2) i).symm
  by_cases h : i < 2
  · rw [if_pos (by omega), if_pos h, BitVec.getLsbD_extractLsb']
    simp [h, hi]
  · rw [if_neg (by omega), if_neg h, if_pos (by omega), BitVec.getLsbD_extractLsb']
    have : i - 2 < 4 := by omega
    simp [this, hi]; congr 1; omega

theorem group_slice3 : (a ++ b ++ c : BitVec 24).extractLsb' 0 6 = c.extractLsb' 0 6 := by
  refine BitVec.eq_of_getLsbD_eq fun i hi => ?_
  rw [BitVec.getLsbD_extractLsb', BitVec.getLsbD_extractLsb', group_getLsbD, if_pos (by omega)]

end

end Sys2Proof.Machine
end

