-- ==== Sys2Proof/Laws/Engine.lean ====
section
/-! SUPPORT. Laws of the engine: what its reads answer, what its writes change, and what the end of
a step can be. -/

namespace Sys2Proof.Machine

/-! ### Reads -/

theorem State.readBytes_length {s : State} {n : Nat} {a : Word} {bs : List Byte}
    (h : s.readBytes n a = some bs) : bs.length = n := by
  induction n generalizing a bs with
  | zero => simp [State.readBytes] at h; simp [← h]
  | succ n ih =>
    simp only [State.readBytes] at h
    split at h
    · cases h
    · split at h
      · cases h
      · next hr => injection h with h; subst h; simp [ih hr]

/-- The bytes read are those of memory, in order (R37, R47). -/
theorem State.readBytes_eq_bytesAt {s : State} {n : Nat} {a : Word} {bs : List Byte}
    (h : s.readBytes n a = some bs) : bs = s.bytesAt a n := by
  induction n generalizing a bs with
  | zero => simp [State.readBytes] at h; simp [← h, State.bytesAt]
  | succ n ih =>
    simp only [State.readBytes] at h
    split at h
    · cases h
    · next b hb =>
      split at h
      · cases h
      · next bs' hr =>
        injection h with h; subst h
        rw [State.bytesAt, ← ih hr, (State.memRead_eq_some.1 hb).2]

theorem State.readBytes_noBusErrors {s : State} (hs : s.NoBusErrors) (n : Nat) (a : Word) :
    s.readBytes n a = some (s.bytesAt a n) := by
  induction n generalizing a with
  | zero => rfl
  | succ n ih =>
    have hb : s.memRead a = some (s.byteAt a) :=
      State.memRead_eq_some.2 ⟨Platform.memOk_of_denied hs _ _, rfl⟩
    simp [State.readBytes, hb, ih, State.bytesAt]

theorem State.bytesAt_length (s : State) (a : Word) (n : Nat) : (s.bytesAt a n).length = n := by
  induction n generalizing a with
  | zero => rfl
  | succ n ih => simp [State.bytesAt, ih]

theorem State.bytesAt_getElem? (s : State) (a : Word) {n i : Nat} (h : i < n) :
    (s.bytesAt a n)[i]? = some (s.byteAt (a + BitVec.ofNat 32 i)) := by
  induction n generalizing a i with
  | zero => omega
  | succ n ih =>
    cases i with
    | zero => simp [State.bytesAt]
    | succ i =>
      rw [State.bytesAt, List.getElem?_cons_succ, ih _ (by omega), BitVec.add_assoc]
      congr 3
      apply BitVec.eq_of_toNat_eq
      simp [Nat.add_comm]

/-! ### Writes -/

/-- Writes of the memory port change memory and the write sequence alone. -/
theorem State.writeBytes_frame (s : State) (a : Word) (bs : List Byte) :
    (s.writeBytes a bs).1 =
      { s with mem := (s.writeBytes a bs).1.mem, undo := (s.writeBytes a bs).1.undo } := by
  induction bs generalizing s a with
  | nil => rfl
  | cons b bs ih =>
    simp only [State.writeBytes]
    split
    · rfl
    · next t ht =>
      rw [(State.memWrite_eq_some.1 ht).2]
      exact ih _ _

section
variable (s : State) (a : Word) (bs : List Byte)

@[simp] theorem State.writeBytes_status : (s.writeBytes a bs).1.status = s.status := by
  rw [State.writeBytes_frame]
@[simp] theorem State.writeBytes_din : (s.writeBytes a bs).1.din = s.din := by
  rw [State.writeBytes_frame]
@[simp] theorem State.writeBytes_dout : (s.writeBytes a bs).1.dout = s.dout := by
  rw [State.writeBytes_frame]
@[simp] theorem State.writeBytes_src : (s.writeBytes a bs).1.src = s.src := by
  rw [State.writeBytes_frame]
@[simp] theorem State.writeBytes_dst : (s.writeBytes a bs).1.dst = s.dst := by
  rw [State.writeBytes_frame]
@[simp] theorem State.writeBytes_len : (s.writeBytes a bs).1.len = s.len := by
  rw [State.writeBytes_frame]
@[simp] theorem State.writeBytes_rlen : (s.writeBytes a bs).1.rlen = s.rlen := by
  rw [State.writeBytes_frame]
@[simp] theorem State.writeBytes_errgrp : (s.writeBytes a bs).1.errgrp = s.errgrp := by
  rw [State.writeBytes_frame]
@[simp] theorem State.writeBytes_phase : (s.writeBytes a bs).1.phase = s.phase := by
  rw [State.writeBytes_frame]
@[simp] theorem State.writeBytes_started : (s.writeBytes a bs).1.started = s.started := by
  rw [State.writeBytes_frame]
@[simp] theorem State.writeBytes_g : (s.writeBytes a bs).1.g = s.g := by
  rw [State.writeBytes_frame]
@[simp] theorem State.writeBytes_groups : (s.writeBytes a bs).1.groups = s.groups := by
  rw [State.writeBytes_frame]
@[simp] theorem State.writeBytes_olen : (s.writeBytes a bs).1.olen = s.olen := by
  rw [State.writeBytes_frame]
@[simp] theorem State.writeBytes_platform : (s.writeBytes a bs).1.platform = s.platform := by
  rw [State.writeBytes_frame]
@[simp] theorem State.writeBytes_ops : (s.writeBytes a bs).1.ops = s.ops := by
  rw [State.writeBytes_frame]
@[simp] theorem State.writeBytes_sched : (s.writeBytes a bs).1.sched = s.sched := by
  rw [State.writeBytes_frame]
@[simp] theorem State.writeBytes_heard : (s.writeBytes a bs).1.heard = s.heard := by
  rw [State.writeBytes_frame]
@[simp] theorem State.writeBytes_draws : (s.writeBytes a bs).1.draws = s.draws := by
  rw [State.writeBytes_frame]
@[simp] theorem State.writeBytes_busy : (s.writeBytes a bs).1.busy = s.busy := by
  simp [State.busy]

end

theorem State.writeBytes_noBusErrors {s : State} (hs : s.NoBusErrors) (a : Word) (bs : List Byte) :
    (s.writeBytes a bs).2 = true := by
  induction bs generalizing s a with
  | nil => rfl
  | cons b bs ih =>
    have hb : s.memWrite a b = some (s.engineWrite a b) :=
      State.memWrite_eq_some.2 ⟨Platform.memOk_of_denied hs _ _, rfl⟩
    simp only [State.writeBytes, hb]
    exact ih (s := s.engineWrite a b) hs _

/-- When every write is completed, the write sequence has grown by as many (R108). -/
theorem State.writeBytes_undo_length {s : State} {a : Word} {bs : List Byte}
    (h : (s.writeBytes a bs).2 = true) :
    (s.writeBytes a bs).1.undo.length = s.undo.length + bs.length := by
  induction bs generalizing s a with
  | nil => rfl
  | cons b bs ih =>
    simp only [State.writeBytes] at h ⊢
    split at h
    · cases h
    · next t ht =>
      rw [ih h, (State.memWrite_eq_some.1 ht).2]
      simp; omega

/-- Writes only lengthen the write sequence, up to a bus error too (R94, R108). -/
theorem State.writeBytes_undo_le (s : State) (a : Word) (bs : List Byte) :
    s.undo.length ≤ (s.writeBytes a bs).1.undo.length := by
  induction bs generalizing s a with
  | nil => exact Nat.le_refl _
  | cons b bs ih =>
    simp only [State.writeBytes]
    split
    · exact Nat.le_refl _
    · next t ht =>
      have := ih t (a + 1)
      rw [(State.memWrite_eq_some.1 ht).2] at this ⊢
      simp only [State.engineWrite_undo, List.length_cons] at this
      omega

/-- A byte outside the range written keeps its value (R36, R41). -/
theorem State.byteAt_writeBytes_outside (s : State) (a a' : Word) (bs : List Byte)
    (hn : bs.length ≤ 2 ^ 32) (h : inRange a' a bs.length = false) :
    (s.writeBytes a bs).1.byteAt a' = s.byteAt a' := by
  induction bs generalizing s a with
  | nil => rfl
  | cons b bs ih =>
    simp only [inRange, decide_eq_false_iff_not, List.length_cons] at h hn
    have hne : a' ≠ a := by rintro rfl; simp at h
    simp only [State.writeBytes]
    split
    · rfl
    · next t ht =>
      rw [(State.memWrite_eq_some.1 ht).2, ih _ _ (by omega), State.byteAt_engineWrite,
        if_neg hne]
      simp only [inRange, decide_eq_false_iff_not]
      have h1 : (a' - (a + 1)).toNat = ((a' - a).toNat + (2 ^ 32 - 1)) % 2 ^ 32 := by
        rw [← BitVec.sub_sub, BitVec.toNat_sub]
        simp [Nat.add_comm]
      have h2 := (a' - a).isLt
      omega

/-- Byte `i` of the range holds byte `i` of what was written (R37). -/
theorem State.byteAt_writeBytes_inside {s : State} {a : Word} {bs : List Byte} {i : Nat}
    (hok : (s.writeBytes a bs).2 = true) (hn : bs.length ≤ 2 ^ 32) (hi : i < bs.length) :
    (s.writeBytes a bs).1.byteAt (a + BitVec.ofNat 32 i) = bs[i] := by
  induction bs generalizing s a i with
  | nil => simp at hi
  | cons b bs ih =>
    simp only [State.writeBytes] at hok ⊢
    split at hok
    · cases hok
    · next t ht =>
      simp only [List.length_cons] at hn hi
      cases i with
      | zero =>
        rw [State.byteAt_writeBytes_outside _ _ _ _ (by omega), (State.memWrite_eq_some.1 ht).2,
          State.byteAt_engineWrite]
        · simp
        · simp only [inRange, decide_eq_false_iff_not]
          have : (a + BitVec.ofNat 32 0 - (a + 1)).toNat = 2 ^ 32 - 1 := by
            have : a + BitVec.ofNat 32 0 - (a + 1) = BitVec.ofNat 32 (2 ^ 32 - 1) := by
              rw [← BitVec.sub_sub]; simp
            rw [this]; rfl
          omega
      | succ i =>
        have := ih hok (by omega) (i := i) (by omega)
        rw [List.getElem_cons_succ, ← this, BitVec.add_assoc]
        congr 2
        apply BitVec.eq_of_toNat_eq
        simp [Nat.add_comm]

/-- Writes keep memory canonical (R35), and the addresses of the write sequence inside the space. -/
theorem State.writeBytes_canonical {s : State} (h : s.MemoryCanonical) (a : Word)
    (bs : List Byte) : (s.writeBytes a bs).1.MemoryCanonical := by
  induction bs generalizing s a with
  | nil => exact h
  | cons b bs ih =>
    simp only [State.writeBytes]
    split
    · exact h
    · next t ht =>
      rw [(State.memWrite_eq_some.1 ht).2]
      refine ih ⟨Memory.wf_write _ h.1 a.isLt, fun c hc => ?_⟩ _
      rcases List.mem_cons.1 hc with rfl | hc
      · exact a.isLt
      · exact h.2 c hc

/-! ### The end of a step -/

section
variable (s : State) (m : EngineMove)

@[simp] theorem State.endStep_begin (k : Nat) : s.endStep (.begin k) = s.begin k := rfl
@[simp] theorem State.endStep_next (k : Nat) : s.endStep (.next k) = s.nextGroup k := rfl
@[simp] theorem State.endStep_finish (e : Bool) (c : ErrCode) (r grp : Word) :
    s.endStep (.finish e c r grp) = s.finish e c r grp := rfl

/-- The end of a step writes no memory (R73, R74, R87). -/
@[simp] theorem State.endStep_mem (e : StepEnd) : (s.endStep e).mem = s.mem := by
  cases e <;> rfl

@[simp] theorem State.performMove_quiet (e : StepEnd) : s.performMove (.quiet e) = s.endStep e := rfl
@[simp] theorem State.writeMove_quiet (e : StepEnd) : s.writeMove (.quiet e) = s := rfl

/-- A move's writes change memory and the write sequence alone. -/
theorem State.writeMove_frame :
    s.writeMove m = { s with mem := (s.writeMove m).mem, undo := (s.writeMove m).undo } :=
  State.writeBytes_frame _ _ _

end

/-- A move whose writes are completed goes on as it says (R73, R87). -/
theorem State.performMove_done {s : State} {m : EngineMove}
    (h : (s.writeBytes m.target m.bytes).2 = true) :
    s.performMove m = (s.writeMove m).endStep m.goOn := by simp [State.performMove, h]

/-- A move with a bus error on a write finishes with BUS_ERROR (R94). -/
theorem State.performMove_busError {s : State} {m : EngineMove}
    (h : (s.writeBytes m.target m.bytes).2 = false) :
    s.performMove m = (s.writeMove m).finish true .busError 0 m.grp := by simp [State.performMove, h]

/-- Everything a move can end in (R94). -/
theorem State.performMove_cases (s : State) (m : EngineMove) :
    ((s.writeBytes m.target m.bytes).2 = true ∧
        s.performMove m = (s.writeMove m).endStep m.goOn) ∨
      ((s.writeBytes m.target m.bytes).2 = false ∧
        s.performMove m = (s.writeMove m).finish true .busError 0 m.grp) := by
  cases h : (s.writeBytes m.target m.bytes).2
  · exact .inr ⟨rfl, State.performMove_busError h⟩
  · exact .inl ⟨rfl, State.performMove_done h⟩

/-! ### Steps -/

theorem State.engineMove_idle {s : State} (h : s.phase = .idle) : s.engineMove = none := by
  simp [State.engineMove, h]

theorem State.engineStep_enc {s : State} (h : s.phase = .enc) :
    s.engineStep = s.performMove s.encodeMove := by simp [State.engineStep, State.engineMove, h]

theorem State.engineStep_dec {s : State} (h : s.phase = .dec) :
    s.engineStep = s.performMove s.decodeMove := by simp [State.engineStep, State.engineMove, h]

theorem State.engineStep_idle {s : State} (h : s.phase = .idle) : s.engineStep = s := by
  simp [State.engineStep, State.engineMove_idle h]

theorem State.engineSteps_idle {s : State} (h : s.phase = .idle) (n : Nat) :
    s.engineSteps n = s := by
  induction n with
  | zero => rfl
  | succ n ih => rw [State.engineSteps, State.engineStep_idle h, ih]

theorem State.engineSteps_add (s : State) (m n : Nat) :
    s.engineSteps (m + n) = (s.engineSteps m).engineSteps n := by
  induction m generalizing s with
  | zero => simp [State.engineSteps]
  | succ m ih => rw [Nat.succ_add]; exact ih _

/-- Everything a move of ENCODE can be (R73). -/
theorem State.encodeMove_cases (s : State) :
    (s.started = false ∧ s.encodeMove = s.encodeStart) ∨
      (s.started = true ∧ s.g < s.groups ∧ s.encodeMove = s.encodeGroup) ∨
      (s.started = true ∧ ¬s.g < s.groups ∧ s.encodeMove = s.encodeTerminator) := by
  unfold State.encodeMove; cases s.started <;> by_cases h : s.g < s.groups <;> simp [h]

/-- Everything a move of DECODE can be (R87). -/
theorem State.decodeMove_cases (s : State) :
    (s.started = false ∧ s.decodeMove = s.decodeStart) ∨
      (s.started = true ∧ s.g < s.groups ∧ s.decodeMove = s.decodeGroup) ∨
      (s.started = true ∧ ¬s.g < s.groups ∧ s.decodeMove = s.decodeTerminator) := by
  unfold State.decodeMove; cases s.started <;> by_cases h : s.g < s.groups <;> simp [h]

/-- Everything a move of either command can be, said once: it writes nothing and fixes `G` or
finishes, or it writes and goes on to the next group or finishes. -/
theorem State.engineMove_cases {s : State} {m : EngineMove} (h : s.engineMove = some m) :
    (∃ k, m = .quiet (.begin k)) ∨ (∃ e c r grp, m = .quiet (.finish e c r grp)) ∨
      (∃ k, m.goOn = .next k) ∨ ∃ e c r grp, m.goOn = .finish e c r grp := by
  unfold State.engineMove at h
  split at h
  · cases h
  · injection h with h; subst h
    rcases State.encodeMove_cases s with ⟨_, e⟩ | ⟨_, _, e⟩ | ⟨_, _, e⟩ <;> rw [e]
    · unfold State.encodeStart; split
      · exact .inr (.inl ⟨_, _, _, _, rfl⟩)
      · exact .inl ⟨_, rfl⟩
    · unfold State.encodeGroup; split
      · exact .inr (.inl ⟨_, _, _, _, rfl⟩)
      · exact .inr (.inr (.inl ⟨_, rfl⟩))
    · exact .inr (.inr (.inr ⟨_, _, _, _, rfl⟩))
  · injection h with h; subst h
    rcases State.decodeMove_cases s with ⟨_, e⟩ | ⟨_, _, e⟩ | ⟨_, _, e⟩ <;> rw [e]
    · unfold State.decodeStart; split
      · exact .inl ⟨_, rfl⟩
      · exact .inr (.inr (.inr ⟨_, _, _, _, rfl⟩))
    · unfold State.decodeGroup; split
      · exact .inr (.inl ⟨_, _, _, _, rfl⟩)
      · split
        · exact .inr (.inl ⟨_, _, _, _, rfl⟩)
        · exact .inr (.inr (.inl ⟨_, rfl⟩))
    · exact .inr (.inr (.inr ⟨_, _, _, _, rfl⟩))

/-- What an engine step can end in, said once (R73, R74, R87): the command finishes, before or after
writes; the start step fixes G; or a group's writes are done and the engine moves on. -/
theorem State.engineStep_ind {s : State} {P : State → Prop} (same : P s)
    (finish : ∀ e c r grp, P (s.finish e c r grp))
    (finishAfter : ∀ a bs e c r grp, P ((s.writeBytes a bs).1.finish e c r grp))
    (begin : ∀ k, P (s.begin k))
    (next : ∀ a bs k, P ((s.writeBytes a bs).1.nextGroup k)) : P s.engineStep := by
  unfold State.engineStep
  split
  · exact same
  · next m hm =>
    rcases State.engineMove_cases hm with ⟨k, rfl⟩ | ⟨e, c, r, grp, rfl⟩ | h
    · exact begin k
    · exact finish e c r grp
    · rcases State.performMove_cases s m with ⟨_, e⟩ | ⟨_, e⟩ <;> rw [e]
      · rcases h with ⟨k, h⟩ | ⟨e, c, r, grp, h⟩ <;> rw [h]
        · exact next _ _ _
        · exact finishAfter _ _ _ _ _ _
      · exact finishAfter _ _ _ _ _ _

/-! ### The middle of a step (R108) -/

/-- No step makes more than four writes (R73, R87). -/
theorem State.engineMove_length {s : State} {m : EngineMove} (h : s.engineMove = some m) :
    m.bytes.length ≤ 4 := by
  unfold State.engineMove at h
  split at h
  · cases h
  · injection h with h; subst h
    rcases State.encodeMove_cases s with ⟨_, e⟩ | ⟨_, _, e⟩ | ⟨_, _, e⟩ <;> rw [e]
    · unfold State.encodeStart; split <;> simp [EngineMove.quiet]
    · unfold State.encodeGroup; split <;> simp [EngineMove.quiet, Quad.bytes_length]
    · simp [State.encodeTerminator]
  · injection h with h; subst h
    rcases State.decodeMove_cases s with ⟨_, e⟩ | ⟨_, _, e⟩ | ⟨_, _, e⟩ <;> rw [e]
    · unfold State.decodeStart; split <;> simp [EngineMove.quiet]
    · unfold State.decodeGroup; split
      · simp [EngineMove.quiet]
      · split
        · simp [EngineMove.quiet]
        · next ho => have := decGroup_length ho; show _ ≤ 4; dsimp only; omega
    · simp [State.decodeTerminator]

theorem State.midStep_idle {s : State} (h : s.phase = .idle) (n : Nat) : s.midStep n = s := by
  simp [State.midStep, State.engineMove_idle h]

/-- Before its first write a step has changed nothing. -/
@[simp] theorem State.midStep_zero (s : State) : s.midStep 0 = s := by
  unfold State.midStep; split <;> rfl

/-- With four writes or more the step has made all of its writes. -/
theorem State.midStep_all {s : State} {m : EngineMove} (h : s.engineMove = some m) {n : Nat}
    (hn : 4 ≤ n) : s.midStep n = s.writeMove m := by
  have hl : m.bytes.take n = m.bytes :=
    List.take_of_length_le (Nat.le_trans (State.engineMove_length h) hn)
  simp only [State.midStep, h, hl]

/-- The middle of a step differs from its beginning in memory and the write sequence alone. -/
theorem State.midStep_frame (s : State) (n : Nat) :
    s.midStep n = { s with mem := (s.midStep n).mem, undo := (s.midStep n).undo } := by
  unfold State.midStep
  split
  · rfl
  · exact State.writeMove_frame _ _

/-- A step ends with the memory that its writes leave. -/
theorem State.engineStep_mem (s : State) : s.engineStep.mem = (s.midStep 4).mem := by
  cases h : s.engineMove with
  | none => simp only [State.engineStep, State.midStep, h]
  | some m =>
    rw [State.midStep_all h (Nat.le_refl 4)]
    simp only [State.engineStep, h]
    rcases State.performMove_cases s m with ⟨_, e⟩ | ⟨_, e⟩ <;> rw [e]
    · exact State.endStep_mem _ _
    · rfl

/-- A step that does not end the command keeps the write sequence that its writes leave. -/
theorem State.engineStep_undo {s : State} (h : s.engineStep.phase ≠ .idle) :
    s.engineStep.undo = (s.midStep 4).undo := by
  cases hm : s.engineMove with
  | none => simp only [State.engineStep, State.midStep, hm]
  | some m =>
    rw [State.midStep_all hm (Nat.le_refl 4)]
    simp only [State.engineStep, hm] at h ⊢
    rcases State.performMove_cases s m with ⟨_, e⟩ | ⟨_, e⟩ <;> rw [e] at h ⊢
    · revert h
      cases m.goOn with
      | begin k => exact fun _ => rfl
      | next k => exact fun _ => rfl
      | finish e c r grp => exact fun h => absurd rfl h
    · exact absurd rfl h

/-- The writes of a step under way only lengthen the write sequence. -/
theorem State.midStep_undo_le (s : State) (n : Nat) :
    s.undo.length ≤ (s.midStep n).undo.length := by
  unfold State.midStep
  split
  · exact Nat.le_refl _
  · exact State.writeBytes_undo_le _ _ _

/-- The middle of a step is canonical when its beginning is (R35). -/
theorem State.midStep_canonical {s : State} (h : s.MemoryCanonical) (n : Nat) :
    (s.midStep n).MemoryCanonical := by
  unfold State.midStep
  split
  · exact h
  · exact State.writeBytes_canonical h _ _

end Sys2Proof.Machine
end

