-- ==== Sys2Proof/Laws/Duty.lean ====
section
/-! SUPPORT. Laws of the host duty (R49): the engine takes no notice of the host's operations and of the
schedule, so neither does the output range; and the range holds what the next step writes. -/

namespace Sys2Proof.Machine

/-- The same block and memory with another list of operations and another schedule (R46, R116). -/
def State.withHost (s : State) (ops : List HostOp) (sched : List Agent) : State :=
  { s with ops := ops, sched := sched }

section
variable (s : State) (o : List HostOp) (c : List Agent)

theorem State.readBytes_withHost (n : Nat) (a : Word) :
    (s.withHost o c).readBytes n a = s.readBytes n a := by
  induction n generalizing a with
  | zero => rfl
  | succ n ih =>
    have hr : (s.withHost o c).memRead a = s.memRead a := rfl
    simp only [State.readBytes, hr, ih]

theorem State.writeBytes_withHost (a : Word) (bs : List Byte) :
    (s.withHost o c).writeBytes a bs =
      ((s.writeBytes a bs).1.withHost o c, (s.writeBytes a bs).2) := by
  induction bs generalizing s a with
  | nil => rfl
  | cons b bs ih =>
    by_cases h : s.platform.memOk a .write = true
    · have e : s.memWrite a b = some (s.engineWrite a b) := State.memWrite_eq_some.2 ⟨h, rfl⟩
      have e' : (s.withHost o c).memWrite a b = some ((s.engineWrite a b).withHost o c) :=
        State.memWrite_eq_some.2 ⟨h, rfl⟩
      simp only [State.writeBytes, e, e', ih]
    · have e : s.memWrite a b = none := by simp [State.memWrite, h]
      have e' : (s.withHost o c).memWrite a b = none := if_neg h
      simp only [State.writeBytes, e, e']

theorem State.engineMove_withHost : (s.withHost o c).engineMove = s.engineMove := by
  have he : (s.withHost o c).encodeGroup = s.encodeGroup := by
    unfold State.encodeGroup; rw [State.readBytes_withHost]; rfl
  have hd : (s.withHost o c).decodeGroup = s.decodeGroup := by
    unfold State.decodeGroup; rw [State.readBytes_withHost]; rfl
  unfold State.engineMove State.encodeMove State.decodeMove
  rw [he, hd]
  rfl

theorem State.midStep_withHost (n : Nat) :
    (s.withHost o c).midStep n = (s.midStep n).withHost o c := by
  unfold State.midStep
  rw [State.engineMove_withHost]
  cases s.engineMove with
  | none => rfl
  | some m => simp only [State.writeMove, State.writeBytes_withHost]

theorem State.engineStep_withHost : (s.withHost o c).engineStep = s.engineStep.withHost o c := by
  unfold State.engineStep
  rw [State.engineMove_withHost]
  cases s.engineMove with
  | none => rfl
  | some m =>
    simp only [State.performMove, State.writeMove, State.writeBytes_withHost]
    split
    · cases m.goOn <;> rfl
    · rfl

theorem State.writesAhead_withHost (n : Nat) :
    (s.withHost o c).writesAhead n = s.writesAhead n := by
  induction n generalizing s with
  | zero => simp only [State.writesAhead, State.midStep_withHost]; rfl
  | succ n ih =>
    simp only [State.writesAhead, State.midStep_withHost, State.engineStep_withHost, ih]
    rfl

theorem State.outputBytes_withHost : (s.withHost o c).outputBytes = s.outputBytes := by
  unfold State.outputBytes
  rw [State.writesAhead_withHost]
  rfl

end

/-- Taking the host's next operation off its list leaves the output range as it was. -/
theorem State.outputBytes_hostTurn (s : State) (rest : List HostOp) :
    (s.hostTurn rest).outputBytes = s.outputBytes := by
  have e : s.hostTurn rest = s.withHost rest (s.hostTurn rest).sched := by
    unfold State.hostTurn State.takeTurn; split <;> rfl
  rw [e, State.outputBytes_withHost]

/-- The engine run ahead writes at least what its next step writes. -/
theorem State.midStep_le_writesAhead (s : State) (n : Nat) :
    (s.midStep 4).undo.length ≤ s.writesAhead n := by
  induction n generalizing s with
  | zero => exact Nat.le_refl _
  | succ n ih =>
    unfold State.writesAhead
    split
    · exact Nat.le_refl _
    · next h =>
      rw [← State.engineStep_undo h]
      exact Nat.le_trans (State.midStep_undo_le _ _) (ih _)

/-- Running the engine further ahead than to the end of the command adds nothing. -/
theorem State.writesAhead_stable {s : State} {n : Nat} (h : (s.engineSteps (n + 1)).phase = .idle)
    (m : Nat) : s.writesAhead (n + m) = s.writesAhead n := by
  induction n generalizing s with
  | zero =>
    have h1 : s.engineStep.phase = .idle := h
    cases m with
    | zero => rfl
    | succ m =>
      rw [Nat.zero_add]
      simp only [State.writesAhead, if_pos h1]
  | succ n ih =>
    rw [Nat.succ_add]
    unfold State.writesAhead
    rw [ih h]

end Sys2Proof.Machine
end

