-- ==== Sys2Proof/Laws/PerInstr.lean ====
section
/-! SUPPORT. One lemma per instruction: its command word is well formed, fits the opcode table's
rows, and is the only word that the decoder reads as this instruction. -/

namespace Sys2Proof.Laws

/-- OP alone decides: an OP that the map gives to `i` is the low byte of `i`'s word (R54). -/
theorem opField_of_decode {w : Word} {i : Instr} (h : decode w = .ok i) :
    zeroField w = 0 ∧ opField w = opField (encode i) := by
  unfold decode at h
  split at h
  · next hz =>
    refine ⟨hz, BitVec.eq_of_toNat_eq ?_⟩
    unfold decodeOp at h
    split at h <;> first | (injection h with h; subst h; assumption) | cases h
  · cases h

/-- The two fields of R53 make up the word. -/
theorem word_of_fields (w : Word) : w = zeroField w ++ opField w := by
  refine BitVec.eq_of_getLsbD_eq fun i hi => ?_
  simp only [zeroField, opField, BitVec.getLsbD_append, BitVec.getLsbD_extractLsb']
  by_cases h : i < 8
  · simp [h]
  · have h2 : 8 + (i - 8) = i := by omega
    simp [h, h2]; omega

/-- What the family says of an instruction's syntax and encoding. -/
def Encoding.Statement (i : Instr) : Prop :=
  i.wf = true ∧ CommandWord.wf (encode i) = true ∧ zeroField (encode i) = 0 ∧
    decodeTableWord 32 (encode i).toNat = some i

theorem Encoding.enc1 : Encoding.Statement .enc1 := by unfold Encoding.Statement; decide
theorem Encoding.enc2 : Encoding.Statement .enc2 := by unfold Encoding.Statement; decide
theorem Encoding.enc3 : Encoding.Statement .enc3 := by unfold Encoding.Statement; decide
theorem Encoding.dec : Encoding.Statement .dec := by unfold Encoding.Statement; decide
theorem Encoding.decf : Encoding.Statement .decf := by unfold Encoding.Statement; decide
theorem Encoding.encode : Encoding.Statement .encode := by unfold Encoding.Statement; decide
theorem Encoding.decode : Encoding.Statement .decode := by unfold Encoding.Statement; decide
theorem Encoding.flut : Encoding.Statement .flut := by unfold Encoding.Statement; decide
theorem Encoding.rlut : Encoding.Statement .rlut := by unfold Encoding.Statement; decide

end Sys2Proof.Laws
end

