-- ==== Sys2Proof/Laws/Step.lean ====
section
/-! SUPPORT. What a step can do, said once: the commands (R57, R58, R73, R87), the register port (R16,
R45), the host's operations (R12), and who moves (R116). -/

namespace Sys2Proof.Machine

/-- What an accepted command turns a state into: an immediate command completes or fails (R58), a
buffer command starts (R73, R87). -/
inductive CommandEffect (s : State) : State → Prop where
  | complete (d : Word) (n : BitVec 3) (h : n.toNat ≤ 4) : CommandEffect s (s.complete d n)
  | fail (e : ErrCode) (h : e = .invalidSymbol ∨ e = .misplacedPad) : CommandEffect s (s.fail e)
  | start (p : Phase) (h : p = .enc ∨ p = .dec) : CommandEffect s (s.startBuffer p)

theorem State.endDecode_effect (s : State) (final : Bool) (q : Quad) :
    CommandEffect s (s.endDecode (decGroup final q)) := by
  cases h : decGroup final q with
  | error e => exact .fail e (decGroup_code h)
  | ok bs =>
    have := decGroup_length h
    exact .complete _ _ (by rw [BitVec.toNat_ofNat]; omega)

/-- Everything a command can do: it is dropped while BUSY is 1, and has its effect otherwise. -/
theorem exec_cases {i : Instr} {s t : State} (h : exec i s = .next t) :
    (s.busy = true ∧ t = s.dropWrite) ∨ (s.busy = false ∧ CommandEffect s t) := by
  have key : ∀ f : State → State, (∀ u, CommandEffect u (f u)) → s.accept f = .next t →
      (s.busy = true ∧ t = s.dropWrite) ∨ (s.busy = false ∧ CommandEffect s t) := by
    intro f hf h
    rcases State.accept_cases h with h | ⟨hb, rfl⟩
    · exact .inl h
    · exact .inr ⟨hb, hf s⟩
  cases i with
  | enc1 => exact key _ (fun u => .complete _ _ (by decide)) h
  | enc2 => exact key _ (fun u => .complete _ _ (by decide)) h
  | enc3 => exact key _ (fun u => .complete _ _ (by decide)) h
  | dec => exact key _ (fun u => u.endDecode_effect _ _) h
  | decf => exact key _ (fun u => u.endDecode_effect _ _) h
  | encode => exact key _ (fun u => .start _ (.inl rfl)) h
  | decode => exact key _ (fun u => .start _ (.inr rfl)) h
  | flut => exact key _ (fun u => .complete _ _ (by decide)) h
  | rlut => exact key _ (fun u => .complete _ _ (by decide)) h

/-- Every command answers a next state, whatever the state. -/
theorem exec_next (i : Instr) (s : State) : ∃ t, exec i s = .next t := by
  cases i <;> exact ⟨_, rfl⟩

/-- Everything a CMD write can do (R57, R92). -/
theorem commandWrite_cases {w : Word} {s t : State} (h : commandWrite w s = .next t) :
    (s.busy = true ∧ t = s.dropWrite) ∨
      (s.busy = false ∧ (t = s.illegal ∨ CommandEffect s t)) := by
  unfold commandWrite at h
  split at h
  · rcases exec_cases h with h | ⟨hb, h⟩
    · exact .inl h
    · exact .inr ⟨hb, .inr h⟩
  · rcases State.accept_cases h with h | ⟨hb, h⟩
    · exact .inl h
    · exact .inr ⟨hb, .inl h⟩

theorem commandWrite_next (w : Word) (s : State) : ∃ t, commandWrite w s = .next t := by
  unfold commandWrite
  split
  · exact exec_next _ _
  · exact ⟨_, rfl⟩

/-- Everything an access of the register port can do (R16, R45): a read and an access that is not
served only answer; a write is ignored, dropped, stored, or a command. -/
theorem portAccess_cases {a : BusAccess} {s t : State} (h : portAccess a s = .next t) :
    (∃ r, t = s.answer r) ∨ (∃ r v, t = (s.answer .done).writeReg r v) ∨
      (∃ w, commandWrite w (s.answer .done) = .next t) := by
  unfold portAccess at h
  split at h
  · split at h
    · injection h with h; exact .inl ⟨_, h.symm⟩
    · unfold writeOffset at h
      split at h
      · injection h with h; exact .inl ⟨_, h.symm⟩
      · split at h
        · exact .inr (.inr ⟨_, h⟩)
        · injection h with h; exact .inr (.inl ⟨_, _, h.symm⟩)
  · injection h with h; exact .inl ⟨_, h.symm⟩

theorem portAccess_next (a : BusAccess) (s : State) : ∃ t, portAccess a s = .next t := by
  unfold portAccess
  split
  · split
    · exact ⟨_, rfl⟩
    · unfold writeOffset
      split
      · exact ⟨_, rfl⟩
      · split
        · exact commandWrite_next _ _
        · exact ⟨_, rfl⟩
  · exact ⟨_, rfl⟩

/-- Everything a host operation can do when it is not refused (R12, R49, R60, R107). -/
theorem hostStep_cases {op : HostOp} {s t : State} (h : hostStep op s = .next t) :
    (∃ a, op = .access a ∧ portAccess a s = .next t) ∨ (op = .poll ∧ t = s.pollStep) ∨
      (∃ a b, op = .memWrite a b ∧ s.writeForbidden a = false ∧ t = s.putByte a b) ∨
      (∃ a, op = .memRead a ∧ s.readForbidden a = false ∧ t = s.answer (.byte (s.byteAt a))) ∨
      (∃ n, op = .reset n ∧ t = s.resetBlock n) := by
  cases op with
  | access a => exact .inl ⟨a, rfl, h⟩
  | poll => injection h with h; exact .inr (.inl ⟨rfl, h.symm⟩)
  | memWrite a b =>
    simp only [hostStep] at h
    split at h
    · cases h
    · next hf =>
      injection h with h
      exact .inr (.inr (.inl ⟨a, b, rfl, by simpa using hf, h.symm⟩))
  | memRead a =>
    simp only [hostStep] at h
    split at h
    · cases h
    · next hf =>
      injection h with h
      exact .inr (.inr (.inr (.inl ⟨a, rfl, by simpa using hf, h.symm⟩)))
  | reset n => injection h with h; exact .inr (.inr (.inr (.inr ⟨n, rfl, h.symm⟩)))

/-! ### Who moves (R116) -/

theorem step_engine {s : State} (h : s.mover = .engine) :
    step s = .next s.takeTurn.engineStep := by simp [step, advance, h]

theorem step_host {s : State} {op : HostOp} {rest : List HostOp} (h : s.mover = .host)
    (ho : s.ops = op :: rest) : step s = hostStep op (s.hostTurn rest) := by
  simp [step, advance, h, ho, State.hostTurn]

theorem State.mover_idle {s : State} (h : s.phase = .idle) : s.mover = .host := by
  simp [State.mover, State.contended, h]

theorem State.mover_alone {s : State} (h : s.phase ≠ .idle) (ho : s.ops = []) :
    s.mover = .engine := by simp [State.mover, State.contended, h, ho]

theorem State.takeTurn_idle {s : State} (h : s.phase = .idle) : s.takeTurn = s := by
  simp [State.takeTurn, State.contended, h]

theorem State.takeTurn_alone {s : State} (h : s.ops = []) : s.takeTurn = s := by
  simp [State.takeTurn, State.contended, h]

/-- Everything a step can do: an engine step, a host operation, or nothing to do. -/
theorem step_cases {s t : State} (h : step s = .next t) :
    (s.mover = .engine ∧ t = s.takeTurn.engineStep) ∨
      (s.mover = .host ∧ ∃ op rest, s.ops = op :: rest ∧
        hostStep op (s.hostTurn rest) = .next t) ∨
      (s.mover = .host ∧ s.ops = [] ∧ t = s) := by
  cases hm : s.mover with
  | engine => rw [step_engine hm] at h; injection h with h; exact .inl ⟨rfl, h.symm⟩
  | host =>
    cases ho : s.ops with
    | nil =>
      have : step s = .next s := by simp [step, advance, hm, ho]
      rw [this] at h; injection h with h; exact .inr (.inr ⟨rfl, rfl, h.symm⟩)
    | cons op rest =>
      rw [step_host hm ho] at h
      exact .inr (.inl ⟨rfl, op, rest, rfl, h⟩)

/-- The induction over kinds of steps, once: what every kind of step keeps, every step keeps. -/
theorem step_keeps (I : State → Prop)
    (answer : ∀ s r, I s → I (s.answer r)) (ops : ∀ s o, I s → I (s.withOps o))
    (turn : ∀ s, I s → I s.takeTurn)
    (drop : ∀ s, s.busy = true → I s → I s.dropWrite)
    (store : ∀ s r v, s.busy = false → I s → I (s.writeReg r v))
    (illegal : ∀ s, s.busy = false → I s → I s.illegal)
    (command : ∀ s t, s.busy = false → CommandEffect s t → I s → I t)
    (put : ∀ s a b, I s → I (s.putByte a b)) (reset : ∀ s n, I s → I (s.resetBlock n))
    (engine : ∀ s, I s → I s.engineStep) : ∀ s t, I s → step s = .next t → I t := by
  intro s t hs h
  rcases step_cases h with ⟨_, rfl⟩ | ⟨_, op, rest, _, h⟩ | ⟨_, _, rfl⟩
  · exact engine _ (turn _ hs)
  · have hu : I (s.hostTurn rest) := ops _ _ (turn _ hs)
    generalize s.hostTurn rest = u at h hu
    have hd : I (u.answer .done) := answer _ _ hu
    rcases hostStep_cases h with ⟨a, _, h⟩ | ⟨_, rfl⟩ | ⟨a, b, _, _, rfl⟩ | ⟨a, _, _, rfl⟩ |
      ⟨n, _, rfl⟩
    · rcases portAccess_cases h with ⟨r, rfl⟩ | ⟨r, v, rfl⟩ | ⟨w, h⟩
      · exact answer _ _ hu
      · cases hb : (u.answer .done).busy with
        | false => exact store _ _ _ hb hd
        | true =>
          rcases State.writeReg_cases (u.answer .done) r v with e | ⟨_, e⟩ | ⟨hf, _⟩
          · rw [e]; exact hd
          · rw [e]; exact drop _ hb hd
          · simp [hb] at hf
      · rcases commandWrite_cases h with ⟨hb, rfl⟩ | ⟨hb, rfl | hc⟩
        · exact drop _ hb hd
        · exact illegal _ hb hd
        · exact command _ _ hb hc hd
    · unfold State.pollStep
      split
      · exact ops _ _ (answer _ _ hu)
      · exact answer _ _ hu
    · exact put _ _ _ hu
    · exact answer _ _ hu
    · exact reset _ _ hu
  · exact hs

end Sys2Proof.Machine
end

