-- ==== Sys2Proof/Laws/Port.lean ====
section
/-! SUPPORT. Laws of the register port: what a 32-bit access at an offset of the window does (R15, R16,
R45), what a CMD write at the base does (R57), and which command words are illegal (R57). -/

namespace Sys2Proof.Machine

/-- A word is ill formed exactly when the decoder rejects it (R57). -/
theorem commandWord_wf_false (w : Word) :
    CommandWord.wf w = false ↔ ∃ e, decode w = .error e := by
  have hwf : CommandWord.wf w = ((zeroField w == 0) && legalOps.contains (opField w)) := rfl
  by_cases hz : zeroField w = 0
  · cases ho : legalOps.contains (opField w)
    · have hop : ∀ op : BitVec 8, legalOps.contains op = false →
          decodeOp op.toNat = .error .opNotInMap := by decide
      have : decode w = .error .opNotInMap := by rw [decode, if_pos hz]; exact hop _ ho
      rw [hwf, ho, this]; simp
    · have hop : ∀ op : BitVec 8, legalOps.contains op = true → op ∈ legalOps := by decide
      have hi : ∃ i, decode w = .ok i := by
        rw [decode, if_pos hz]
        have := hop _ ho
        simp only [legalOps, List.mem_cons, List.not_mem_nil, or_false] at this
        rcases this with h | h | h | h | h | h | h | h | h <;> rw [h] <;> exact ⟨_, rfl⟩
      obtain ⟨i, hi⟩ := hi
      rw [hwf, ho, hi, hz]; simp
  · have hd : decode w = .error .zeroFieldNotZero := if_neg hz
    have hb : (zeroField w == 0) = false := beq_eq_false_iff_ne.2 hz
    rw [hwf, hd, hb]; simp

theorem decode_encode_word (i : Instr) : decode (encode i) = .ok i := by cases i <;> decide

/-- The address of an offset of the window: its page, then the offset (R6, R15). -/
theorem Platform.base_add (p : Platform) (o : BitVec 8) :
    p.base + o.setWidth 32 = p.basePage ++ o := by
  apply BitVec.eq_of_toNat_eq
  have := p.basePage.isLt
  have := o.isLt
  simp only [Platform.base, BitVec.toNat_add, BitVec.toNat_append, BitVec.toNat_setWidth]
  rw [← Nat.shiftLeft_add_eq_or_of_lt o.isLt,
    ← Nat.shiftLeft_add_eq_or_of_lt (0 : BitVec 8).isLt, Nat.shiftLeft_eq]
  simp
  omega

theorem getLsbD_page (p : BitVec 24) (o : BitVec 8) (i : Nat) :
    (p ++ o : BitVec 32).getLsbD i = if i < 8 then o.getLsbD i else p.getLsbD (i - 8) :=
  BitVec.getLsbD_append (x := p) (y := o)

theorem page_of_address (p : BitVec 24) (o : BitVec 8) :
    (p ++ o : BitVec 32).extractLsb' 8 24 = p := by
  refine BitVec.eq_of_getLsbD_eq fun i hi => ?_
  rw [BitVec.getLsbD_extractLsb', getLsbD_page]
  simp [hi]

theorem offset_of_address (p : BitVec 24) (o : BitVec 8) :
    (p ++ o : BitVec 32).extractLsb' 0 8 = o := by
  refine BitVec.eq_of_getLsbD_eq fun i hi => ?_
  rw [BitVec.getLsbD_extractLsb', getLsbD_page]
  simp [hi]

theorem alignment_of_address (p : BitVec 24) (o : BitVec 8) :
    (p ++ o : BitVec 32).extractLsb' 0 2 = o.extractLsb' 0 2 := by
  refine BitVec.eq_of_getLsbD_eq fun i hi => ?_
  rw [BitVec.getLsbD_extractLsb', getLsbD_page]
  have : i < 8 := by omega
  simp [hi, this]

/-- A 32-bit access at a word-aligned offset of the window is served (R45). -/
theorem State.serves_offset (s : State) {o : BitVec 8} (c : BusCommand)
    (h : o.extractLsb' 0 2 = 0) :
    s.serves ⟨s.platform.base + o.setWidth 32, 4, 1, c⟩ = true := by
  simp only [State.serves, Platform.base_add, page_of_address, alignment_of_address, h]
  simp

/-- Such a read answers the register (R16). -/
theorem portAccess_read (s : State) {o : BitVec 8} (h : o.extractLsb' 0 2 = 0) :
    portAccess ⟨s.platform.base + o.setWidth 32, 4, 1, .read⟩ s =
      .next (s.answer (.data (s.readOffset o))) := by
  rw [portAccess, if_pos (s.serves_offset _ h)]
  simp only [BusAccess.offset, Platform.base_add, offset_of_address]

/-- Such a write is performed at its offset (R16). -/
theorem portAccess_write (s : State) {o : BitVec 8} (v : Word) (h : o.extractLsb' 0 2 = 0) :
    portAccess ⟨s.platform.base + o.setWidth 32, 4, 1, .write v⟩ s =
      writeOffset o v (s.answer .done) := by
  rw [portAccess, if_pos (s.serves_offset _ h)]
  simp only [BusAccess.offset, Platform.base_add, offset_of_address]

/-- A write at the base of the window is a CMD write (R17). -/
theorem portAccess_cmdWrite (s : State) (w : Word) {p : Platform} (hp : s.platform = p) :
    portAccess (cmdWrite p.base w) s = commandWrite w (s.answer .done) := by
  subst hp
  have h := portAccess_write s (o := 0) w (by decide)
  have h0 : s.platform.base + (0 : BitVec 8).setWidth 32 = s.platform.base := by simp
  rw [h0] at h
  rw [cmdWrite, h]
  rfl

end Sys2Proof.Machine
end

