-- ==== Sys2Proof/Tests/Slice0.lean ====
section
/-! SUPPORT. The model's own tests: command words, ill-formed words, one step per command with results
from spec/95_test_vectors.md (or by hand from a named rule), and for each statement with hypotheses a
state that meets them. -/

namespace Sys2Proof.Tests

open Sys2Proof Sys2Proof.Machine

/-! ### Well-formedness: a term that each check refuses -/

/-- R53: CMD[31:8] is not 0 (V133: 0x0000_0111). -/
theorem test_wf_refuses_zero_field :
    CommandWord.zeroOk 0x00000111 = false ∧ CommandWord.wf 0x00000111 = false := by decide

/-- R54: 0x14 is no value of the map (V129). -/
theorem test_wf_refuses_op : CommandWord.opOk 0x00000014 = false ∧
    CommandWord.wf 0x00000014 = false := by decide

/-- R60: a buffer command takes no single operand; R59: a text is US-ASCII. -/
theorem test_asm_wf_refuses : (AsmLine.operand .encode 5).wf = false ∧
    (AsmLine.text 0 [Char.ofNat 200]).wf = false ∧ (AsmLine.operand .enc1 5).wf = true := by decide

/-! ### Decoding: the words of R54, written out bit by bit -/

theorem test_decode_enc1 : decode 0b00000000000000000000000000010001 = .ok .enc1 := by decide
theorem test_decode_enc2 : decode 0b00000000000000000000000000010010 = .ok .enc2 := by decide
theorem test_decode_enc3 : decode 0b00000000000000000000000000010011 = .ok .enc3 := by decide
theorem test_decode_dec : decode 0b00000000000000000000000000100000 = .ok .dec := by decide
theorem test_decode_decf : decode 0b00000000000000000000000000100001 = .ok .decf := by decide
theorem test_decode_encode : decode 0b00000000000000000000000000110000 = .ok .encode := by decide
theorem test_decode_decode : decode 0b00000000000000000000000000110001 = .ok .decode := by decide
theorem test_decode_flut : decode 0b00000000000000000000000001000000 = .ok .flut := by decide
theorem test_decode_rlut : decode 0b00000000000000000000000001000001 = .ok .rlut := by decide

/-- V127, V130, V134, V135: illegal words, rejected by name. -/
theorem test_decode_illegal :
    decode 0x00000000 = .error .opNotInMap ∧ decode 0x00000022 = .error .opNotInMap ∧
      decode 0x80000011 = .error .zeroFieldNotZero ∧
      decode 0xFFFFFFFF = .error .zeroFieldNotZero := by decide

/-! ### Helpers -/

/-- A next state with this property. -/
def answers (o : Host.Outcome State Fault Refusal) (p : State → Bool) : Bool :=
  match o with
  | .next t => p t
  | .fault _ => false
  | .refused _ => false

/-- The reset state with this DIN. -/
def withDin (d : Word) : State := { State.reset with din := d }

/-- DOUT and STATUS after a command on this DIN. -/
def gives (i : Instr) (d dout status : Word) : Bool :=
  answers (exec i (withDin d)) fun t => t.dout == dout && t.status == status && t.din == d

/-- A started buffer command: this phase, length and number of groups, at group 0. -/
def running (p : Phase) (len groups : Word) (mem : List Host.Cell) : State :=
  { State.reset with
    status := 1, phase := p, started := true, src := 0x10, dst := 0x20, len := len,
    groups := groups, mem := mem }

/-! ### The immediate commands (V43 to V92) -/

/-- V45, V47: 'f' gives "Zg==", and the bits of DIN that ENC1 ignores do not count. -/
theorem test_enc1 : gives .enc1 0x00660000 0x5A673D3D 0x400 = true ∧
    gives .enc1 0xFF00FFFF 0x41413D3D 0x400 = true := by decide

/-- V52, V50. -/
theorem test_enc2 : gives .enc2 0x00666FFF 0x5A6D383D 0x400 = true ∧
    gives .enc2 0x00FFFF00 0x2F2F383D 0x400 = true := by decide

/-- V61, V56. -/
theorem test_enc3 : gives .enc3 0x000003F0 0x41415077 0x400 = true ∧
    gives .enc3 0x00FBEFBE 0x2B2B2B2B 0x400 = true := by decide

/-- V66: "+/+/". -/
theorem test_dec : gives .dec 0x2B2F2B2F 0x00FBFFBF 0x300 = true := by decide

/-- V68, V70: position 0 is checked first; a pad is never valid in a non-final group. -/
theorem test_dec_fails : gives .dec 0x3E3D3D3D 0 0x32 = true ∧
    gives .dec 0x5A6D3D76 0 0x42 = true := by decide

/-- V74, V78, V80: discarded bits are ignored; 1, 2 and 3 bytes. -/
theorem test_decf : gives .decf 0x5A683D3D 0x00660000 0x100 = true ∧
    gives .decf 0x5A6D393D 0x00666F00 0x200 = true ∧
    gives .decf 0x5A6D3976 0x00666F6F 0x300 = true := by decide

/-- V81, V83, V86: (PAD, VALID), (VALID, INVALID) and (PAD, INVALID). -/
theorem test_decf_fails : gives .decf 0x5A6D3D38 0 0x42 = true ∧
    gives .decf 0x5A6D383E 0 0x32 = true ∧ gives .decf 0x5A6D3D3E 0 0x42 = true := by decide

/-- V25, V23. -/
theorem test_flut : gives .flut 0xFFFFFFC0 0x41 0x100 = true ∧
    gives .flut 62 0x2B 0x100 = true := by decide

/-- V41, V34, V40: only DIN[7:0] is read; PAD; INVALID is a result, not a failure. -/
theorem test_rlut : gives .rlut 0x00000141 0 0x100 = true ∧
    gives .rlut 0x3D 0x100 0x100 = true ∧ gives .rlut 0x80 0x200 0x100 = true := by decide

/-! ### The buffer commands -/

/-- R73: the group step of V3, "fo", writes "Zm8=" and leaves group 1 next. -/
theorem test_encode_group_step :
    let t := (running .enc 2 1 [(0x10, 0x66), (0x11, 0x6F)]).engineStep
    t.bytesAt 0x20 4 = [0x5A, 0x6D, 0x38, 0x3D] ∧ t.g = 1 ∧ t.olen = 4 := by decide

/-- V149: ENCODE straight after reset writes 0x00 at address 0 and returns 0, STATUS 0. -/
theorem test_encode_after_reset :
    let t := (State.reset.startBuffer .enc).engineSteps 2
    t.status = 0 ∧ t.rlen = 0 ∧ t.phase = .idle ∧ t.undo = [] := by decide

/-- R87: the group step of V6's group 0, "Zm9v" of two groups, writes 66 6F 6F. -/
theorem test_decode_group_step :
    let t := (running .dec 8 2 [(0x10, 0x5A), (0x11, 0x6D), (0x12, 0x39), (0x13, 0x76)]).engineStep
    t.bytesAt 0x20 4 = [0x66, 0x6F, 0x6F, 0x00] ∧ t.g = 1 ∧ t.olen = 3 := by decide

/-- V150: DECODE straight after reset is a LENGTH failure. -/
theorem test_decode_after_reset :
    let t := (State.reset.startBuffer .dec).engineStep
    t.status = 0x22 ∧ t.rlen = 0 ∧ t.errgrp = 0 ∧ t.phase = .idle := by decide

/-- V122: a read error at position 3 beats an invalid symbol at position 0. -/
theorem test_decode_read_error_first :
    let s := running .dec 4 1 [(0x10, 0x3E), (0x11, 0x6D), (0x12, 0x39)]
    ({ s with platform := ⟨0, [(0x13, .read)]⟩ }).engineStep.status = 0x52 := by decide

/-! ### The register port and reset -/

/-- V136, V137, V139, V138: CMD reads 0, ID its word, a reserved offset 0; a write to ID does nothing. -/
theorem test_register_reads : State.reset.readOffset 0x00 = 0 ∧
    State.reset.readOffset 0x24 = 0x42363401 ∧ State.reset.readOffset 0xFC = 0 ∧
    State.reset.writeReg .id 0 = State.reset := by decide

/-- V141: an 8-bit read at offset 0x04 gets an error response. -/
theorem test_byte_access : answers (portAccess ⟨4, 1, 1, .read⟩ State.reset)
    (fun t => t.heard == [.busError]) = true := by decide

/-- V143, V144: while a DECODE runs, writes to SRC and CMD set IGN alone; STATUS reads 5. -/
theorem test_dropped_writes :
    answers (portAccess ⟨0x10, 4, 1, .write 0x9000⟩ (running .dec 8 2 []))
      (fun t => t.status == 5 && t.src == 0x10) = true ∧
    answers (portAccess (cmdWrite 0 0x11) (running .dec 8 2 []))
      (fun t => t.status == 5 && t.dout == 0 && t.phase == .dec) = true := by decide

/-- V127: an illegal word changes STATUS alone. -/
theorem test_illegal_word : answers (commandWrite 0 (withDin 0x5A6D3976))
    (fun t => t == { withDin 0x5A6D3976 with status := 0x12 }) = true := by decide

/-- R107: a reset of an idle block with other registers set. -/
theorem test_reset_op : answers (hostStep (.reset 0) { withDin 7 with rlen := 4, status := 0x12 })
    (fun t => t == { State.reset with draws := 1 }) = true := by decide

/-- The first step after reset with a command placed runs it (log 8): ENC3 on DIN = 0. -/
theorem test_placed_command : answers (step (State.reset.withFetchWord 32 0x13))
    (fun t => t.dout == 0x41414141 && t.status == 0x400 && t.ops == []) = true := by decide

/-- The rows of the opcode table are read back. -/
theorem test_table_words : decodeTableWord 32 0x31 = some .decode ∧
    decodeTableWord 8 0x41 = some .rlut ∧ decodeTableWord 32 0x111 = none ∧
    decodeTableWord 40 0x11 = none := by decide

end Sys2Proof.Tests
end

