-- ==== Sys2Proof/Tests/Witnesses.lean ====
section
/-! SUPPORT. For each statement with hypotheses, a named concrete state and operands that meet all of
them together, for each clause (at the boundary of its range where it has one). -/

namespace Sys2Proof.Tests

open Sys2Proof Sys2Proof.Machine

/-- DIN of the four symbols. -/
def withSymbols (s0 s1 s2 s3 : Byte) : State := withDin (s0 ++ s1 ++ s2 ++ s3)

/-- The platform that denies these accesses. -/
def denying (s : State) (d : List (Word × AccessKind)) : State := { s with platform := ⟨0, d⟩ }

/-- A running command's state that is legal: DECODE of "Zm9vYg==" before its first group of two. It
writes "foob" and the terminator, so its output range is 5 bytes. -/
def decoding : State :=
  running .dec 8 2
    [(0x10, 0x5A), (0x11, 0x6D), (0x12, 0x39), (0x13, 0x76), (0x14, 0x59), (0x15, 0x67),
      (0x16, 0x3D), (0x17, 0x3D)]

/-- ENCODE before its first group of one. -/
def encoding : State := running .enc 3 1 []

/-- Input at 0x10, output at 0x20, no bus error. -/
def idleWith (len : Word) : State := { State.reset with src := 0x10, dst := 0x20, len := len }

/-! ### The step and the commands -/

theorem witness_StepRunsDecodedCommand :
    let s := { withDin 5 with ops := [.access (State.reset.cmdAccess 0x40), .reset 0] }
    s.mover = .host ∧ s.ops = .access (s.cmdAccess 0x40) :: [.reset 0] ∧
      decode 0x40 = .ok .flut := by decide

theorem witness_StepRunsDecodedCommand_busy :
    let s := { decoding with ops := [.access (State.reset.cmdAccess 0x11)], sched := [.host] }
    s.mover = .host ∧ s.ops = .access (s.cmdAccess 0x11) :: [] ∧
      decode 0x11 = .ok .enc1 := by decide

theorem witness_StepRunsDecodedCommand_others :
    let s := { decoding with ops := [.memRead 0x30], sched := [.host] }
    (s.mover = .host ∧ s.ops = .memRead 0x30 :: []) ∧ decoding.mover = .engine := by decide

theorem witness_PlacedCommandRunsNext : State.reset.phase = .idle := by decide

theorem witness_IllegalWordsRejectedByName :
    zeroField 0x00000111 ≠ 0 ∧
      (zeroField 0x00000042 = 0 ∧ legalOps.contains (opField 0x00000042) = false) ∧
      (zeroField 0x00000041 = 0 ∧ legalOps.contains (opField 0x00000041) = true) := by decide

theorem witness_CommandDispatch :
    decoding.busy = true ∧ (∀ i, encode i ≠ 0x42) ∧ State.reset.busy = false :=
  ⟨by decide, fun i => by cases i <;> decide, by decide⟩

theorem witness_busy_false : (withDin 0x00666F6F).busy = false := by decide

theorem witness_RlutResult :
    rev (withDin 0x2F).din7 = .valid 63 ∧ rev (withDin 0x3D).din7 = .pad ∧
      rev (withDin 0xFF).din7 = .invalid ∧ (withDin 0x2F).busy = false := by decide

theorem witness_DecResult_success :
    let s := withSymbols 0x41 0x2F 0x2B 0x39
    s.busy = false ∧ rev s.din31 = .valid 0 ∧ rev s.din23 = .valid 63 ∧
      rev s.din15 = .valid 62 ∧ rev s.din7 = .valid 61 := by decide

/-- The first position is the failing one. -/
theorem witness_DecResult_first :
    let s := withSymbols 0x3E 0x3D 0x3D 0x3D
    let t := withSymbols 0x3D 0x3E 0x3E 0x3E
    [rev s.din31, rev s.din23, rev s.din15, rev s.din7] = [] ++ .invalid :: [.pad, .pad, .pad] ∧
      [rev t.din31, rev t.din23, rev t.din15, rev t.din7] =
        [] ++ .pad :: [.invalid, .invalid, .invalid] := by decide

/-- The last position is the failing one. -/
theorem witness_DecResult_last :
    let s := withSymbols 0x41 0x41 0x41 0x3E
    let t := withSymbols 0x41 0x41 0x41 0x3D
    let before := [SymbolClass.valid 0, SymbolClass.valid 0, SymbolClass.valid 0]
    (∀ c ∈ before, ∃ v, c = .valid v) ∧
      [rev s.din31, rev s.din23, rev s.din15, rev s.din7] = before ++ .invalid :: [] ∧
      [rev t.din31, rev t.din23, rev t.din15, rev t.din7] = before ++ .pad :: [] := by
  refine ⟨fun c hc => ⟨0, ?_⟩, by decide, by decide⟩
  simpa using hc

theorem witness_DecfResult_heads :
    rev (withSymbols 0x3E 0 0 0).din31 = .invalid ∧ rev (withSymbols 0x3D 0 0 0).din31 = .pad ∧
      (rev (withSymbols 0x5A 0x3E 0 0).din31 = .valid 25 ∧
        rev (withSymbols 0x5A 0x3E 0 0).din23 = .invalid) ∧
      (rev (withSymbols 0x5A 0x3D 0 0).din31 = .valid 25 ∧
        rev (withSymbols 0x5A 0x3D 0 0).din23 = .pad) := by decide

theorem witness_DecfResult_tails :
    let tail := fun s2 s3 : Byte =>
      let s := withSymbols 0x5A 0x6D s2 s3
      (rev s.din31, rev s.din23, rev s.din15, rev s.din7)
    tail 0x39 0x76 = (.valid 25, .valid 38, .valid 61, .valid 47) ∧
      tail 0x38 0x3D = (.valid 25, .valid 38, .valid 60, .pad) ∧
      tail 0x3D 0x3D = (.valid 25, .valid 38, .pad, .pad) ∧
      tail 0x38 0x3E = (.valid 25, .valid 38, .valid 60, .invalid) ∧
      tail 0x3E 0x3D = (.valid 25, .valid 38, .invalid, .pad) ∧
      tail 0x3D 0x38 = (.valid 25, .valid 38, .pad, .valid 60) ∧
      tail 0x3D 0x3E = (.valid 25, .valid 38, .pad, .invalid) := by decide

theorem witness_TablesAreInverse : rev 0x2F = .valid 63 ∧ rev 0x41 = .valid 0 := by decide

theorem witness_DiscardedBitsIgnored :
    rev 0x5A = .valid 25 ∧ rev 0x67 = .valid 32 ∧ rev 0x68 = .valid 33 ∧ rev 0x38 = .valid 60 ∧
      rev 0x39 = .valid 61 ∧
      (32 : Sextet).extractLsb' 4 2 = (33 : Sextet).extractLsb' 4 2 ∧
      (60 : Sextet).extractLsb' 2 4 = (61 : Sextet).extractLsb' 2 4 := by decide

theorem witness_CommandFrames :
    Instr.immediate .rlut = true ∧ Instr.immediate .decode = false ∧
      CommandWord.wf 0x00000000 = false ∧ State.reset.busy = false := by decide

theorem witness_IgnFollowsItsRule :
    decoding.busy = true ∧ State.reset.busy = false ∧
      answers (commandWrite 0x13 State.reset) (fun t => t.dout == 0x41414141) = true := by decide

/-! ### The buffer commands -/

theorem witness_EncodeLengthLimit :
    let s := running .enc 0xBFFFFFFE 0 []
    let s := { s with started := false }
    s.phase = .enc ∧ s.started = false ∧ 0xBFFFFFFD < s.len.toNat := by decide

theorem witness_DecodeLengthCheck :
    let s := fun len : Word => { running .dec len 0 [] with started := false }
    ((s 0).phase = .dec ∧ (s 0).started = false ∧ (s 0).len.toNat = 0) ∧
      (s 0xFFFFFFFF).len.toNat % 4 ≠ 0 ∧
      (s 5).platform.memOk (s 5).dst .write = true ∧
      (denying (s 5) [(0x20, .write)]).platform.memOk 0x20 .write = false := by decide

theorem witness_EncodeOfNothing :
    (denying (idleWith 0) [(0x10, .read)]).len = 0 ∧
      (denying (idleWith 0) [(0x10, .read)]).platform.memOk 0x20 .write = true := by decide

theorem witness_EncodeRunSucceeds :
    (idleWith 0xBFFFFFFD).NoBusErrors ∧ (idleWith 0xBFFFFFFD).len.toNat ≤ Config.encMaxLen ∧
      (idleWith 0).len.toNat ≤ Config.encMaxLen := by decide

/-- A buffer of up to 12 bytes at 0x10 does not meet one of up to 16 bytes at 0x20. -/
theorem disjoint_of_short (s : State) (n : Nat) (h0 : s.src = 0x10) (h1 : s.dst = 0x20)
    (h2 : s.len.toNat ≤ 12) (h3 : n ≤ 16) : s.Disjoint n := by
  intro a h
  simp only [State.inInput, inRange, decide_eq_true_eq, decide_eq_false_iff_not, h0, h1] at h ⊢
  have := a.isLt
  rw [BitVec.toNat_sub] at h ⊢
  simp at h ⊢
  omega

theorem witness_EncodeRunWritesEncoding :
    (idleWith 6).NoBusErrors ∧ (idleWith 6).len.toNat ≤ Config.encMaxLen ∧
      (idleWith 6).Disjoint (4 * ceilDiv (idleWith 6).len.toNat 3 + 1) :=
  ⟨by decide, by decide, disjoint_of_short _ _ rfl rfl (by decide) (by decide)⟩

theorem witness_DecodeRunRefinesTransform :
    (idleWith 8).NoBusErrors ∧ (idleWith 8).decodeLenOk = true ∧
      (idleWith 8).Disjoint (3 * ((idleWith 8).len.toNat / 4) + 1) :=
  ⟨by decide, by decide, disjoint_of_short _ _ rfl rfl (by decide) (by decide)⟩

theorem witness_DecodeRunRefinesTransform_inPlace :
    let s := { idleWith 0xFFFFFFFC with dst := 0x10 }
    s.NoBusErrors ∧ s.decodeLenOk = true ∧ s.dst = s.src := by decide

theorem witness_EngineRoundTrip :
    let s := idleWith 3
    let e := (s.startBuffer .enc).engineSteps 3
    let u := { e with src := s.dst, len := e.rlen, dst := 0x40 }
    s.NoBusErrors ∧ s.len ≠ 0 ∧ s.len.toNat ≤ Config.encMaxLen ∧
      s.Disjoint (4 * ceilDiv s.len.toNat 3 + 1) ∧ ceilDiv s.len.toNat 3 + 2 = 3 ∧
      u.Disjoint (3 * ceilDiv s.len.toNat 3 + 1) := by
  refine ⟨by decide, by decide, by decide,
    disjoint_of_short _ _ rfl rfl (by decide) (by decide), by decide, fun a h => ?_⟩
  have hl : ((idleWith 3).startBuffer .enc |>.engineSteps 3).rlen = 4 := by decide
  simp only [State.inInput, inRange, decide_eq_true_eq, decide_eq_false_iff_not, hl] at h ⊢
  have := a.isLt
  rw [BitVec.toNat_sub] at h ⊢
  simp [idleWith, ceilDiv] at h ⊢
  omega

theorem witness_ReadBusErrorStops :
    let e := denying encoding [(0x12, .read)]
    let d := denying decoding [(0x13, .read)]
    (e.started = true ∧ e.g < e.groups ∧ e.phase = .enc ∧
        ∃ i, i < 3 ∧ 3 * e.g.toNat + i < e.len.toNat ∧
          e.platform.memOk (e.src + 3 * e.g + BitVec.ofNat 32 i) .read = false) ∧
      (d.started = true ∧ d.g < d.groups ∧ d.phase = .dec ∧
        ∃ i, i < 4 ∧ d.platform.memOk (d.src + 4 * d.g + BitVec.ofNat 32 i) .read = false) :=
  ⟨⟨by decide, by decide, by decide, 2, by decide⟩, by decide, by decide, by decide, 3, by decide⟩

/-- Three bytes of which the last is denied, and of which none is. -/
theorem witness_MemoryPortPrimitives :
    (2 < 3 ∧ (denying encoding [(0x12, .read)]).platform.memOk (0x10 + BitVec.ofNat 32 2) .read =
        false) ∧
      (∀ i, i < 3 → encoding.platform.memOk (0x10 + BitVec.ofNat 32 i) .read = true) ∧
      encoding.platform.memOk 0x10 .write = true ∧
      (denying encoding [(0x10, .write)]).platform.memOk 0x10 .write = false := by
  refine ⟨by decide, fun i _ => ?_, by decide, by decide⟩
  exact Platform.memOk_of_denied rfl _ _

theorem witness_WriteBusErrorKeepsEarlierBytes :
    let s := denying encoding [(0x23, .write)]
    let first := denying encoding [(0x20, .write)]
    [(1 : Byte), 2, 3, 4].length ≤ 4 ∧ (s.writeBytes 0x20 [1, 2, 3, 4]).2 = false ∧
      (first.writeBytes 0x20 [1]).2 = false ∧
      (encoding.writeBytes 0x20 [1, 2, 3, 4]).2 = true := by decide

/-- ENCODE's only group with its last byte denied; DECODE's first group with its first byte denied. -/
theorem witness_WriteBusErrorKeepsEarlierBytes_step :
    let e := denying encoding [(0x23, .write)]
    let d := denying decoding [(0x20, .write)]
    let q : Quad := ⟨0x5A, 0x6D, 0x39, 0x76⟩
    (e.started = true ∧ e.g < e.groups ∧ e.phase = .enc ∧
        3 = min 3 (e.len.toNat - 3 * e.g.toNat) ∧
        e.readBytes 3 (e.src + 3 * e.g) = some ([0, 0, 0].take 3) ∧
        (e.writeBytes (e.dst + 4 * e.g) (encGroup 3 0 0 0).bytes).2 = false) ∧
      (d.started = true ∧ d.g < d.groups ∧ d.phase = .dec ∧
        d.readBytes 4 (d.src + 4 * d.g) = some q.bytes ∧
        decGroup (d.g == d.groups - 1) q = .ok [0x66, 0x6F, 0x6F] ∧
        (d.writeBytes (d.dst + d.olen) [0x66, 0x6F, 0x6F]).2 = false) := by decide

/-- Both commands after their last group, with the terminator's address allowed and denied. -/
theorem witness_TerminatorStepFinishes :
    let e := encoding.engineStep
    let d := decoding.engineStep.engineStep
    (e.started = true ∧ ¬ e.g < e.groups ∧ e.phase = .enc ∧
        e.platform.memOk (e.dst + 4 * e.groups) .write = true) ∧
      (d.started = true ∧ ¬ d.g < d.groups ∧ d.phase = .dec ∧
        (denying d [(0x24, .write)]).platform.memOk (d.dst + d.olen) .write = false) := by decide

theorem witness_ResetValues :
    answers (hostStep (.reset 0) { decoding with ops := [.access ⟨4, 4, 1, .read⟩] })
      (fun t => t.ops == .access ⟨4, 4, 1, .read⟩ :: []) = true := by decide

theorem witness_DecodeGroupStep :
    let s := running .dec 8 2 [(0x10, 0x5A), (0x11, 0x6D), (0x12, 0x39), (0x13, 0x76)]
    let q : Quad := ⟨0x5A, 0x6D, 0x39, 0x76⟩
    s.phase = .dec ∧ s.started = true ∧ s.g < s.groups ∧
      s.readBytes 4 (s.src + 4 * s.g) = some q.bytes ∧
      (s.g == s.groups - 1) = false ∧
      decGroup (s.g == s.groups - 1) q = .ok [0x66, 0x6F, 0x6F] ∧
      (s.writeBytes (s.dst + s.olen) [0x66, 0x6F, 0x6F]).2 = true := by decide

theorem witness_DecodeGroupStep_failure :
    let s := running .dec 4 1 [(0x10, 0x5A), (0x11, 0x3D), (0x12, 0x3D), (0x13, 0x3D)]
    let q : Quad := ⟨0x5A, 0x3D, 0x3D, 0x3D⟩
    s.phase = .dec ∧ s.started = true ∧ s.g < s.groups ∧
      s.readBytes 4 (s.src + 4 * s.g) = some q.bytes ∧
      (s.g == s.groups - 1) = true ∧
      decGroup (s.g == s.groups - 1) q = .error .misplacedPad := by decide

theorem witness_EncodeGroupStep :
    let s := running .enc 2 1 [(0x10, 0x66), (0x11, 0x6F)]
    s.phase = .enc ∧ s.started = true ∧ s.g < s.groups ∧
      2 = min 3 (s.len.toNat - 3 * s.g.toNat) ∧
      s.readBytes 2 (s.src + 3 * s.g) = some ([0x66, 0x6F, 0x00].take 2) ∧
      (s.writeBytes (s.dst + 4 * s.g) (encGroup 2 0x66 0x6F 0x00).bytes).2 = true := by decide

theorem decoding_legal : decoding.EngineLegal :=
  ⟨by decide, by decide, by decide, by decide, by decide, by decide⟩

theorem encoding_legal : encoding.EngineLegal :=
  ⟨by decide, by decide, by decide, by decide, by decide, by decide⟩

/-- The last byte of the output range is in it, the next one is not; and the command goes on. -/
theorem witness_EngineWritesOnlyOutputRange :
    encoding.EngineLegal ∧ encoding.inOutput 0x24 = true ∧ encoding.inOutput 0x25 = false ∧
      decoding.EngineLegal ∧ decoding.inOutput 0x24 = true ∧ decoding.inOutput 0x25 = false ∧
      encoding.engineStep.phase ≠ .idle ∧ decoding.engineStep.phase ≠ .idle :=
  ⟨encoding_legal, by decide, by decide, decoding_legal, by decide, by decide, by decide, by decide⟩

/-- A DECODE that fails in its group 1 writes the 3 bytes of group 0 alone (R88). -/
theorem witness_EngineWritesOnlyOutputRange_failing :
    let s := { decoding with mem := decoding.mem.take 6 }
    s.EngineLegal ∧ s.inOutput 0x22 = true ∧ s.inOutput 0x23 = false ∧
      s.engineStep.phase ≠ .idle := by
  refine ⟨⟨?_, ?_, ?_, ?_, ?_, ?_⟩, ?_, ?_, ?_⟩ <;> decide

theorem witness_EngineReadsOnlyInputRange :
    encoding.EngineLegal ∧
      ∀ a : Word, encoding.inInput a = true →
        Memory.read [(0x13, (7 : Byte))] a.toNat = encoding.byteAt a := by
  refine ⟨encoding_legal, fun a h => ?_⟩
  have hr : encoding.byteAt a = 0 := rfl
  rw [hr]
  have hne : ¬0x13 = a.toNat := by
    intro ha
    have : a = 0x13 := BitVec.eq_of_toNat_eq (by simpa using ha.symm)
    subst this
    exact absurd h (by decide)
  simp [Memory.read, hne, Memory.unlisted]

theorem witness_BufferCommandTerminates :
    (Phase.enc = .enc ∨ Phase.enc = .dec) ∧ (Phase.dec = .enc ∨ Phase.dec = .dec) := by decide

theorem witness_StepsRunTheEngine : decoding.ops = [] := by decide

/-- A step of the engine, one of them with a reset pending, and a write that is dropped. -/
theorem witness_OperandsHoldStillWhileBusy :
    decoding.busy = true ∧ step decoding = .next decoding.engineStep ∧
      State.mover { decoding with ops := [.reset 0], sched := [] } = .engine ∧
      answers (step { decoding with
        ops := [.access ⟨0x10, 4, 1, .write 0x9000⟩], sched := [.host] })
        (fun t => t.status == 5) = true := ⟨by decide, rfl, by decide, by decide⟩

/-! ### The register port and the host -/

theorem witness_RegisterReads :
    (0x00 : BitVec 8).extractLsb' 0 2 = 0 ∧ (0x24 : BitVec 8).extractLsb' 0 2 = 0 ∧
      (0xFC : BitVec 8).extractLsb' 0 2 = 0 := by decide

theorem witness_RegisterWrites :
    State.reset.busy = false ∧ decoding.busy = true ∧
      ((0x28 : BitVec 8).extractLsb' 0 2 = 0 ∧ (0x28 : BitVec 8) ≠ 0x00 ∧
        (0x28 : BitVec 8) ≠ 0x08 ∧ (0x28 : BitVec 8) ≠ 0x10 ∧ (0x28 : BitVec 8) ≠ 0x14 ∧
        (0x28 : BitVec 8) ≠ 0x18) := by decide

/-- A byte access, a burst, a misaligned access, and the first address past the window. -/
theorem witness_UnservedAccessAnswersError :
    let a : BusAccess := ⟨0x04, 1, 1, .read⟩
    let b : BusAccess := ⟨0x04, 4, 2, .read⟩
    let c : BusAccess := ⟨0x05, 4, 1, .read⟩
    let d : BusAccess := ⟨0x100, 4, 1, .read⟩
    a.size ≠ 4 ∧ b.beats ≠ 1 ∧ c.addr.toNat % 4 ≠ 0 ∧
      d.addr.toNat / 256 ≠ State.reset.platform.base.toNat / 256 := by decide

/-- The last byte of the input and the bytes around the output range of a running DECODE, whose last
group is padded. -/
theorem witness_HostMemoryAccess :
    decoding.busy = true ∧ decoding.inInput 0x17 = true ∧ decoding.inInput 0x18 = false ∧
      decoding.inOutput 0x18 = false ∧ decoding.inOutput 0x1F = false ∧
      decoding.inOutput 0x20 = true ∧ decoding.inOutput 0x24 = true ∧
      decoding.inOutput 0x25 = false ∧ State.reset.busy = false := by decide

theorem witness_OnlyHostDutyRefuses :
    step { decoding with ops := [.memRead 0x20], sched := [.host] } =
        .refused .hostTouchesRunningBuffer ∧
      step { decoding with ops := [.memWrite 0x17 1], sched := [.host] } =
        .refused .hostTouchesRunningBuffer := ⟨rfl, rfl⟩

theorem witness_PollTerminates :
    let s := { decoding with ops := [.poll, .reset 0], sched := [.host, .engine] }
    s.EngineLegal ∧ s.ops = .poll :: [.reset 0] :=
  ⟨decoding_legal, rfl⟩

theorem witness_PseudoInstructionExpansions :
    Instr.immediate .enc1 = true ∧ decoding.status.getLsbD 0 = true ∧
      State.reset.status.getLsbD 0 = false := by decide

theorem witness_WriteSequenceRecordsMemory :
    encoding.MemoryCanonical ∧ encoding.engineStep.phase ≠ .idle ∧
      encoding.engineStep.undo.length = 4 := by decide

/-- ENCODE of 3 bytes with DST + 2 denied: in its group step 2 writes can have landed, so a reset can
leave 0, 1 or 2 of them (R108). -/
theorem witness_ResetAborts_bus_error :
    let s := denying encoding [(0x22, .write)]
    s.busy = true ∧ (s.midStep 0).undo.length = 0 ∧ (s.midStep 1).undo.length = 1 ∧
      (s.midStep 2).undo.length = 2 ∧ (s.midStep 9).undo.length = 2 ∧ s.engineStep.busy = false := by
  decide

/-- V148: a reset between group 0's four writes and group 1 draws over those four writes alone. -/
theorem witness_ResetAborts_between_steps :
    let s := (running .enc 6 2 []).engineStep
    s.busy = true ∧ (s.midStep 0).undo.map (·.1) = [0x23, 0x22, 0x21, 0x20] := by decide

/-! ### The invariants -/

theorem witness_StepKeepsMemoryCanonical :
    encoding.MemoryCanonical ∧ step encoding = .next encoding.engineStep :=
  ⟨by decide, rfl⟩

theorem witness_StepKeepsStatusLegal :
    decoding.StatusLegal ∧ step decoding = .next decoding.engineStep := ⟨by decide, rfl⟩

theorem witness_StepKeepsEngineLegal :
    decoding.EngineLegal ∧ step decoding = .next decoding.engineStep := ⟨decoding_legal, rfl⟩

theorem witness_ErrorStaysUntilNextCommand :
    let s := { State.reset with status := 0x12, ops := [.poll] }
    s.EngineLegal ∧ s.busy = false ∧
      answers (step s) (fun t => t.status == 0x12 && t.ops == []) = true :=
  ⟨⟨by decide, by decide, by decide, by decide, by decide, by decide⟩, by decide, by decide⟩

end Sys2Proof.Tests
end

section
/-! PROOF. The platform's parameters (R6, R12): no operation of the block or of the host writes them. -/

namespace Sys2Proof.Machine

/-- A register write stores an operand or changes STATUS (R16). -/
@[simp] theorem State.writeReg_platform (s : State) (r : Reg) (v : Word) :
    (s.writeReg r v).platform = s.platform := by
  rcases s.writeReg_cases r v with e | ⟨_, e⟩ | ⟨_, e | e | e | e⟩ <;> rw [e]
  exact s.dropWrite_platform

/-- A command writes registers of the block and the engine's progress alone (R58, R73, R87). -/
theorem CommandEffect.platform_eq {s t : State} (h : CommandEffect s t) :
    t.platform = s.platform := by
  cases h with
  | complete d n _ => exact s.complete_platform d n
  | fail e _ => exact s.fail_platform e
  | start p _ => exact s.startBuffer_platform p

/-- An engine step reads MEM_OK and writes it nowhere (R14, R36). -/
@[simp] theorem State.engineStep_platform (s : State) :
    s.engineStep.platform = s.platform :=
  State.engineStep_ind (P := fun t => t.platform = s.platform) rfl
    (finish := fun e c r grp => s.finish_platform e c r grp)
    (finishAfter := fun a bs _ _ _ _ => s.writeBytes_platform a bs)
    (begin := fun k => s.begin_platform k)
    (next := fun a bs _ => s.writeBytes_platform a bs)

/-- Settles O57: each kind of step keeps the platform, so `step_keeps` gives it for every step. -/
theorem stepKeepsPlatform : Obligations.StepKeepsPlatform := by
  unfold Obligations.StepKeepsPlatform
  intro s t h
  refine step_keeps (fun u => u.platform = s.platform) ?answer ?ops ?turn ?drop ?store ?illegal
    ?command ?put ?reset ?engine s t rfl h
  case command => exact fun _ _ _ effect hu => effect.platform_eq.trans hu
  case engine => exact fun u hu => u.engineStep_platform.trans hu
  case store => exact fun u r v _ hu => (u.writeReg_platform r v).trans hu
  case turn => exact fun u hu => u.takeTurn_platform.trans hu
  case answer => exact fun u r hu => (u.answer_platform r).trans hu
  case ops => exact fun u o hu => (u.withOps_platform o).trans hu
  case drop => exact fun u _ hu => u.dropWrite_platform.trans hu
  case illegal => exact fun u _ hu => u.illegal_platform.trans hu
  case put => exact fun u a b hu => (u.putByte_platform a b).trans hu
  case reset => exact fun u n hu => (u.resetBlock_platform n).trans hu

end Sys2Proof.Machine
end

section
/-! PROOF. What an engine step can do and what it keeps (R14, R26, R27, R73, R74, R87). -/

namespace Sys2Proof.Machine

/-! ### What it keeps -/

/-- What `finish`, the writes, the start of the groups and the move to the next group all keep, an
engine step keeps. -/
theorem State.engineStep_keeps {α : Type} (f : State → α)
    (finish : ∀ (u : State) e c r grp, f (u.finish e c r grp) = f u)
    (write : ∀ (u : State) a bs, f (u.writeBytes a bs).1 = f u)
    (begin : ∀ (u : State) k, f (u.begin k) = f u)
    (next : ∀ (u : State) k, f (u.nextGroup k) = f u) (s : State) :
    f s.engineStep = f s :=
  State.engineStep_ind (P := fun t => f t = f s) rfl
    (finish := finish s)
    (finishAfter := fun a bs e c r grp => (finish _ e c r grp).trans (write s a bs))
    (begin := begin s)
    (next := fun a bs k => (next _ k).trans (write s a bs))

section
variable (s : State)

@[simp] theorem State.engineStep_din : s.engineStep.din = s.din :=
  State.engineStep_keeps State.din (by simp) (by simp) (by simp) (by simp) s
@[simp] theorem State.engineStep_dout : s.engineStep.dout = s.dout :=
  State.engineStep_keeps State.dout (by simp) (by simp) (by simp) (by simp) s
@[simp] theorem State.engineStep_src : s.engineStep.src = s.src :=
  State.engineStep_keeps State.src (by simp) (by simp) (by simp) (by simp) s
@[simp] theorem State.engineStep_dst : s.engineStep.dst = s.dst :=
  State.engineStep_keeps State.dst (by simp) (by simp) (by simp) (by simp) s
@[simp] theorem State.engineStep_len : s.engineStep.len = s.len :=
  State.engineStep_keeps State.len (by simp) (by simp) (by simp) (by simp) s
@[simp] theorem State.engineStep_ops : s.engineStep.ops = s.ops :=
  State.engineStep_keeps State.ops (by simp) (by simp) (by simp) (by simp) s
@[simp] theorem State.engineStep_sched : s.engineStep.sched = s.sched :=
  State.engineStep_keeps State.sched (by simp) (by simp) (by simp) (by simp) s
@[simp] theorem State.engineStep_heard : s.engineStep.heard = s.heard :=
  State.engineStep_keeps State.heard (by simp) (by simp) (by simp) (by simp) s
@[simp] theorem State.engineStep_draws : s.engineStep.draws = s.draws :=
  State.engineStep_keeps State.draws (by simp) (by simp) (by simp) (by simp) s
/-- IGN stays as it was even when the command finishes (R74). -/
@[simp] theorem State.engineStep_ign : statusIgn s.engineStep.status = statusIgn s.status :=
  State.engineStep_keeps (fun u => statusIgn u.status) (by simp) (by simp) (by simp) (by simp) s

end

/-- Settles O42: each field in turn is kept by everything an engine step is made of. -/
theorem engineStepFrame : Obligations.EngineStepFrame := by
  unfold Obligations.EngineStepFrame
  intro s
  exact ⟨s.engineStep_din, s.engineStep_dout, s.engineStep_src, s.engineStep_dst,
    s.engineStep_len, s.engineStep_ign, s.engineStep_platform, s.engineStep_ops,
    s.engineStep_sched, s.engineStep_heard, s.engineStep_draws⟩

/-! ### What it can do -/

/-- The length that the start step accepts (R72, R85). -/
def State.LengthAccepted (s : State) : Prop :=
  match s.phase with
  | .idle => False
  | .enc => s.len.toNat ≤ Config.encMaxLen
  | .dec => s.decodeLenOk = true

/-- How many bytes a group step may write (R73, R78, R79). -/
def State.GroupWrites (s : State) (k : Nat) : Prop :=
  match s.phase with
  | .idle => False
  | .enc => k = 4
  | .dec => 1 ≤ k ∧ k ≤ 3 ∧ (s.lastGroup = false → k = 3)

/-- What an engine step turns the state of a running command into: the command finishes, after
writes or without any; the start step fixes `G`; or a group is done, all of its bytes written. -/
inductive EngineEffect (s : State) : State → Prop where
  | finish (a : Word) (bs : List Byte) (err : Bool) (code : ErrCode) (rlen grp : Word)
      (hcode : err = false ↔ code = .none) :
      EngineEffect s ((s.writeBytes a bs).1.finish err code rlen grp)
  | begin (hstart : s.started = false) (hlen : s.LengthAccepted) :
      EngineEffect s (s.begin s.groupCount)
  | next (a : Word) (bs : List Byte) (hstart : s.started = true) (hg : s.g < s.groups)
      (hdone : (s.writeBytes a bs).2 = true) (hk : s.GroupWrites bs.length) :
      EngineEffect s ((s.writeBytes a bs).1.nextGroup bs.length)

section
variable {s : State}

/-- A move that finishes without writes has that effect. -/
theorem EngineEffect.quiet_finish {err : Bool} {code : ErrCode} {rlen grp : Word}
    (hcode : err = false ↔ code = .none) :
    EngineEffect s (s.performMove (.quiet (.finish err code rlen grp))) :=
  .finish 0 [] err code rlen grp hcode

/-- A move that writes and finishes does so with its own code or with BUS_ERROR (R94). -/
theorem EngineEffect.write_finish {a : Word} {bs : List Byte} {g : Word} {err : Bool}
    {code : ErrCode} {rlen grp : Word} (hcode : err = false ↔ code = .none) :
    EngineEffect s (s.performMove ⟨a, bs, g, .finish err code rlen grp⟩) := by
  rcases s.performMove_cases ⟨a, bs, g, .finish err code rlen grp⟩ with ⟨_, e⟩ | ⟨_, e⟩ <;> rw [e]
  · exact .finish a bs err code rlen grp hcode
  · exact .finish a bs true .busError 0 g (by simp)

/-- A group's move goes on to the next group or finishes with BUS_ERROR (R94). -/
theorem EngineEffect.write_next {a : Word} {bs : List Byte} {g : Word} (hstart : s.started = true)
    (hg : s.g < s.groups) (hk : s.GroupWrites bs.length) :
    EngineEffect s (s.performMove ⟨a, bs, g, .next bs.length⟩) := by
  rcases s.performMove_cases ⟨a, bs, g, .next bs.length⟩ with ⟨hdone, e⟩ | ⟨_, e⟩ <;> rw [e]
  · exact .next a bs hstart hg hdone hk
  · exact .finish a bs true .busError 0 g (by simp)

theorem EngineEffect.encodeStart (hp : s.phase = .enc) (hs : s.started = false) :
    EngineEffect s (s.performMove s.encodeStart) := by
  unfold State.encodeStart
  split
  · exact .quiet_finish (by simp)
  · next hlen =>
    have hG : s.groupCount = ceilDiv s.len.toNat 3 := by simp [State.groupCount, hp]
    rw [← hG]
    exact .begin hs (by simpa [State.LengthAccepted, hp] using hlen)

theorem EngineEffect.encodeGroup (hp : s.phase = .enc) (hs : s.started = true)
    (hg : s.g < s.groups) : EngineEffect s (s.performMove s.encodeGroup) := by
  unfold State.encodeGroup
  split
  · exact .quiet_finish (by simp)
  · exact .write_next hs hg (by simp [State.GroupWrites, hp, Quad.bytes_length])

theorem EngineEffect.decodeStart (hp : s.phase = .dec) (hs : s.started = false) :
    EngineEffect s (s.performMove s.decodeStart) := by
  unfold State.decodeStart
  split
  · next hlen =>
    have hG : s.groupCount = s.len.toNat / 4 := by simp [State.groupCount, hp]
    rw [← hG]
    exact .begin hs (by simpa [State.LengthAccepted, hp] using hlen)
  · exact .write_finish (by simp)

theorem EngineEffect.decodeGroup (hp : s.phase = .dec) (hs : s.started = true)
    (hg : s.g < s.groups) : EngineEffect s (s.performMove s.decodeGroup) := by
  unfold State.decodeGroup
  split
  · exact .quiet_finish (by simp)
  · split
    · next hcode =>
      exact .quiet_finish (by rcases decGroup_code hcode with rfl | rfl <;> simp)
    · next hout =>
      exact .write_next hs hg (by simpa only [State.GroupWrites, hp] using decGroup_length hout)

/-- Everything an engine step of a running command can do (R73, R74, R87). -/
theorem State.engineStep_effect (hp : s.phase ≠ .idle) : EngineEffect s s.engineStep := by
  cases h : s.phase with
  | idle => exact absurd h hp
  | enc =>
    rw [State.engineStep_enc h]
    rcases s.encodeMove_cases with ⟨hs, e⟩ | ⟨hs, hg, e⟩ | ⟨_, _, e⟩ <;> rw [e]
    · exact .encodeStart h hs
    · exact .encodeGroup h hs hg
    · exact .write_finish (by simp)
  | dec =>
    rw [State.engineStep_dec h]
    rcases s.decodeMove_cases with ⟨hs, e⟩ | ⟨hs, hg, e⟩ | ⟨_, _, e⟩ <;> rw [e]
    · exact .decodeStart h hs
    · exact .decodeGroup h hs hg
    · exact .write_finish (by simp)

end

end Sys2Proof.Machine
end

section
/-! PROOF. The engine is done in the end (R14, R116), and the machine left alone runs it. -/

namespace Sys2Proof.Machine

/-! ### Termination -/

/-- The command is over: the engine is idle and BUSY is 0 (R74). -/
def State.Over (s : State) : Prop := s.phase = .idle ∧ s.busy = false

theorem State.Over.engineSteps {s : State} (h : s.Over) (n : Nat) : (s.engineSteps n).Over := by
  rwa [State.engineSteps_idle h.1]

theorem State.finish_over (s : State) (e : Bool) (c : ErrCode) (r grp : Word) :
    (s.finish e c r grp).Over := ⟨rfl, s.finish_busy e c r grp⟩

/-- `g` does not wrap while there is a group left. -/
theorem toNat_succ_of_lt {g G : Word} (h : g < G) : (g + 1).toNat = g.toNat + 1 := by
  bv_omega

/-- With at most `n` groups left, a started command is over after their steps and the terminator
step, or earlier on an error. -/
theorem State.engineSteps_over_of_started {s : State} (n : Nat) (hp : s.phase ≠ .idle)
    (hs : s.started = true) (hn : s.groups.toNat ≤ s.g.toNat + n) :
    (s.engineSteps (n + 1)).Over := by
  induction n generalizing s with
  | zero =>
    have effect := s.engineStep_effect hp
    rw [State.engineSteps]
    generalize s.engineStep = t at effect
    cases effect with
    | finish => exact (State.finish_over ..).engineSteps 0
    | begin hstart => simp [hs] at hstart
    | next a bs _ hg => bv_omega
  | succ n ih =>
    have effect := s.engineStep_effect hp
    rw [State.engineSteps]
    generalize s.engineStep = t at effect
    cases effect with
    | finish => exact (State.finish_over ..).engineSteps _
    | begin hstart => simp [hs] at hstart
    | next a bs _ hg =>
      refine ih (by simpa using hp) (by simpa using hs) ?_
      have hsucc := toNat_succ_of_lt hg
      simp only [State.nextGroup_groups, State.nextGroup_g, State.writeBytes_groups,
        State.writeBytes_g]
      omega

/-- An accepted command is over after its start step, its groups and the terminator step. -/
theorem State.engineSteps_over_of_start {s : State} (hp : s.phase ≠ .idle)
    (hs : s.started = false) :
    (s.engineSteps (s.groupCount + 2)).Over := by
  have effect := s.engineStep_effect hp
  rw [State.engineSteps]
  generalize s.engineStep = t at effect
  cases effect with
  | finish => exact (State.finish_over ..).engineSteps _
  | begin =>
    refine State.engineSteps_over_of_started s.groupCount hp rfl ?_
    have : s.groupCount % 2 ^ 32 ≤ s.groupCount := Nat.mod_le _ _
    simp only [State.begin_groups, BitVec.toNat_ofNat]
    omega
  | next a bs hstart => simp [hs] at hstart

/-- Settles O38: one start step, at most one step for each group, and the terminator step. -/
theorem bufferCommandTerminates : Obligations.BufferCommandTerminates := by
  unfold Obligations.BufferCommandTerminates
  intro s p hp
  have hrun : (s.startBuffer p).phase ≠ .idle := by rcases hp with rfl | rfl <;> simp
  exact State.engineSteps_over_of_start hrun rfl

/-! ### The machine left alone (logs 6 and 17) -/

theorem step_of_no_ops {s : State} (h : s.ops = []) : step s = .next s.engineStep := by
  by_cases hp : s.phase = .idle
  · simp [step, advance, State.mover_idle hp, h, State.engineStep_idle hp]
  · rw [step_engine (State.mover_alone hp h), State.takeTurn_alone h]

/-- A run goes on from the state that its first step answers. -/
theorem run_succ_of_step (M : Host.Core) (n : Nat) {s t : M.State} (h : M.step s = .next t) :
    M.run (n + 1) s = M.run n t := by
  simp only [Host.Core.run, h]

/-- Settles O39, by induction on the number of steps. -/
theorem stepsRunTheEngine : Obligations.StepsRunTheEngine := by
  unfold Obligations.StepsRunTheEngine
  intro s n h
  induction n generalizing s with
  | zero => rfl
  | succ n ih =>
    exact (run_succ_of_step core n (step_of_no_ops h)).trans
      (ih s.engineStep (s.engineStep_ops.trans h))

end Sys2Proof.Machine
end

section
/-! PROOF. STATUS keeps a legal word (R18 to R23). -/

namespace Sys2Proof.Machine

/-- The law speaks of STATUS alone. -/
theorem State.StatusLegal.congr {s t : State} (h : s.StatusLegal) (e : t.status = s.status) :
    t.StatusLegal := by
  unfold State.StatusLegal State.busy at h ⊢
  rwa [e]

/-- A written word is legal when its fields are. -/
theorem State.statusLegal_of_word {s : State} {busy err ign : Bool} {code : ErrCode}
    {count : BitVec 3} (e : s.status = statusWord busy err ign code.bits count)
    (hcode : err = false ↔ code = .none) (hcount : count.toNat ≤ 4)
    (herr : err = true → count = 0) (hbusy : busy = true → err = false ∧ count = 0) :
    s.StatusLegal := by
  have hbits : code.bits.toNat ≤ 5 := by cases code <;> decide
  have hnone : code.bits = 0 ↔ code = .none := by cases code <;> decide
  unfold State.StatusLegal State.busy
  rw [e, statusBusy_statusWord, statusErr_statusWord, statusCode_statusWord,
    statusCount_statusWord, statusWord_bit3, statusWord_high, hnone]
  exact ⟨rfl, rfl, hbits, hcode, hcount, herr, hbusy⟩

/-- A dropped write sets IGN, which no clause of the law reads. -/
theorem State.StatusLegal.dropWrite {s : State} (h : s.StatusLegal) :
    s.dropWrite.StatusLegal := by
  unfold State.StatusLegal at h ⊢
  rwa [State.dropWrite_busy, State.dropWrite_status, withIgn_bit3, withIgn_high,
    statusCode_withIgn, statusErr_withIgn, statusCount_withIgn]

theorem State.statusLegal_finish (s : State) {e : Bool} {c : ErrCode} (r grp : Word)
    (hcode : e = false ↔ c = .none) : (s.finish e c r grp).StatusLegal :=
  State.statusLegal_of_word rfl hcode (by decide) (by simp) (by simp)

theorem CommandEffect.statusLegal {s t : State} (h : CommandEffect s t) : t.StatusLegal := by
  cases h with
  | complete d n hn => exact State.statusLegal_of_word rfl (by simp) hn (by simp) (by simp)
  | fail e he =>
    exact State.statusLegal_of_word rfl (by rcases he with rfl | rfl <;> simp) (by decide)
      (by simp) (by simp)
  | start p _ => exact State.statusLegal_of_word rfl (by simp) (by decide) (by simp) (by simp)

theorem State.statusLegal_illegal (s : State) : s.illegal.StatusLegal :=
  State.statusLegal_of_word rfl (by simp) (by decide) (by simp) (by simp)

theorem State.statusLegal_resetBlock (s : State) (n : Nat) : (s.resetBlock n).StatusLegal := by
  have hword : (s.resetBlock n).status = statusWord false false false ErrCode.none.bits 0 := by
    rw [State.resetBlock_status]; decide
  exact State.statusLegal_of_word hword (by simp) (by decide) (by simp) (by simp)

/-- An engine step leaves STATUS alone until it finishes the command. -/
theorem State.StatusLegal.engineStep {s : State} (h : s.StatusLegal) :
    s.engineStep.StatusLegal := by
  by_cases hp : s.phase = .idle
  · rwa [State.engineStep_idle hp]
  · have effect := s.engineStep_effect hp
    generalize s.engineStep = t at effect
    cases effect with
    | finish a bs _ _ r grp hcode => exact State.statusLegal_finish _ r grp hcode
    | begin => exact h.congr rfl
    | next a bs => exact h.congr (s.writeBytes_status a bs)

/-- A register write stores an operand, or is dropped. -/
theorem State.StatusLegal.writeReg {s : State} (h : s.StatusLegal) (r : Reg) (v : Word) :
    (s.writeReg r v).StatusLegal := by
  rcases s.writeReg_cases r v with e | ⟨_, e⟩ | ⟨_, e | e | e | e⟩ <;> rw [e]
  case inr.inl => exact h.dropWrite
  all_goals exact h.congr rfl

/-- Settles O54: each way of writing STATUS writes a legal word, and no other step writes it. -/
theorem stepKeepsStatusLegal : Obligations.StepKeepsStatusLegal := by
  unfold Obligations.StepKeepsStatusLegal
  refine step_keeps State.StatusLegal ?answer ?ops ?turn ?drop ?store ?illegal ?command ?put
    ?reset ?engine
  case drop => exact fun _ _ h => h.dropWrite
  case store => exact fun _ r v _ h => h.writeReg r v
  case illegal => exact fun s _ _ => s.statusLegal_illegal
  case command => exact fun _ _ _ effect _ => effect.statusLegal
  case engine => exact fun _ h => h.engineStep
  case reset => exact fun s n _ => s.statusLegal_resetBlock n
  case turn => exact fun s h => h.congr s.takeTurn_status
  case answer => exact fun _ _ h => h.congr rfl
  case ops => exact fun _ _ h => h.congr rfl
  case put => exact fun _ _ _ h => h.congr rfl

end Sys2Proof.Machine
end

section
/-! PROOF. The engine's progress stays legal (R14, R28, R29, R72, R86; logs 3 and 4). -/

namespace Sys2Proof.Machine

/-- An idle engine at rest, with BUSY 0, is legal. -/
theorem State.engineLegal_of_idle {s : State} (hp : s.phase = .idle) (hb : s.busy = false)
    (hs : s.started = false) (hrest : s.EngineAtRest) : s.EngineLegal := by
  refine ⟨by simp [hp, hb], fun _ => hrest, fun _ => hs, fun h => absurd hp h, ?_, ?_⟩ <;>
    simp [hp]

/-- With BUSY 0 the engine is idle and holds its idle values (R14). -/
theorem State.EngineLegal.rest_of_not_busy {s : State} (h : s.EngineLegal)
    (hb : s.busy = false) : s.phase = .idle ∧ s.started = false ∧ s.EngineAtRest := by
  obtain ⟨hbusy, hrest, hidle, _⟩ := h
  have hp : s.phase = .idle := by
    by_contra hp
    simp [hbusy.2 hp] at hb
  exact ⟨hp, hidle hp, hrest (hidle hp)⟩

/-! ### Commands and register writes -/

/-- While BUSY is 0 a write of operands, DOUT and STATUS alone keeps the engine at rest. -/
theorem State.EngineLegal.of_rest {s t : State} (h : s.EngineLegal) (hb : s.busy = false)
    (hb' : t.busy = false)
    (he : t.phase = s.phase ∧ t.started = s.started ∧ t.g = s.g ∧ t.groups = s.groups ∧
      t.olen = s.olen ∧ t.undo = s.undo) : t.EngineLegal := by
  obtain ⟨hp, hs, hrest⟩ := h.rest_of_not_busy hb
  obtain ⟨ep, es, eg, eG, eo, eu⟩ := he
  unfold State.EngineAtRest at hrest
  rw [← es, ← eg, ← eG, ← eo, ← eu] at hrest
  exact State.engineLegal_of_idle (ep.trans hp) hb' (es.trans hs) hrest

/-- A dropped write sets IGN alone, which is no part of the engine's progress. -/
theorem State.EngineLegal.dropWrite {s : State} (h : s.EngineLegal) : s.dropWrite.EngineLegal := by
  unfold State.EngineLegal at h ⊢
  rwa [State.dropWrite_busy]

theorem State.EngineLegal.writeReg {s : State} (h : s.EngineLegal) (hb : s.busy = false)
    (r : Reg) (v : Word) : (s.writeReg r v).EngineLegal := by
  rcases s.writeReg_cases r v with e | ⟨_, e⟩ | ⟨_, e | e | e | e⟩ <;> rw [e]
  case inl => exact h
  case inr.inl => exact h.dropWrite
  all_goals exact h.of_rest hb hb ⟨rfl, rfl, rfl, rfl, rfl, rfl⟩

/-- Acceptance of a buffer command sets BUSY and leaves the progress at its idle values, with the
start step still to come (R73, R87; log 3). -/
theorem State.EngineLegal.startBuffer {s : State} (h : s.EngineLegal) (hb : s.busy = false)
    {p : Phase} (hp : p ≠ .idle) : (s.startBuffer p).EngineLegal := by
  obtain ⟨_, _, _, _, hG, _⟩ := h.rest_of_not_busy hb
  exact ⟨by simpa using hp, fun _ => ⟨rfl, rfl, hG, rfl, rfl⟩, fun _ => rfl, fun _ => ⟨rfl, rfl⟩,
    by simp, by simp⟩

theorem CommandEffect.engineLegal {s t : State} (effect : CommandEffect s t) (h : s.EngineLegal)
    (hb : s.busy = false) : t.EngineLegal := by
  cases effect with
  | complete d n _ =>
    exact h.of_rest hb (s.complete_busy d n) ⟨rfl, rfl, rfl, rfl, rfl, rfl⟩
  | fail e _ => exact h.of_rest hb (s.fail_busy e) ⟨rfl, rfl, rfl, rfl, rfl, rfl⟩
  | start p hp => exact h.startBuffer hb (by rcases hp with rfl | rfl <;> simp)

/-! ### Engine steps -/

theorem State.engineLegal_finish (s : State) (e : Bool) (c : ErrCode) (r grp : Word) :
    (s.finish e c r grp).EngineLegal :=
  State.engineLegal_of_idle rfl (s.finish_busy e c r grp) rfl ⟨rfl, rfl, rfl, rfl, rfl⟩

/-- `ENC_MAX_LEN` keeps the four symbols of every group inside 32 bits (R72). -/
theorem ceilDiv_three_le {n : Nat} (h : n ≤ Config.encMaxLen) : 4 * ceilDiv n 3 < 2 ^ 32 := by
  unfold Config.encMaxLen at h
  unfold ceilDiv
  omega

theorem State.EngineAtRest.encodeRunning_begin {s : State} (h : s.EngineAtRest)
    (hlen : s.len.toNat ≤ Config.encMaxLen) :
    (s.begin (ceilDiv s.len.toNat 3)).EncodeRunning := by
  obtain ⟨_, hg, _, holen, hundo⟩ := h
  have hmax := ceilDiv_three_le hlen
  have hG : (s.begin (ceilDiv s.len.toNat 3)).groups.toNat = ceilDiv s.len.toNat 3 :=
    Nat.mod_eq_of_lt (by omega)
  refine ⟨hlen, hG, ?_, ?_, ?_⟩ <;> simp [hg, holen, hundo]

theorem State.EngineAtRest.decodeRunning_begin {s : State} (h : s.EngineAtRest)
    (hlen : s.decodeLenOk = true) : (s.begin (s.len.toNat / 4)).DecodeRunning := by
  obtain ⟨_, hg, _, holen, hundo⟩ := h
  have hpos : 0 < s.len.toNat / 4 := by
    simp only [State.decodeLenOk, Bool.and_eq_true, beq_iff_eq, bne_iff_ne] at hlen
    omega
  have hG : (s.begin (s.len.toNat / 4)).groups.toNat = s.len.toNat / 4 :=
    Nat.mod_eq_of_lt (by have := s.len.isLt; omega)
  refine ⟨hlen, hG, ?_, ?_, ?_, ?_⟩
  · simp [hg]
  · simp [hg, holen]
  · rw [hG]; simp [hg]; omega
  · simp [holen, hundo]

section
variable {s : State} {a : Word} {bs : List Byte}

/-- What a group step adds to the progress: one group, and the bytes it has written. -/
theorem State.nextGroup_progress (hg : s.g < s.groups) (hdone : (s.writeBytes a bs).2 = true)
    (hfit : s.olen.toNat + bs.length < 2 ^ 32) :
    ((s.writeBytes a bs).1.nextGroup bs.length).g.toNat = s.g.toNat + 1 ∧
      ((s.writeBytes a bs).1.nextGroup bs.length).olen.toNat = s.olen.toNat + bs.length ∧
      ((s.writeBytes a bs).1.nextGroup bs.length).undo.length = s.undo.length + bs.length := by
  refine ⟨?_, ?_, State.writeBytes_undo_length hdone⟩
  · rw [State.nextGroup_g, State.writeBytes_g, toNat_succ_of_lt hg]
  · rw [State.nextGroup_olen, State.writeBytes_olen, BitVec.toNat_add, BitVec.toNat_ofNat]
    omega

/-- A group of an ENCODE adds four symbols (R73). -/
theorem State.EncodeRunning.nextGroup (h : s.EncodeRunning) (hg : s.g < s.groups)
    (hdone : (s.writeBytes a bs).2 = true) (hk : bs.length = 4) :
    ((s.writeBytes a bs).1.nextGroup bs.length).EncodeRunning := by
  obtain ⟨hlen, hG, _, holen, hundo⟩ := h
  have hmax := ceilDiv_three_le hlen
  have hlt : s.g.toNat < s.groups.toNat := hg
  obtain ⟨eg, eolen, eundo⟩ := State.nextGroup_progress hg hdone (by omega)
  unfold State.EncodeRunning
  rw [eg, eolen, eundo]
  simp only [State.nextGroup_len, State.nextGroup_groups, State.writeBytes_len,
    State.writeBytes_groups]
  exact ⟨hlen, hG, by omega, by omega, by omega⟩

/-- A group of a DECODE adds three bytes, and the last one 1 to 3 (R78, R79, R87). -/
theorem State.DecodeRunning.nextGroup (h : s.DecodeRunning) (hg : s.g < s.groups)
    (hdone : (s.writeBytes a bs).2 = true) (hk : 1 ≤ bs.length ∧ bs.length ≤ 3)
    (hfull : s.lastGroup = false → bs.length = 3) :
    ((s.writeBytes a bs).1.nextGroup bs.length).DecodeRunning := by
  obtain ⟨hlen, hG, _, hbefore, _, hundo⟩ := h
  have hlt : s.g.toNat < s.groups.toNat := hg
  have holen := hbefore hlt
  have hthree : s.g.toNat + 1 < s.groups.toNat → bs.length = 3 := fun hmore => hfull <| by
    simp only [State.lastGroup, beq_eq_false_iff_ne, ne_eq, ← BitVec.toNat_inj,
      toNat_succ_of_lt hg]
    omega
  have hmax := s.len.isLt
  obtain ⟨eg, eolen, eundo⟩ := State.nextGroup_progress hg hdone (by omega)
  unfold State.DecodeRunning State.decodeLenOk at *
  rw [eg, eolen, eundo]
  simp only [State.nextGroup_len, State.nextGroup_groups, State.writeBytes_len,
    State.writeBytes_groups]
  exact ⟨hlen, hG, by omega, by omega, by omega, by omega⟩

end

/-- The start step leaves a started command at its first group. -/
theorem State.EngineLegal.begin {s : State} (h : s.EngineLegal) (hp : s.phase ≠ .idle)
    (hs : s.started = false) (hlen : s.LengthAccepted) : (s.begin s.groupCount).EngineLegal := by
  obtain ⟨hbusy, hrest, _, hregs, _, _⟩ := h
  refine ⟨hbusy, ?_, fun h => absurd h hp, hregs, fun (henc : s.phase = .enc) _ => ?_,
    fun (hdec : s.phase = .dec) _ => ?_⟩
  · simp
  · simp only [State.LengthAccepted, State.groupCount, henc] at hlen ⊢
    exact (hrest hs).encodeRunning_begin hlen
  · simp only [State.LengthAccepted, State.groupCount, hdec] at hlen ⊢
    exact (hrest hs).decodeRunning_begin hlen

/-- A group step leaves a started command at its next group. -/
theorem State.EngineLegal.nextGroup {s : State} (h : s.EngineLegal) (hp : s.phase ≠ .idle)
    (hs : s.started = true) (hg : s.g < s.groups) {a : Word} {bs : List Byte}
    (hdone : (s.writeBytes a bs).2 = true) (hk : s.GroupWrites bs.length) :
    ((s.writeBytes a bs).1.nextGroup bs.length).EngineLegal := by
  obtain ⟨hbusy, _, _, hregs, henc, hdec⟩ := h
  refine ⟨by simpa using hbusy, by simp [hs], by simp [hp], by simpa using hregs,
    fun hp' _ => ?_, fun hp' _ => ?_⟩ <;>
    simp only [State.nextGroup_phase, State.writeBytes_phase] at hp' <;>
    simp only [State.GroupWrites, hp'] at hk
  · exact (henc hp' hs).nextGroup hg hdone hk
  · obtain ⟨hlo, hhi, hfull⟩ := hk
    exact (hdec hp' hs).nextGroup hg hdone ⟨hlo, hhi⟩ hfull

theorem State.EngineLegal.engineStep {s : State} (h : s.EngineLegal) :
    s.engineStep.EngineLegal := by
  by_cases hp : s.phase = .idle
  · rwa [State.engineStep_idle hp]
  · have effect := s.engineStep_effect hp
    generalize s.engineStep = t at effect
    cases effect with
    | finish => exact State.engineLegal_finish ..
    | begin hs hlen => exact h.begin hp hs hlen
    | next a bs hs hg hdone hk => exact h.nextGroup hp hs hg hdone hk

theorem State.EngineLegal.takeTurn {s : State} (h : s.EngineLegal) : s.takeTurn.EngineLegal := by
  unfold State.takeTurn
  split
  · exact h
  · exact h

/-- Settles O55: while BUSY is 0 the engine is at rest and only acceptance moves it; while it runs
only its own steps and a reset do. -/
theorem stepKeepsEngineLegal : Obligations.StepKeepsEngineLegal := by
  unfold Obligations.StepKeepsEngineLegal
  refine step_keeps State.EngineLegal ?answer ?ops ?turn ?drop ?store ?illegal ?command ?put
    ?reset ?engine
  case drop => exact fun _ _ h => h.dropWrite
  case store => exact fun _ r v hb h => h.writeReg hb r v
  case illegal => exact fun s hb h => h.of_rest hb s.illegal_busy ⟨rfl, rfl, rfl, rfl, rfl, rfl⟩
  case command => exact fun _ _ hb effect h => effect.engineLegal h hb
  case engine => exact fun _ h => h.engineStep
  case reset =>
    exact fun s n _ => State.engineLegal_of_idle rfl (s.resetBlock_busy n) rfl
      ⟨rfl, rfl, rfl, rfl, rfl⟩
  case turn => exact fun _ h => h.takeTurn
  case answer => exact fun _ _ h => h
  case ops => exact fun _ _ h => h
  case put => exact fun _ _ _ h => h

end Sys2Proof.Machine
end

section
/-! PROOF. What the commands leave unchanged (R27), when IGN changes (R20), and that the operands
hold still while BUSY is 1 (R16, R26). -/

namespace Sys2Proof.Machine

/-! ### The frame of the commands (R27) -/

/-- How an accepted immediate command ends: it writes DOUT and STATUS (R58). -/
inductive ImmediateEffect (s : State) : State → Prop where
  | complete (d : Word) (n : BitVec 3) : ImmediateEffect s (s.complete d n)
  | fail (e : ErrCode) : ImmediateEffect s (s.fail e)

theorem State.endDecode_immediate (s : State) (r : Except ErrCode (List Byte)) :
    ImmediateEffect s (s.endDecode r) := by
  cases r with
  | ok bytes => exact .complete _ _
  | error e => exact .fail e

theorem exec_immediate {i : Instr} {s t : State} (hi : i.immediate = true) (hb : s.busy = false)
    (h : exec i s = .next t) : ImmediateEffect s t := by
  have key : ∀ f : State → State, (∀ u, ImmediateEffect u (f u)) → s.accept f = .next t →
      ImmediateEffect s t := by
    intro f hf h
    rw [State.accept_idle hb] at h
    cases h
    exact hf s
  cases i with
  | encode | decode => cases hi
  | enc1 => exact key _ (fun u => .complete (encGroup 1 u.din23 0 0).word 4) h
  | enc2 => exact key _ (fun u => .complete (encGroup 2 u.din23 u.din15 0).word 4) h
  | enc3 => exact key _ (fun u => .complete (encGroup 3 u.din23 u.din15 u.din7).word 4) h
  | flut => exact key _ (fun u => .complete ((fwd u.din5).setWidth 32) 1) h
  | rlut => exact key _ (fun u => .complete (rev u.din7).word 1) h
  | dec | decf => exact key _ (fun u => u.endDecode_immediate _) h

theorem commandWrite_illegal {w : Word} {s : State} (hw : CommandWord.wf w = false)
    (hb : s.busy = false) : commandWrite w s = .next s.illegal := by
  obtain ⟨e, he⟩ := (commandWord_wf_false w).1 hw
  rw [commandWrite, he]
  exact State.accept_idle hb _

/-- A buffer command writes neither DIN nor DOUT, accepted or dropped (R27). -/
theorem exec_buffer {i : Instr} (hi : i.immediate = false) (s : State) :
    ∃ t, exec i s = .next t ∧ t.din = s.din ∧ t.dout = s.dout := by
  have accept : ∀ p, ∃ t, s.accept (fun u => u.startBuffer p) = .next t ∧ t.din = s.din ∧
      t.dout = s.dout := by
    intro p
    cases hb : s.busy
    · exact ⟨_, State.accept_idle hb _, rfl, rfl⟩
    · exact ⟨_, State.accept_busy hb _, rfl, rfl⟩
  cases i with
  | encode => exact accept .enc
  | decode => exact accept .dec
  | enc1 | enc2 | enc3 | dec | decf | flut | rlut => cases hi

/-- A STATUS word that is written without BUSY and IGN has its reserved bits 0 (R23). -/
theorem statusWord_at_rest (err : Bool) (code : BitVec 4) (count : BitVec 3) :
    statusBusy (statusWord false err false code count) = false ∧
      statusIgn (statusWord false err false code count) = false ∧
      (statusWord false err false code count).getLsbD 3 = false ∧
      (statusWord false err false code count).extractLsb' 11 21 = 0 :=
  ⟨statusBusy_statusWord .., statusIgn_statusWord .., statusWord_bit3 .., statusWord_high ..⟩

/-- Settles O17: the first two parts by how such a command ends, the last two by their frames. -/
theorem commandFrames : Obligations.CommandFrames := by
  unfold Obligations.CommandFrames
  refine ⟨fun i s hi hb => ?immediate, fun w s hw hb => ?illegal, fun i s hi => exec_buffer hi s,
    fun s => ⟨s.engineStep_din, s.engineStep_dout⟩⟩
  case immediate =>
    obtain ⟨t, ht⟩ := exec_next i s
    cases exec_immediate hi hb ht with
    | complete d n => exact ⟨d, statusComplete n, ht, statusWord_at_rest ..⟩
    | fail e => exact ⟨0, statusFail e, ht, statusWord_at_rest ..⟩
  case illegal =>
    exact ⟨statusFail .illegalCmd, commandWrite_illegal hw hb, statusWord_at_rest ..⟩

/-! ### IGN (R20) -/

/-- Setting IGN changes bit 2 alone. -/
theorem withIgn_getLsbD {k : Nat} (hk : k ≠ 2) (w : Word) :
    (statusWithIgn w).getLsbD k = w.getLsbD k := by
  have hfour : (0x00000004 : Word) = BitVec.twoPow 32 2 := rfl
  have hbit : (0x00000004 : Word).getLsbD k = false := by
    rw [hfour, BitVec.getLsbD_twoPow]
    simp [Ne.symm hk]
  rw [statusWithIgn, BitVec.getLsbD_or, hbit, Bool.or_false]

theorem commandWrite_busy {s : State} (hb : s.busy = true) (w : Word) :
    commandWrite w s = .next s.dropWrite := by
  obtain ⟨t, ht⟩ := commandWrite_next w s
  rcases commandWrite_cases ht with ⟨_, rfl⟩ | ⟨hf, _⟩
  · exact ht
  · simp [hb] at hf

theorem State.writeReg_operand_busy {s : State} (hb : s.busy = true) {r : Reg}
    (hr : r = .din ∨ r = .src ∨ r = .dst ∨ r = .len) (v : Word) :
    s.writeReg r v = s.dropWrite := by
  rcases hr with rfl | rfl | rfl | rfl <;> simp [State.writeReg, hb]

/-- Acceptance of any command word clears IGN (R20, R58, R73, R92). -/
theorem commandWrite_clears_ign {w : Word} {s t : State} (hb : s.busy = false)
    (h : commandWrite w s = .next t) : statusIgn t.status = false := by
  rcases commandWrite_cases h with ⟨hf, _⟩ | ⟨_, rfl | effect⟩
  · simp [hb] at hf
  · exact statusIgn_statusWord ..
  · cases effect with
    | complete => exact statusIgn_statusWord ..
    | fail => exact statusIgn_statusWord ..
    | start => exact statusIgn_statusWord ..

/-- Settles O18: both kinds of dropped write are `dropWrite`, and the rest is what STATUS holds after
an acceptance, an engine step and a reset. -/
theorem ignFollowsItsRule : Obligations.IgnFollowsItsRule := by
  unfold Obligations.IgnFollowsItsRule
  refine ⟨fun w s hb => ?command, fun r v s hb hr => ?operand,
    fun w s t hb h => commandWrite_clears_ign hb h, fun s => s.engineStep_ign, by decide⟩
  case command =>
    exact ⟨s.dropWrite, commandWrite_busy hb w, rfl, statusIgn_withIgn _,
      fun k hk => withIgn_getLsbD hk _⟩
  case operand =>
    rw [State.writeReg_operand_busy hb hr v]
    exact ⟨rfl, statusIgn_withIgn _, fun k hk => withIgn_getLsbD hk _⟩

/-! ### The operands while BUSY is 1 (R16, R26) -/

/-- DIN, SRC, DST, LEN and DOUT hold still from `s` to `t`. -/
def State.OperandsKept (s t : State) : Prop :=
  t.din = s.din ∧ t.src = s.src ∧ t.dst = s.dst ∧ t.len = s.len ∧ t.dout = s.dout

theorem State.OperandsKept.refl (s : State) : s.OperandsKept s := ⟨rfl, rfl, rfl, rfl, rfl⟩

theorem State.OperandsKept.trans {s t u : State} (h : s.OperandsKept t) (h' : t.OperandsKept u) :
    s.OperandsKept u := by
  obtain ⟨h1, h2, h3, h4, h5⟩ := h
  obtain ⟨e1, e2, e3, e4, e5⟩ := h'
  exact ⟨e1.trans h1, e2.trans h2, e3.trans h3, e4.trans h4, e5.trans h5⟩

theorem State.takeTurn_operands (s : State) : s.OperandsKept s.takeTurn :=
  ⟨s.takeTurn_din, s.takeTurn_src, s.takeTurn_dst, s.takeTurn_len, s.takeTurn_dout⟩

theorem State.engineStep_operands (s : State) : s.OperandsKept s.engineStep :=
  ⟨s.engineStep_din, s.engineStep_src, s.engineStep_dst, s.engineStep_len, s.engineStep_dout⟩

theorem State.hostTurn_operands (s : State) (rest : List HostOp) :
    s.OperandsKept (s.hostTurn rest) := s.takeTurn_operands

@[simp] theorem State.hostTurn_busy (s : State) (rest : List HostOp) :
    (s.hostTurn rest).busy = s.busy := by simp [State.hostTurn]

@[simp] theorem State.hostTurn_platform (s : State) (rest : List HostOp) :
    (s.hostTurn rest).platform = s.platform := by simp [State.hostTurn]

/-- While BUSY is 1 an access of the port only answers or is dropped (R16, R57). -/
theorem portAccess_operands {a : BusAccess} {s t : State} (hb : s.busy = true)
    (h : portAccess a s = .next t) : s.OperandsKept t := by
  rcases portAccess_cases h with ⟨r, rfl⟩ | ⟨r, v, rfl⟩ | ⟨w, h⟩
  · exact .refl s
  · rcases (s.answer .done).writeReg_cases r v with e | ⟨_, e⟩ | ⟨hf, _⟩
    · rw [e]; exact .refl s
    · rw [e]; exact .refl s
    · simp [hb] at hf
  · rw [commandWrite_busy (by simpa using hb)] at h
    cases h
    exact .refl s

/-- While BUSY is 1 no operation of the host but a reset moves an operand. -/
theorem hostStep_operands {op : HostOp} {s t : State} (hb : s.busy = true)
    (h : hostStep op s = .next t) : s.OperandsKept t ∨ ∃ n, op = .reset n := by
  rcases hostStep_cases h with ⟨a, _, h⟩ | ⟨_, rfl⟩ | ⟨a, b, _, _, rfl⟩ | ⟨a, _, _, rfl⟩ |
    ⟨n, hop, _⟩
  · exact .inl (portAccess_operands hb h)
  · rw [State.pollStep, if_pos hb]; exact .inl (.refl s)
  · exact .inl (.refl s)
  · exact .inl (.refl s)
  · exact .inr ⟨n, hop⟩

/-- Settles O43, by the kinds of step. -/
theorem operandsHoldStillWhileBusy : Obligations.OperandsHoldStillWhileBusy := by
  unfold Obligations.OperandsHoldStillWhileBusy
  intro s t hb h
  rcases step_cases h with ⟨_, rfl⟩ | ⟨hm, op, rest, ho, h⟩ | ⟨_, _, rfl⟩
  · exact .inl (s.takeTurn_operands.trans s.takeTurn.engineStep_operands)
  · rcases hostStep_operands (by simpa using hb) h with hkept | ⟨n, rfl⟩
    · exact .inl ((s.hostTurn_operands rest).trans hkept)
    · exact .inr ⟨hm, n, rest, ho⟩
  · exact .inl (State.OperandsKept.refl t)

end Sys2Proof.Machine
end

section
/-! PROOF. Who moves and what the move is (R12, R57, R116), and the register port (R15 to R17, R20,
R30). -/

namespace Sys2Proof.Machine

/-- A CMD write of the host runs the command its word names (R17, R57). -/
theorem step_command {s : State} {w : Word} {i : Instr} {rest : List HostOp}
    (hm : s.mover = .host) (ho : s.ops = .access (s.cmdAccess w) :: rest)
    (hw : decode w = .ok i) : step s = exec i ((s.hostTurn rest).answer .done) := by
  rw [step_host hm ho]
  refine (portAccess_cmdWrite _ w (s.hostTurn_platform rest)).trans ?_
  rw [commandWrite, hw]

/-- Settles O4: the three clauses are the step's equation for each mover. -/
theorem stepRunsDecodedCommand : Obligations.StepRunsDecodedCommand := by
  unfold Obligations.StepRunsDecodedCommand
  exact ⟨fun _ _ _ hm ho => step_host hm ho, fun _ _ _ _ hm ho hw => step_command hm ho hw,
    fun _ hm => step_engine hm⟩

/-- A register is at its own offset and at no other (R15). -/
theorem offset_of_regAt {o : BitVec 8} {r : Reg} (h : regAt o = some r) : o = r.offset := by
  unfold regAt at h
  split at h
  case h_11 => cases h
  all_goals
    next ho =>
      cases h
      exact BitVec.eq_of_toNat_eq ho

theorem ne_offset_of_regAt {o : BitVec 8} (h : regAt o = none) (r : Reg) : o ≠ r.offset := by
  rintro rfl
  simp [regAt_offset] at h

/-- The value read at each offset of the window (R15 to R17, R30). -/
theorem State.readOffset_eq (s : State) (o : BitVec 8) :
    s.readOffset o =
      if o = 0x00 then 0 else if o = 0x04 then s.status
      else if o = 0x08 then s.din else if o = 0x0C then s.dout
      else if o = 0x10 then s.src else if o = 0x14 then s.dst
      else if o = 0x18 then s.len else if o = 0x1C then s.rlen
      else if o = 0x20 then s.errgrp else if o = 0x24 then 0x42363401 else 0 := by
  cases h : regAt o with
  | some r =>
    rw [offset_of_regAt h, State.readOffset, regAt_offset]
    cases r <;> rfl
  | none =>
    have hne := ne_offset_of_regAt h
    rw [State.readOffset, h, if_neg (c := o = 0x00) (hne .cmd),
      if_neg (c := o = 0x04) (hne .status), if_neg (c := o = 0x08) (hne .din),
      if_neg (c := o = 0x0C) (hne .dout), if_neg (c := o = 0x10) (hne .src),
      if_neg (c := o = 0x14) (hne .dst), if_neg (c := o = 0x18) (hne .len),
      if_neg (c := o = 0x1C) (hne .rlen), if_neg (c := o = 0x20) (hne .errgrp),
      if_neg (c := o = 0x24) (hne .id)]

/-- Settles O44. -/
theorem registerReads : Obligations.RegisterReads := by
  unfold Obligations.RegisterReads
  intro s o ho
  rw [portAccess_read s ho, s.readOffset_eq o]
  rfl

/-- A write at the offset of a register other than CMD is that register's write (R16). -/
theorem portAccess_writeReg (s : State) {r : Reg} (hr : r ≠ .cmd) (v : Word) :
    portAccess ⟨s.platform.base + r.offset.setWidth 32, 4, 1, .write v⟩ s =
      .next ((s.answer .done).writeReg r v) := by
  have ha : r.offset.extractLsb' 0 2 = 0 := by cases r <;> rfl
  rw [portAccess_write s v ha, writeOffset, regAt_offset]
  exact if_neg hr

/-- A register that is no operand ignores the write (R16). -/
theorem State.writeReg_readOnly (s : State) {r : Reg}
    (hr : r ≠ .din ∧ r ≠ .src ∧ r ≠ .dst ∧ r ≠ .len) (v : Word) : s.writeReg r v = s := by
  obtain ⟨hdin, hsrc, hdst, hlen⟩ := hr
  cases r with
  | din => exact absurd rfl hdin
  | src => exact absurd rfl hsrc
  | dst => exact absurd rfl hdst
  | len => exact absurd rfl hlen
  | cmd | status | dout | rlen | errgrp | id => rfl

/-- A write at an offset of neither CMD nor an operand is only answered (R16). -/
theorem portAccess_write_ignored (s : State) (v : Word) {o : BitVec 8}
    (ha : o.extractLsb' 0 2 = 0) (hcmd : o ≠ Reg.cmd.offset) (hdin : o ≠ Reg.din.offset)
    (hsrc : o ≠ Reg.src.offset) (hdst : o ≠ Reg.dst.offset) (hlen : o ≠ Reg.len.offset) :
    portAccess ⟨s.platform.base + o.setWidth 32, 4, 1, .write v⟩ s = .next (s.answer .done) := by
  cases h : regAt o with
  | none => rw [portAccess_write s v ha, writeOffset, h]
  | some r =>
    obtain rfl := offset_of_regAt h
    have hr : ∀ r', r.offset ≠ r'.offset → r ≠ r' := fun _ hne e => hne (congrArg _ e)
    rw [portAccess_writeReg s (hr _ hcmd) v,
      State.writeReg_readOnly _ ⟨hr _ hdin, hr _ hsrc, hr _ hdst, hr _ hlen⟩]

/-- While BUSY is 0 a write to an operand register stores its value (R16). -/
theorem State.writeReg_operand_idle {s : State} (hb : s.busy = false) (v : Word) :
    s.writeReg .din v = { s with din := v } ∧ s.writeReg .src v = { s with src := v } ∧
      s.writeReg .dst v = { s with dst := v } ∧ s.writeReg .len v = { s with len := v } := by
  simp [State.writeReg, hb]

/-- Settles O45: a write at an operand's offset is stored or dropped, and at the others ignored. -/
theorem registerWrites : Obligations.RegisterWrites := by
  unfold Obligations.RegisterWrites
  intro s v
  refine ⟨fun hb => ?stored, fun hb o ho => ?dropped,
    fun o ha h0 h8 h10 h14 h18 => portAccess_write_ignored s v ha h0 h8 h10 h14 h18⟩
  case stored =>
    obtain ⟨hdin, hsrc, hdst, hlen⟩ := State.writeReg_operand_idle (s := s.answer .done) hb v
    exact ⟨(portAccess_writeReg s (r := .din) (by simp) v).trans (congrArg _ hdin),
      (portAccess_writeReg s (r := .src) (by simp) v).trans (congrArg _ hsrc),
      (portAccess_writeReg s (r := .dst) (by simp) v).trans (congrArg _ hdst),
      (portAccess_writeReg s (r := .len) (by simp) v).trans (congrArg _ hlen)⟩
  case dropped =>
    have drop : ∀ r : Reg, r ≠ .cmd → r = .din ∨ r = .src ∨ r = .dst ∨ r = .len →
        portAccess ⟨s.platform.base + r.offset.setWidth 32, 4, 1, .write v⟩ s =
          .next (s.answer .done).dropWrite := by
      intro r hcmd hr
      rw [portAccess_writeReg s hcmd v, State.writeReg_operand_busy (s := s.answer .done) hb hr]
    rcases ho with rfl | rfl | rfl | rfl
    · exact drop .din (by simp) (by simp)
    · exact drop .src (by simp) (by simp)
    · exact drop .dst (by simp) (by simp)
    · exact drop .len (by simp) (by simp)

end Sys2Proof.Machine
end

section
/-! PROOF. Memory keeps its canonical form (R35, R108; log 1). -/

namespace Sys2Proof.Machine

/-- The form speaks of memory and the write sequence alone. -/
theorem State.MemoryCanonical.congr {s t : State} (h : s.MemoryCanonical) (hmem : t.mem = s.mem)
    (hundo : t.undo = s.undo) : t.MemoryCanonical := by
  unfold State.MemoryCanonical at h ⊢
  rwa [hmem, hundo]

/-- With no writes on record the form is that of memory alone. -/
theorem State.memoryCanonical_of_no_undo {s : State} (hmem : Memory.wf s.mem)
    (hundo : s.undo = []) : s.MemoryCanonical :=
  ⟨hmem, by simp [hundo]⟩

theorem State.MemoryCanonical.putByte {s : State} (h : s.MemoryCanonical) (a : Word) (b : Byte) :
    (s.putByte a b).MemoryCanonical := by
  obtain ⟨hmem, hundo⟩ := h
  exact ⟨Memory.wf_write b hmem a.isLt, hundo⟩

/-- A register write writes no memory (R16). -/
theorem State.MemoryCanonical.writeReg {s : State} (h : s.MemoryCanonical) (r : Reg) (v : Word) :
    (s.writeReg r v).MemoryCanonical := by
  rcases s.writeReg_cases r v with e | ⟨_, e⟩ | ⟨_, e | e | e | e⟩ <;> rw [e]
  all_goals exact h.congr rfl rfl

/-- Acceptance of a buffer command empties the write sequence; no command writes memory when it is
accepted. -/
theorem CommandEffect.memoryCanonical {s t : State} (effect : CommandEffect s t)
    (h : s.MemoryCanonical) : t.MemoryCanonical := by
  cases effect with
  | complete => exact h.congr rfl rfl
  | fail => exact h.congr rfl rfl
  | start => exact State.memoryCanonical_of_no_undo h.1 rfl

/-- An engine step writes memory through the port alone, and may empty the write sequence. -/
theorem State.MemoryCanonical.engineStep {s : State} (h : s.MemoryCanonical) :
    s.engineStep.MemoryCanonical :=
  State.engineStep_ind h
    (finish := fun _ _ _ _ => State.memoryCanonical_of_no_undo h.1 rfl)
    (finishAfter := fun a bs _ _ _ _ =>
      State.memoryCanonical_of_no_undo (State.writeBytes_canonical h a bs).1 rfl)
    (begin := fun _ => h.congr rfl rfl)
    (next := fun a bs _ => (State.writeBytes_canonical h a bs).congr rfl rfl)

/-- A reset takes writes back from the memory that the step under way has left (R108). -/
theorem State.MemoryCanonical.resetBlock {s : State} (h : s.MemoryCanonical) (landed : Nat) :
    (s.resetBlock landed).MemoryCanonical := by
  refine State.memoryCanonical_of_no_undo ?_ rfl
  rw [State.resetBlock_mem, State.memAfterReset]
  split
  · obtain ⟨hmem, hundo⟩ := State.midStep_canonical h landed
    exact Memory.wf_undoWrites _ hmem hundo
  · exact h.1

/-- Settles O53: memory is written by the host's bytes, the engine's writes and a reset, and each of
them keeps the form. -/
theorem stepKeepsMemoryCanonical : Obligations.StepKeepsMemoryCanonical := by
  unfold Obligations.StepKeepsMemoryCanonical
  refine step_keeps State.MemoryCanonical ?answer ?ops ?turn ?drop ?store ?illegal ?command ?put
    ?reset ?engine
  case put => exact fun _ a b h => h.putByte a b
  case engine => exact fun _ h => h.engineStep
  case reset => exact fun _ n h => h.resetBlock n
  case command => exact fun _ _ _ effect h => effect.memoryCanonical h
  case store => exact fun _ r v _ h => h.writeReg r v
  case turn => exact fun s h => h.congr s.takeTurn_mem s.takeTurn_undo
  case answer => exact fun _ _ h => h.congr rfl rfl
  case ops => exact fun _ _ h => h.congr rfl rfl
  case drop => exact fun _ _ h => h.congr rfl rfl
  case illegal => exact fun _ _ h => h.congr rfl rfl

end Sys2Proof.Machine
end

section
/-! PROOF. The memory port (R36, R94), and that an engine step reads the input alone (R41). -/

namespace Sys2Proof.Machine

/-! ### What the engine's reads answer -/

theorem add_ofNat_succ (a : Word) (i : Nat) :
    a + BitVec.ofNat 32 (i + 1) = a + 1 + BitVec.ofNat 32 i := by
  rw [Nat.add_comm, BitVec.ofNat_add, BitVec.add_assoc]
  rfl

/-- When MEM_OK completes every read, the engine reads the bytes of memory (R36). -/
theorem State.readBytes_of_memOk (s : State) (n : Nat) (a : Word)
    (h : ∀ i, i < n → s.platform.memOk (a + BitVec.ofNat 32 i) .read = true) :
    s.readBytes n a = some (s.bytesAt a n) := by
  induction n generalizing a with
  | zero => rfl
  | succ n ih =>
    have hfirst : s.memRead a = some (s.byteAt a) :=
      State.memRead_eq_some.2 ⟨by simpa using h 0 (by omega), rfl⟩
    have hrest := ih (a + 1) fun i hi => by rw [← add_ofNat_succ]; exact h (i + 1) (by omega)
    simp only [State.readBytes, hfirst, hrest, State.bytesAt]

/-- One denied read is a bus error of the whole (R94). -/
theorem State.readBytes_of_denied (s : State) (n : Nat) (a : Word)
    (h : ∃ i, i < n ∧ s.platform.memOk (a + BitVec.ofNat 32 i) .read = false) :
    s.readBytes n a = none := by
  obtain ⟨i, hi, hdenied⟩ := h
  induction n generalizing a i with
  | zero => omega
  | succ n ih =>
    cases i with
    | zero =>
      have hfirst : s.memRead a = none := by
        rw [State.memRead, if_neg (by simpa using hdenied)]
      simp only [State.readBytes, hfirst]
    | succ i =>
      rw [add_ofNat_succ] at hdenied
      have hrest := ih (a + 1) i (by omega) hdenied
      cases hfirst : s.memRead a <;> simp only [State.readBytes, hfirst, hrest]

/-- Settles O22. -/
theorem memoryPortPrimitives : Obligations.MemoryPortPrimitives := by
  unfold Obligations.MemoryPortPrimitives
  refine ⟨fun s n a => ⟨s.readBytes_of_denied n a, s.readBytes_of_memOk n a⟩,
    fun s a b => ⟨rfl, fun hdenied => if_neg (by simp [hdenied]), fun hok => ?_⟩⟩
  exact ⟨s.engineWrite a b, if_pos hok, rfl, fun a' => s.byteAt_engineWrite a a' b⟩

/-! ### The first of several writes -/

section
variable {s : State} {a : Word} {b : Byte} {bs : List Byte}

theorem State.writeBytes_cons_ok (h : s.platform.memOk a .write = true) :
    s.writeBytes a (b :: bs) = (s.engineWrite a b).writeBytes (a + 1) bs := by
  have hfirst : s.memWrite a b = some (s.engineWrite a b) := if_pos h
  rw [State.writeBytes, hfirst]

/-- The writes end at the first one that gets a bus error (R94). -/
theorem State.writeBytes_cons_denied (h : s.platform.memOk a .write = false) :
    s.writeBytes a (b :: bs) = (s, false) := by
  have hfirst : s.memWrite a b = none := if_neg (by simp [h])
  rw [State.writeBytes, hfirst]

end

/-! ### States that differ in memory alone -/

/-- `s'` differs from `s` in memory and the write sequence at most. -/
def State.AgreeButMemory (s s' : State) : Prop :=
  s' = { s with mem := s'.mem, undo := s'.undo }

/-- `t` and `t'`, reached from `s` and `s'`, differ in memory and the write sequence at most, and
each byte either reads alike in both or has been written in neither. -/
def State.WritesAlike (s s' t t' : State) : Prop :=
  t.AgreeButMemory t' ∧
    ∀ a, t'.byteAt a = t.byteAt a ∨ (t.byteAt a = s.byteAt a ∧ t'.byteAt a = s'.byteAt a)

section
variable {s s' t t' u u' : State}

theorem State.AgreeButMemory.exists_eq (h : s.AgreeButMemory s') :
    ∃ mem undo, s' = { s with mem := mem, undo := undo } := ⟨_, _, h⟩

theorem State.AgreeButMemory.platform_eq (h : s.AgreeButMemory s') :
    s'.platform = s.platform := by
  obtain ⟨_, _, rfl⟩ := h.exists_eq; rfl

theorem State.WritesAlike.refl (h : s.AgreeButMemory s') : s.WritesAlike s' s s' :=
  ⟨h, fun _ => .inr ⟨rfl, rfl⟩⟩

theorem State.WritesAlike.trans (h : s.WritesAlike s' t t') (h' : t.WritesAlike t' u u') :
    s.WritesAlike s' u u' := by
  obtain ⟨_, hbytes⟩ := h
  obtain ⟨hagree, hbytes'⟩ := h'
  refine ⟨hagree, fun a => ?_⟩
  rcases hbytes' a with e | ⟨e, e'⟩
  · exact .inl e
  · rw [e, e']; exact hbytes a

theorem State.AgreeButMemory.engineWrite (h : s.AgreeButMemory s') (a : Word) (b : Byte) :
    s.WritesAlike s' (s.engineWrite a b) (s'.engineWrite a b) := by
  refine ⟨?_, fun a' => ?_⟩
  · obtain ⟨_, _, rfl⟩ := h.exists_eq; rfl
  · rw [State.byteAt_engineWrite, State.byteAt_engineWrite]
    by_cases ha : a' = a
    · simp [ha]
    · simp [ha]

/-- The same bytes to write meet the same bus errors and are written alike. -/
theorem State.AgreeButMemory.writeBytes (h : s.AgreeButMemory s') (a : Word) (bs : List Byte) :
    (s'.writeBytes a bs).2 = (s.writeBytes a bs).2 ∧
      s.WritesAlike s' (s.writeBytes a bs).1 (s'.writeBytes a bs).1 := by
  induction bs generalizing s s' a with
  | nil => exact ⟨rfl, .refl h⟩
  | cons b bs ih =>
    cases hok : s.platform.memOk a .write with
    | false =>
      rw [State.writeBytes_cons_denied hok, State.writeBytes_cons_denied (h.platform_eq ▸ hok)]
      exact ⟨rfl, .refl h⟩
    | true =>
      rw [State.writeBytes_cons_ok hok, State.writeBytes_cons_ok (h.platform_eq ▸ hok)]
      have hfirst := h.engineWrite a b
      obtain ⟨hflag, hrest⟩ := ih hfirst.1 (a + 1)
      exact ⟨hflag, hfirst.trans hrest⟩

theorem State.WritesAlike.endStep (h : s.WritesAlike s' t t') (e : StepEnd) :
    s.WritesAlike s' (t.endStep e) (t'.endStep e) := by
  obtain ⟨hagree, hbytes⟩ := h
  refine ⟨?_, fun a => ?_⟩
  · obtain ⟨_, _, rfl⟩ := hagree.exists_eq
    cases e <;> rfl
  · rw [State.byteAt_of_mem (t.endStep_mem e), State.byteAt_of_mem (t'.endStep_mem e)]
    exact hbytes a

/-- The same move has the same effect, whatever memory is. -/
theorem State.AgreeButMemory.performMove (h : s.AgreeButMemory s') (m : EngineMove) :
    s.WritesAlike s' (s.performMove m) (s'.performMove m) := by
  obtain ⟨hflag, halike⟩ := h.writeBytes m.target m.bytes
  unfold State.performMove
  rw [hflag]
  split
  · exact halike.endStep m.goOn
  · exact halike.endStep (.finish true .busError 0 m.grp)

end

/-! ### The reads of a step are in the input range -/

theorem inRange_add_ofNat (a : Word) {i n : Nat} (hi : i < n) :
    inRange (a + BitVec.ofNat 32 i) a n = true := by
  have : (a + BitVec.ofNat 32 i - a).toNat = i % 2 ^ 32 := by
    rw [BitVec.add_comm, BitVec.add_sub_cancel, BitVec.toNat_ofNat]
  have := Nat.mod_le i (2 ^ 32)
  simp only [inRange, decide_eq_true_eq]
  omega

section
variable {s s' : State}

/-- Reads are answered alike where MEM_OK and the bytes are the same. -/
theorem State.readBytes_congr (hplatform : s'.platform = s.platform) (n : Nat) (a : Word)
    (h : ∀ i, i < n → s'.byteAt (a + BitVec.ofNat 32 i) = s.byteAt (a + BitVec.ofNat 32 i)) :
    s'.readBytes n a = s.readBytes n a := by
  induction n generalizing a with
  | zero => rfl
  | succ n ih =>
    have hfirst : s'.memRead a = s.memRead a := by
      have hbyte : s'.byteAt a = s.byteAt a := by simpa using h 0 (by omega)
      rw [State.memRead, State.memRead, hplatform, hbyte]
    have hrest := ih (a + 1) fun i hi => by rw [← add_ofNat_succ]; exact h (i + 1) (by omega)
    simp only [State.readBytes, hfirst, hrest]

/-- Byte `i` of a group of ENCODE is byte `3g + i` of the input (R73). -/
theorem State.encodeSource_inInput {i : Nat} (hi : i < s.encodeCount) :
    s.inInput (s.encodeSource + BitVec.ofNat 32 i) = true := by
  have hlt : 3 * s.g.toNat + i < s.len.toNat := by
    simp only [State.encodeCount] at hi; omega
  have e : s.encodeSource + BitVec.ofNat 32 i = s.src + BitVec.ofNat 32 (3 * s.g.toNat + i) := by
    apply BitVec.eq_of_toNat_eq
    simp [State.encodeSource, Nat.add_assoc]
  rw [e]
  exact inRange_add_ofNat _ hlt

/-- Symbol `i` of a group of DECODE is byte `4g + i` of the input (R86, R87). -/
theorem State.decodeSource_inInput (hG : s.groups.toNat = s.len.toNat / 4) (hg : s.g < s.groups)
    {i : Nat} (hi : i < 4) : s.inInput (s.decodeSource + BitVec.ofNat 32 i) = true := by
  have hlt : 4 * s.g.toNat + i < s.len.toNat := by
    have : s.g.toNat < s.groups.toNat := hg
    omega
  have e : s.decodeSource + BitVec.ofNat 32 i = s.src + BitVec.ofNat 32 (4 * s.g.toNat + i) := by
    apply BitVec.eq_of_toNat_eq
    simp [State.decodeSource, Nat.add_assoc]
  rw [e]
  exact inRange_add_ofNat _ hlt

theorem State.AgreeButMemory.encodeGroup_eq (h : s.AgreeButMemory s')
    (hreads : s'.readBytes s.encodeCount s.encodeSource =
      s.readBytes s.encodeCount s.encodeSource) : s'.encodeGroup = s.encodeGroup := by
  obtain ⟨_, _, rfl⟩ := h.exists_eq
  unfold State.encodeGroup
  rw [← hreads]
  rfl

theorem State.AgreeButMemory.decodeGroup_eq (h : s.AgreeButMemory s')
    (hreads : s'.readBytes 4 s.decodeSource = s.readBytes 4 s.decodeSource) :
    s'.decodeGroup = s.decodeGroup := by
  obtain ⟨_, _, rfl⟩ := h.exists_eq
  unfold State.decodeGroup
  rw [← hreads]
  rfl

theorem State.AgreeButMemory.encodeMove_eq (h : s.AgreeButMemory s')
    (hin : ∀ a, s.inInput a = true → s'.byteAt a = s.byteAt a) :
    s'.encodeMove = s.encodeMove := by
  have hgroup := h.encodeGroup_eq <| State.readBytes_congr h.platform_eq _ _
    fun i hi => hin _ (State.encodeSource_inInput hi)
  obtain ⟨_, _, rfl⟩ := h.exists_eq
  unfold State.encodeMove
  rw [hgroup]
  rfl

theorem State.AgreeButMemory.decodeMove_eq (h : s.AgreeButMemory s')
    (hin : ∀ a, s.inInput a = true → s'.byteAt a = s.byteAt a)
    (hrun : s.started = true → s.DecodeRunning) : s'.decodeMove = s.decodeMove := by
  have hgroup : s.started = true → s.g < s.groups → s'.decodeGroup = s.decodeGroup := by
    intro hs hg
    obtain ⟨_, hG, _⟩ := hrun hs
    exact h.decodeGroup_eq <| State.readBytes_congr h.platform_eq _ _
      fun i hi => hin _ (State.decodeSource_inInput hG hg hi)
  obtain ⟨_, _, rfl⟩ := h.exists_eq
  unfold State.decodeMove
  exact ite_congr rfl (fun hs => ite_congr rfl (hgroup hs) fun _ => rfl) fun _ => rfl

/-- The engine's next move depends on no byte outside the input range (R41). -/
theorem State.EngineLegal.engineMove_eq (h : s.EngineLegal) (hagree : s.AgreeButMemory s')
    (hin : ∀ a, s.inInput a = true → s'.byteAt a = s.byteAt a) :
    s'.engineMove = s.engineMove := by
  obtain ⟨_, _, _, _, _, hdec⟩ := h
  have hphase : s'.phase = s.phase := by obtain ⟨_, _, rfl⟩ := hagree.exists_eq; rfl
  unfold State.engineMove
  rw [hphase]
  cases hp : s.phase with
  | idle => rfl
  | enc => exact congrArg some (hagree.encodeMove_eq hin)
  | dec => exact congrArg some (hagree.decodeMove_eq hin (hdec hp))

end

/-- Settles O41: the two steps make the same move, and it writes alike in both memories. -/
theorem engineReadsOnlyInputRange : Obligations.EngineReadsOnlyInputRange := by
  unfold Obligations.EngineReadsOnlyInputRange
  intro s m h hin
  have hagree : s.AgreeButMemory { s with mem := m } := rfl
  have hmove := h.engineMove_eq hagree hin
  have halike : s.WritesAlike { s with mem := m } s.engineStep
      ({ s with mem := m } : State).engineStep := by
    unfold State.engineStep
    rw [hmove]
    cases s.engineMove with
    | none => exact .refl hagree
    | some move => exact hagree.performMove move
  exact halike

end Sys2Proof.Machine
end

section
/-! PROOF. An engine step writes the output range alone (R41; log 9). -/

namespace Sys2Proof.Machine

/-! ### Ranges of addresses -/

theorem inRange_false_mono {a base : Word} {m n : Nat} (hmn : m ≤ n)
    (h : inRange a base n = false) : inRange a base m = false := by
  simp only [inRange, decide_eq_false_iff_not] at h ⊢
  omega

/-- A range that is a part of another one, `u` bytes in. -/
theorem inRange_false_part {a base : Word} {u k : Nat} (h : inRange a base (u + k) = false) :
    inRange a (base + BitVec.ofNat 32 u) k = false := by
  simp only [inRange, decide_eq_false_iff_not] at h ⊢
  have := (a - base).isLt
  have hsub : a - (base + BitVec.ofNat 32 u) = (a - base) - BitVec.ofNat 32 u :=
    (BitVec.sub_sub ..).symm
  rw [hsub, BitVec.toNat_sub_of_le (by rw [BitVec.le_def, BitVec.toNat_ofNat]; omega),
    BitVec.toNat_ofNat]
  omega

/-! ### The bytes that a step's writes change -/

section
variable (s : State)

/-- Each write done adds one entry to the write sequence (R108). -/
theorem State.writeBytes_undo_length_le (a : Word) (bs : List Byte) :
    (s.writeBytes a bs).1.undo.length ≤ s.undo.length + bs.length := by
  induction bs generalizing s a with
  | nil => exact Nat.le_refl _
  | cons b bs ih =>
    cases hok : s.platform.memOk a .write with
    | false => rw [State.writeBytes_cons_denied hok]; exact Nat.le_add_right _ _
    | true =>
      have hrest := ih (s.engineWrite a b) (a + 1)
      rw [State.writeBytes_cons_ok hok]
      simp only [State.engineWrite_undo, List.length_cons] at hrest ⊢
      omega

/-- A byte that none of the writes done has reached keeps its value; the write sequence says how
many they are. -/
theorem State.byteAt_writeBytes_unmade (a a' : Word) (bs : List Byte) {k : Nat}
    (hk : (s.writeBytes a bs).1.undo.length = s.undo.length + k)
    (h : inRange a' a k = false) : (s.writeBytes a bs).1.byteAt a' = s.byteAt a' := by
  induction bs generalizing s a k with
  | nil => rfl
  | cons b bs ih =>
    cases hok : s.platform.memOk a .write with
    | false => rw [State.writeBytes_cons_denied hok]
    | true =>
      rw [State.writeBytes_cons_ok hok] at hk ⊢
      obtain ⟨j, hj⟩ :=
        Nat.exists_eq_add_of_le ((s.engineWrite a b).writeBytes_undo_le (a + 1) bs)
      obtain rfl : k = 1 + j := by
        rw [hj, State.engineWrite_undo, List.length_cons] at hk
        omega
      have hne : a' ≠ a := by
        rintro rfl
        simp [inRange] at h
      rw [ih (s.engineWrite a b) (a + 1) hj (inRange_false_part h),
        State.byteAt_engineWrite, if_neg hne]

end

/-! ### Where a legal state's next step writes -/

section
variable {s : State} {m : EngineMove}

theorem State.encodeGroup_target (s : State) :
    s.encodeGroup.bytes = [] ∨ s.encodeGroup.target = s.encodeTarget := by
  unfold State.encodeGroup
  split
  · exact .inl rfl
  · exact .inr rfl

theorem State.decodeGroup_target (s : State) :
    s.decodeGroup.bytes = [] ∨ s.decodeGroup.target = s.decodeTarget := by
  unfold State.decodeGroup
  split
  · exact .inl rfl
  · split
    · exact .inl rfl
    · exact .inr rfl

theorem State.encodeStart_bytes (s : State) : s.encodeStart.bytes = [] := by
  unfold State.encodeStart
  split <;> rfl

theorem State.decodeStart_target (s : State) :
    s.decodeStart.bytes = [] ∨ s.decodeStart.target = s.dst := by
  unfold State.decodeStart
  split
  · exact .inl rfl
  · exact .inr rfl

/-- A running ENCODE has written the four symbols of each group before `g` (R73). -/
theorem State.EncodeRunning.encodeTarget_eq (h : s.EncodeRunning) :
    s.encodeTarget = s.dst + BitVec.ofNat 32 s.undo.length := by
  obtain ⟨_, _, _, _, hundo⟩ := h
  have : BitVec.ofNat 32 s.undo.length = 4 * s.g := by
    apply BitVec.eq_of_toNat_eq
    simp [hundo]
  rw [this, State.encodeTarget]

/-- A running DECODE has written `olen` bytes (R87). -/
theorem State.DecodeRunning.decodeTarget_eq (h : s.DecodeRunning) :
    s.decodeTarget = s.dst + BitVec.ofNat 32 s.undo.length := by
  obtain ⟨_, _, _, _, _, hundo⟩ := h
  rw [hundo, BitVec.ofNat_toNat, BitVec.setWidth_eq, State.decodeTarget]

/-- With no group left `g` is `G`. -/
theorem groups_eq_of_not_lt {g G : Word} (hg : ¬g < G) (hle : g.toNat ≤ G.toNat) : G = g := by
  bv_omega

/-- The writes of a running command go on where the ones before have ended (R73, R85, R87). -/
theorem State.EngineLegal.move_target (h : s.EngineLegal) (hm : s.engineMove = some m) :
    m.bytes = [] ∨ m.target = s.dst + BitVec.ofNat 32 s.undo.length := by
  obtain ⟨_, hrest, _, _, henc, hdec⟩ := h
  cases hp : s.phase with
  | idle => simp [State.engineMove_idle hp] at hm
  | enc =>
    obtain rfl : s.encodeMove = m := by simpa [State.engineMove, hp] using hm
    rcases s.encodeMove_cases with ⟨_, e⟩ | ⟨hs, _, e⟩ | ⟨hs, hg, e⟩ <;> rw [e]
    · exact .inl s.encodeStart_bytes
    · rw [← (henc hp hs).encodeTarget_eq]
      exact s.encodeGroup_target
    · obtain ⟨_, _, hle, _⟩ := henc hp hs
      rw [← (henc hp hs).encodeTarget_eq, State.encodeTarget, ← groups_eq_of_not_lt hg hle]
      exact .inr rfl
  | dec =>
    obtain rfl : s.decodeMove = m := by simpa [State.engineMove, hp] using hm
    rcases s.decodeMove_cases with ⟨hs, e⟩ | ⟨hs, _, e⟩ | ⟨hs, _, e⟩ <;> rw [e]
    · obtain ⟨_, _, _, _, hundo⟩ := hrest hs
      simpa [hundo] using s.decodeStart_target
    · rw [← (hdec hp hs).decodeTarget_eq]
      exact s.decodeGroup_target
    · rw [← (hdec hp hs).decodeTarget_eq]
      exact .inr rfl

/-- The output range of an ENCODE has room for the writes of each of its steps (R41, R73). -/
theorem State.EngineLegal.encodeMove_fits (h : s.EngineLegal) (hp : s.phase = .enc) :
    s.undo.length + s.encodeMove.bytes.length ≤ 4 * ceilDiv s.len.toNat 3 + 1 := by
  obtain ⟨_, hrest, _, _, henc, _⟩ := h
  rcases s.encodeMove_cases with ⟨hs, e⟩ | ⟨hs, hg, e⟩ | ⟨hs, _, e⟩
  · obtain ⟨_, _, _, _, hundo⟩ := hrest hs
    rw [e, s.encodeStart_bytes, hundo]
    exact Nat.zero_le _
  · obtain ⟨_, hG, _, _, hundo⟩ := henc hp hs
    have hfour : s.encodeMove.bytes.length ≤ 4 :=
      State.engineMove_length (s := s) (by simp only [State.engineMove, hp])
    have hlt : s.g.toNat < s.groups.toNat := hg
    omega
  · obtain ⟨_, hG, hle, _, hundo⟩ := henc hp hs
    have hone : s.encodeMove.bytes.length = 1 := by rw [e]; rfl
    omega

theorem State.EngineLegal.midStep_le_outputBytes (h : s.EngineLegal) (hp : s.phase ≠ .idle) :
    (s.midStep 4).undo.length ≤ s.outputBytes := by
  cases hphase : s.phase with
  | idle => exact absurd hphase hp
  | dec =>
    simp only [State.outputBytes, hphase]
    exact s.midStep_le_writesAhead _
  | enc =>
    have hm : s.engineMove = some s.encodeMove := by simp only [State.engineMove, hphase]
    rw [State.midStep_all hm (Nat.le_refl 4)]
    simp only [State.outputBytes, hphase]
    exact (s.writeBytes_undo_length_le _ _).trans (h.encodeMove_fits hphase)

theorem State.EngineLegal.byteAt_midStep (h : s.EngineLegal) {a : Word}
    (ha : inRange a s.dst (s.midStep 4).undo.length = false) :
    (s.midStep 4).byteAt a = s.byteAt a := by
  cases hm : s.engineMove with
  | none => simp only [State.midStep, hm]
  | some m =>
    rw [State.midStep_all hm (Nat.le_refl 4)] at ha ⊢
    rcases h.move_target hm with hnone | htarget
    · rw [State.writeMove, hnone]; rfl
    · obtain ⟨k, hk⟩ := Nat.exists_eq_add_of_le (s.writeBytes_undo_le m.target m.bytes)
      refine s.byteAt_writeBytes_unmade _ _ _ hk ?_
      rw [htarget]
      refine inRange_false_part ?_
      rw [← hk]
      exact ha

/-- An engine step changes no byte outside the output range (R41). -/
theorem State.EngineLegal.byteAt_engineStep (h : s.EngineLegal) {a : Word}
    (ha : s.inOutput a = false) : s.engineStep.byteAt a = s.byteAt a := by
  by_cases hp : s.phase = .idle
  · rw [State.engineStep_idle hp]
  · rw [State.byteAt_of_mem s.engineStep_mem]
    exact h.byteAt_midStep (inRange_false_mono (h.midStep_le_outputBytes hp) ha)

/-! ### The range holds still -/

/-- A step that does not end the command keeps which command it is. -/
theorem State.engineStep_phase (h : s.engineStep.phase ≠ .idle) :
    s.engineStep.phase = s.phase := by
  by_cases hp : s.phase = .idle
  · rw [State.engineStep_idle hp]
  · have effect := s.engineStep_effect hp
    generalize s.engineStep = t at effect h
    cases effect with
    | finish => exact absurd rfl h
    | begin => rfl
    | next a bs => exact s.writeBytes_phase a bs

/-- Once started, a legal command's `G` is its number of groups (R72, R86). -/
theorem State.EngineLegal.groups_eq_groupCount (h : s.EngineLegal) (hp : s.phase ≠ .idle)
    (hs : s.started = true) : s.groups.toNat = s.groupCount := by
  obtain ⟨_, _, _, _, henc, hdec⟩ := h
  unfold State.groupCount
  cases hphase : s.phase with
  | idle => exact absurd hphase hp
  | enc => obtain ⟨_, hG, _⟩ := henc hphase hs; exact hG
  | dec => obtain ⟨_, hG, _⟩ := hdec hphase hs; exact hG

/-- A legal command is over within its groups and two more steps. -/
theorem State.EngineLegal.engineSteps_over (h : s.EngineLegal) (hp : s.phase ≠ .idle) :
    (s.engineSteps (s.groupCount + 2)).Over := by
  cases hs : s.started with
  | false => exact State.engineSteps_over_of_start hp hs
  | true =>
    have hover := State.engineSteps_over_of_started s.groupCount hp hs
      (by rw [h.groups_eq_groupCount hp hs]; omega)
    rw [State.engineSteps_add s (s.groupCount + 1) 1]
    exact hover.engineSteps 1

/-- Until the command is over its output range is the same (R41). -/
theorem State.EngineLegal.outputBytes_engineStep (h : s.EngineLegal)
    (hnext : s.engineStep.phase ≠ .idle) : s.engineStep.outputBytes = s.outputBytes := by
  have hphase := State.engineStep_phase hnext
  unfold State.outputBytes
  rw [hphase, State.engineStep_len]
  cases hp : s.phase with
  | idle => rfl
  | enc => rfl
  | dec =>
    have hcount : s.engineStep.groupCount = s.len.toNat / 4 := by
      simp only [State.groupCount, hphase, hp, State.engineStep_len]
    have hover := h.engineStep.engineSteps_over hnext
    rw [hcount] at hover
    have hahead : s.writesAhead (s.len.toNat / 4 + 1 + 1) =
        s.engineStep.writesAhead (s.len.toNat / 4 + 1) := by
      rw [State.writesAhead, if_neg hnext]
    exact (State.writesAhead_stable hover.1 1).trans hahead.symm

end

/-- Settles O40: the writes of a step go on where the ones before have ended, and end inside the
range; and running the engine ahead from the next state finds the same end. -/
theorem engineWritesOnlyOutputRange : Obligations.EngineWritesOnlyOutputRange := by
  unfold Obligations.EngineWritesOnlyOutputRange
  exact fun s h => ⟨fun _ ha => h.byteAt_engineStep ha, fun hnext => h.outputBytes_engineStep hnext⟩

end Sys2Proof.Machine
end

section
/-! PROOF. What the port does not serve (R45), the host's accesses to memory (R49), and a command
that is placed (R51; log 8). -/

namespace Sys2Proof.Machine

/-! ### The register port (R45) -/

/-- The page of an address, as a number (R6). -/
theorem toNat_page (a : Word) : (a.extractLsb' 8 24).toNat = a.toNat / 256 := by
  rw [BitVec.extractLsb'_toNat, Nat.shiftRight_eq_div_pow]
  omega

/-- An access is served exactly when it is a single 32-bit one at a word-aligned address of the
window. -/
theorem State.serves_iff (s : State) (a : BusAccess) :
    s.serves a = true ↔ a.size = 4 ∧ a.beats = 1 ∧ a.addr.toNat % 4 = 0 ∧
      a.addr.toNat / 256 = s.platform.base.toNat / 256 := by
  have hpage : s.platform.basePage.toNat = s.platform.base.toNat / 256 := by
    rw [← toNat_page, Platform.base, page_of_address]
  have halign : (a.addr.extractLsb' 0 2).toNat = a.addr.toNat % 4 := by
    rw [BitVec.extractLsb'_toNat, Nat.shiftRight_zero]
  simp only [State.serves, Bool.and_eq_true, beq_iff_eq, ← BitVec.toNat_inj, toNat_page, halign,
    hpage, and_assoc]
  rfl

/-- Settles O46. -/
theorem unservedAccessAnswersError : Obligations.UnservedAccessAnswersError := by
  unfold Obligations.UnservedAccessAnswersError
  refine ⟨rfl, fun s a h => ?_⟩
  have hserves : ¬s.serves a = true := by
    rw [State.serves_iff]
    rintro ⟨hsize, hbeats, halign, hwindow⟩
    rcases h with h | h | h | h
    · exact h hsize
    · exact h hbeats
    · exact h halign
    · exact h hwindow
  rw [portAccess, if_neg hserves]
  rfl

/-! ### The host's accesses to memory (R49; logs 9, 14, 19 and 21) -/

theorem State.writeForbidden_iff (s : State) (a : Word) :
    s.writeForbidden a = true ↔ s.busy = true ∧ (s.inInput a = true ∨ s.inOutput a = true) := by
  simp [State.writeForbidden]

theorem State.readForbidden_iff (s : State) (a : Word) :
    s.readForbidden a = true ↔ s.busy = true ∧ s.inOutput a = true := by
  simp [State.readForbidden]

theorem hostStep_memWrite_refused {s : State} {a : Word} (b : Byte)
    (h : s.writeForbidden a = true) :
    hostStep (.memWrite a b) s = .refused .hostTouchesRunningBuffer := if_pos h

theorem hostStep_memWrite_performed {s : State} {a : Word} (b : Byte)
    (h : ¬s.writeForbidden a = true) : hostStep (.memWrite a b) s = .next (s.putByte a b) :=
  if_neg h

theorem hostStep_memRead_refused {s : State} {a : Word} (h : s.readForbidden a = true) :
    hostStep (.memRead a) s = .refused .hostTouchesRunningBuffer := if_pos h

theorem hostStep_memRead_performed {s : State} {a : Word} (h : ¬s.readForbidden a = true) :
    hostStep (.memRead a) s = .next (s.answer (.byte (s.byteAt a))) := if_neg h

/-- Settles O47: the ranges of R49 are those of the two checks. -/
theorem hostMemoryAccess : Obligations.HostMemoryAccess := by
  unfold Obligations.HostMemoryAccess
  refine fun s a b => ⟨fun hb hr => ?_, fun hb hr => ?_, fun h => ?_, fun h => ?_⟩
  · exact hostStep_memWrite_refused b ((s.writeForbidden_iff a).2 ⟨hb, hr⟩)
  · exact hostStep_memRead_refused ((s.readForbidden_iff a).2 ⟨hb, hr⟩)
  · have hallowed : ¬s.writeForbidden a = true := by
      rw [State.writeForbidden_iff]
      rcases h with hb | ⟨hi, ho⟩
      · simp [hb]
      · simp [hi, ho]
    exact ⟨s.putByte a b, hostStep_memWrite_performed b hallowed, rfl,
      fun a' => s.byteAt_putByte a a' b⟩
  · have hallowed : ¬s.readForbidden a = true := by
      rw [State.readForbidden_iff]
      rcases h with hb | ho
      · simp [hb]
      · simp [ho]
    exact hostStep_memRead_performed hallowed

/-! ### A command that is placed (R51; log 8) -/

theorem State.withFetchWord_eq (s : State) (w : Word) :
    s.withFetchWord 32 w.toNat = s.placeCommand w := by
  rw [State.withFetchWord, Nat.mod_eq_of_lt w.isLt, BitVec.ofNat_toNat, BitVec.setWidth_eq]

/-- With the block idle, taking the placed write off the host's list gives the state back. -/
theorem State.placeCommand_hostTurn {s : State} (h : s.phase = .idle) (w : Word) :
    (s.placeCommand w).hostTurn s.ops = s := by
  have hidle : (s.placeCommand w).phase = .idle := h
  rw [State.hostTurn, State.takeTurn_idle hidle, State.placeCommand, if_pos h]
  rfl

/-- Settles O5: the placed write is the host's next operation, and alone the host moves. -/
theorem placedCommandRunsNext : Obligations.PlacedCommandRunsNext := by
  unfold Obligations.PlacedCommandRunsNext
  intro s i h
  have hmover : (s.placeCommand (encode i)).mover = .host := State.mover_idle h
  have hstep := step_command hmover rfl (decode_encode_word i)
  rwa [State.placeCommand_hostTurn h, ← State.withFetchWord_eq] at hstep

end Sys2Proof.Machine
end

section
/-! PROOF. Command words: the decoder and the encoder (R53, R54), which words are illegal (R53, R57),
and what a CMD write does with each of them (R57, R92). -/

namespace Sys2Proof.Machine

/-! ### The nine words (R54) -/

/-- The word that decodes to an instruction is put together from its two fields. -/
theorem eq_encode_of_decode {w : Word} {i : Instr} (h : decode w = .ok i) : w = encode i := by
  obtain ⟨hzero, hop⟩ := Laws.opField_of_decode h
  obtain ⟨hzero', _⟩ := Laws.opField_of_decode (decode_encode_word i)
  calc w = zeroField w ++ opField w := Laws.word_of_fields w
    _ = zeroField (encode i) ++ opField (encode i) := by rw [hzero, hzero', hop]
    _ = encode i := (Laws.word_of_fields (encode i)).symm

theorem decode_eq_ok_iff (w : Word) (i : Instr) : decode w = .ok i ↔ w = encode i :=
  ⟨eq_encode_of_decode, fun h => h ▸ decode_encode_word i⟩

/-- Settles O2: the fields of R53 fix the word, and each word of R54 decodes to its command. -/
theorem decodeExactlyTheNineWords : Obligations.DecodeExactlyTheNineWords := by
  unfold Obligations.DecodeExactlyTheNineWords
  exact decode_eq_ok_iff

/-- Settles O1: the words written out are those that `encode` gives. -/
theorem commandWordsDecode : Obligations.CommandWordsDecode := by
  unfold Obligations.CommandWordsDecode
  exact ⟨decode_encode_word .enc1, decode_encode_word .enc2, decode_encode_word .enc3,
    decode_encode_word .dec, decode_encode_word .decf, decode_encode_word .encode,
    decode_encode_word .decode, decode_encode_word .flut, decode_encode_word .rlut⟩

/-! ### Illegal words (R53, R57) -/

/-- The opcode map gives no command to an OP outside R54. -/
theorem decodeOp_of_not_legal :
    ∀ op : BitVec 8, legalOps.contains op = false → decodeOp op.toNat = .error .opNotInMap := by
  decide

/-- A word that passes both checks of R57 is read as a command. -/
theorem exists_decode_of_wf {w : Word} (h : CommandWord.wf w = true) : ∃ i, decode w = .ok i := by
  cases hdecode : decode w with
  | ok i => exact ⟨i, rfl⟩
  | error e =>
    have hillegal : CommandWord.wf w = false := (commandWord_wf_false w).2 ⟨e, hdecode⟩
    simp [h] at hillegal

/-- A word that is none of the nine fails a check of R57. -/
theorem wf_false_of_ne_encode {w : Word} (h : ∀ i, encode i ≠ w) : CommandWord.wf w = false := by
  by_contra hwf
  obtain ⟨i, hi⟩ := exists_decode_of_wf (Bool.eq_true_of_not_eq_false hwf)
  exact h i (eq_encode_of_decode hi).symm

/-- Settles O3: `CMD[31:8]` is checked first, and then the map decides on OP. -/
theorem illegalWordsRejectedByName : Obligations.IllegalWordsRejectedByName := by
  unfold Obligations.IllegalWordsRejectedByName
  refine fun w => ⟨fun hzero => if_neg hzero, fun hzero hop => ?notInMap, fun hzero hop => ?inMap⟩
  case notInMap =>
    rw [decode, if_pos hzero]
    exact decodeOp_of_not_legal (opField w) hop
  case inMap =>
    have hchecks : CommandWord.zeroOk w = true ∧ CommandWord.opOk w = true :=
      ⟨beq_iff_eq.2 hzero, hop⟩
    exact exists_decode_of_wf ((Bool.and_eq_true ..).mpr hchecks)

/-! ### A CMD write (R57, R92) -/

theorem commandWrite_encode (i : Instr) (s : State) : commandWrite (encode i) s = exec i s := by
  rw [commandWrite, decode_encode_word]

/-- Settles O19: BUSY is looked at first, and then the whole word. -/
theorem commandDispatch : Obligations.CommandDispatch := by
  unfold Obligations.CommandDispatch
  refine ⟨fun w s hb => commandWrite_busy hb w, commandWrite_encode, fun w s hw hb => ?illegal⟩
  rw [commandWrite_illegal (wf_false_of_ne_encode hw) hb, State.illegal, statusFail_illegalCmd]

end Sys2Proof.Machine
end

section
/-! PROOF. The host assembly (R60), and that a poll is over in the end (R60, R111; logs 6 and 12). -/

namespace Sys2Proof.Machine

/-! ### One read of `poll` (R60) -/

theorem State.pollStep_busy {s : State} (hb : s.busy = true) :
    s.pollStep = (s.answer (.data s.status)).withOps (.poll :: s.ops) := if_pos hb

theorem State.pollStep_over {s : State} (hb : s.busy = false) :
    s.pollStep = s.answer (.data s.status) := if_neg (by simp [hb])

/-- Settles O59: each line expands as R60 writes it, and `poll` stays the next operation while bit 0
of STATUS is 1. -/
theorem pseudoInstructionExpansions : Obligations.PseudoInstructionExpansions := by
  unfold Obligations.PseudoInstructionExpansions
  refine ⟨fun base s n d => ⟨fun _ => rfl, fun _ _ => rfl, rfl, rfl, rfl⟩,
    fun s => ⟨fun hb => ?busy, fun hb => ?idle⟩⟩
  case busy => exact congrArg Host.Outcome.next (State.pollStep_busy hb)
  case idle => exact congrArg Host.Outcome.next (State.pollStep_over hb)

/-! ### The engine steps still to come (R14, R116) -/

/-- A bound on the running command's engine steps still to come (R73, R87): its start step, its
groups and the terminator step. It does not look at the host's side of the state. -/
def State.stepsLeft (s : State) : Nat :=
  if s.phase = .idle then 0
  else if s.started then s.groups.toNat - s.g.toNat + 1
  else s.groupCount + 2

section
variable {s : State}

theorem State.stepsLeft_idle (hp : s.phase = .idle) : s.stepsLeft = 0 := if_pos hp

theorem State.stepsLeft_started (hp : s.phase ≠ .idle) (hs : s.started = true) :
    s.stepsLeft = s.groups.toNat - s.g.toNat + 1 := by
  rw [State.stepsLeft, if_neg hp, if_pos hs]

theorem State.stepsLeft_start (hp : s.phase ≠ .idle) (hs : s.started = false) :
    s.stepsLeft = s.groupCount + 2 := by
  simp [State.stepsLeft, hp, hs]

theorem State.stepsLeft_pos (hp : s.phase ≠ .idle) : 0 < s.stepsLeft := by
  cases hs : s.started with
  | true => rw [State.stepsLeft_started hp hs]; omega
  | false => rw [State.stepsLeft_start hp hs]; omega

/-- Every engine step of a running command uses up one of them. -/
theorem State.stepsLeft_engineStep (hp : s.phase ≠ .idle) :
    s.engineStep.stepsLeft < s.stepsLeft := by
  have effect := s.engineStep_effect hp
  generalize s.engineStep = t at effect
  cases effect with
  | finish =>
    rw [State.stepsLeft_idle rfl]
    exact State.stepsLeft_pos hp
  | begin hs =>
    have hle : s.groupCount % 2 ^ 32 ≤ s.groupCount := Nat.mod_le _ _
    rw [State.stepsLeft_start hp hs,
      State.stepsLeft_started (s := s.begin s.groupCount) hp (s.begin_started _)]
    simp only [State.begin_groups, BitVec.toNat_ofNat]
    omega
  | next a bs hs hg =>
    have hlt : s.g.toNat < s.groups.toNat := hg
    have hsucc := toNat_succ_of_lt hg
    rw [State.stepsLeft_started hp hs,
      State.stepsLeft_started (by simpa using hp) (by simpa using hs)]
    simp only [State.nextGroup_groups, State.nextGroup_g, State.writeBytes_groups,
      State.writeBytes_g]
    omega

/-- A legal command has at most its groups and two more steps to come. -/
theorem State.EngineLegal.stepsLeft_le (h : s.EngineLegal) : s.stepsLeft ≤ s.groupCount + 2 := by
  by_cases hp : s.phase = .idle
  · rw [State.stepsLeft_idle hp]; omega
  · cases hs : s.started with
    | false => rw [State.stepsLeft_start hp hs]
    | true => rw [State.stepsLeft_started hp hs, h.groups_eq_groupCount hp hs]; omega

@[simp] theorem State.takeTurn_stepsLeft : s.takeTurn.stepsLeft = s.stepsLeft := by
  unfold State.takeTurn; split <;> rfl
@[simp] theorem State.answer_stepsLeft (r : Answer) : (s.answer r).stepsLeft = s.stepsLeft := rfl
@[simp] theorem State.withOps_stepsLeft (o : List HostOp) :
    (s.withOps o).stepsLeft = s.stepsLeft := rfl

/-! ### A poll that waits -/

theorem State.takeTurn_sched_length (s : State) :
    s.takeTurn.sched.length ≤ s.sched.length := by
  unfold State.takeTurn
  split
  · simp
  · exact Nat.le_refl _

/-- Where both agents can move and the host does, it has used up a choice of the schedule (log 6). -/
theorem State.takeTurn_sched_length_host (hp : s.phase ≠ .idle) (hm : s.mover = .host) :
    s.takeTurn.sched.length < s.sched.length := by
  have hcontended : s.contended = true := by
    by_contra hc
    simp [State.mover, hc, hp] at hm
  rw [State.mover, if_pos hcontended] at hm
  rw [State.takeTurn, if_pos hcontended]
  cases hsched : s.sched with
  | nil => simp [hsched] at hm
  | cons agent sched => simp

theorem State.EngineLegal.busy_iff (h : s.EngineLegal) : s.busy = true ↔ s.phase ≠ .idle := by
  obtain ⟨hbusy, _⟩ := h
  exact hbusy

/-- While BUSY is 1 a step leaves `poll` the next operation, and uses up a choice of the schedule or
an engine step. -/
theorem step_of_waiting_poll {rest : List HostOp} (h : s.EngineLegal) (hp : s.phase ≠ .idle)
    (ho : s.ops = .poll :: rest) :
    ∃ t, step s = .next t ∧ t.EngineLegal ∧ t.ops = .poll :: rest ∧
      t.sched.length + t.stepsLeft < s.sched.length + s.stepsLeft := by
  have hbusy : s.busy = true := h.busy_iff.2 hp
  cases hm : s.mover with
  | engine =>
    have hsched := s.takeTurn_sched_length
    have hsteps := State.stepsLeft_engineStep (s := s.takeTurn) (by simpa using hp)
    refine ⟨_, step_engine hm, h.takeTurn.engineStep, by simpa using ho, ?_⟩
    rw [State.takeTurn_stepsLeft] at hsteps
    rw [State.engineStep_sched]
    omega
  | host =>
    have hsched := State.takeTurn_sched_length_host hp hm
    have hstep : step s = .next (s.hostTurn rest).pollStep := step_host hm ho
    rw [State.pollStep_busy (by simpa using hbusy)] at hstep
    refine ⟨_, hstep, stepKeepsEngineLegal _ _ h hstep, rfl, ?_⟩
    simp only [State.hostTurn, State.withOps_sched, State.answer_sched, State.withOps_stepsLeft,
      State.answer_stepsLeft, State.takeTurn_stepsLeft]
    omega

/-- With the block idle a poll is over in one step, and it has read STATUS with BUSY 0. -/
theorem step_of_last_poll {rest : List HostOp} (h : s.EngineLegal) (hp : s.phase = .idle)
    (ho : s.ops = .poll :: rest) :
    ∃ t, step s = .next t ∧ t.ops = rest ∧ t.busy = false ∧
      t.heard.head? = some (.data t.status) := by
  have hbusy : s.busy = false := Bool.eq_false_iff.2 fun hb => h.busy_iff.1 hb hp
  have hstep : step s = .next (s.hostTurn rest).pollStep := step_host (State.mover_idle hp) ho
  rw [State.pollStep_over (by simpa using hbusy)] at hstep
  exact ⟨_, hstep, rfl, by simpa using hbusy, rfl⟩

end

/-- A poll is over within the choices of the schedule, the engine steps still to come and one more. -/
theorem poll_over_within {s : State} {rest : List HostOp} (k : Nat) (h : s.EngineLegal)
    (ho : s.ops = .poll :: rest) (hk : s.sched.length + s.stepsLeft ≤ k) :
    ∃ n t, n ≤ k + 1 ∧ Host.Core.run core n s = .next t ∧ t.ops = rest ∧ t.busy = false ∧
      t.heard.head? = some (.data t.status) := by
  induction k using Nat.strongRecOn generalizing s with
  | ind k ih =>
    by_cases hp : s.phase = .idle
    · obtain ⟨t, hstep, ht⟩ := step_of_last_poll h hp ho
      exact ⟨1, t, by omega, run_succ_of_step core 0 hstep, ht⟩
    · obtain ⟨u, hstep, hlegal, hops, hless⟩ := step_of_waiting_poll h hp ho
      obtain ⟨n, t, hn, hrun, ht⟩ := ih (k - 1) (by omega) hlegal hops (by omega)
      exact ⟨n + 1, t, by omega, (run_succ_of_step core n hstep).trans hrun, ht⟩

/-- Settles O49: a legal command has at most its groups and two more engine steps to come. -/
theorem pollTerminates : Obligations.PollTerminates := by
  unfold Obligations.PollTerminates
  intro s rest h ho
  have hle := h.stepsLeft_le
  obtain ⟨n, t, hn, ht⟩ := poll_over_within (s.sched.length + s.stepsLeft) h ho (Nat.le_refl _)
  exact ⟨n, t, by omega, ht⟩

end Sys2Proof.Machine
end

section
/-! PROOF. The tables (R61 to R64): the forward table by its ranges, the reverse table as its
inverse with a census of its classes, and the lookup commands that read them (R65, R66). -/

namespace Sys2Proof.Machine

/-! ### The forward table (R62): upper case, lower case, digits, and the two entries left -/

theorem fwd_upper : ∀ v : Sextet, v.toNat ≤ 25 → (fwd v).toNat = v.toNat + 0x41 := by decide

theorem fwd_lower : ∀ v : Sextet, 26 ≤ v.toNat → v.toNat ≤ 51 → (fwd v).toNat = v.toNat + 0x47 := by
  decide

theorem fwd_digit : ∀ v : Sextet, 52 ≤ v.toNat → v.toNat ≤ 61 → (fwd v).toNat = v.toNat - 4 := by
  decide

/-- REV reads back every entry of FWD (R64). -/
theorem rev_fwd : ∀ v : Sextet, rev (fwd v) = .valid v := by decide

theorem fwd_injective {v w : Sextet} (h : fwd v = fwd w) : v = w := by
  have hrev : SymbolClass.valid v = .valid w := by rw [← rev_fwd v, ← rev_fwd w, h]
  injection hrev

theorem rev_padSymbol : rev padSymbol = .pad := rfl

/-- The pad is read as PAD, and an entry of FWD as VALID. -/
theorem fwd_ne_padSymbol (v : Sextet) : fwd v ≠ padSymbol := by
  intro h
  have hrev := rev_fwd v
  rw [h, rev_padSymbol] at hrev
  cases hrev

/-- Settles O6: REV reads FWD back, so two entries are never the same and none is the pad. -/
theorem forwardTableClosedForm : Obligations.ForwardTableClosedForm := by
  unfold Obligations.ForwardTableClosedForm
  refine ⟨fun v => ⟨fwd_upper v, fwd_lower v, fwd_digit v, fun hplus => ?plus,
    fun hslash => ?slash⟩, fun v w => fwd_injective, fwd_ne_padSymbol⟩
  case plus =>
    obtain rfl : v = 62 := BitVec.eq_of_toNat_eq hplus
    rfl
  case slash =>
    obtain rfl : v = 63 := BitVec.eq_of_toNat_eq hslash
    rfl

/-! ### The reverse table (R63, R64) -/

section
variable {b : Byte}

theorem rev_upper (hlow : 0x41 ≤ b.toNat) (hhigh : b.toNat ≤ 0x5A) :
    rev b = .valid (BitVec.ofNat 6 (b.toNat - 0x41)) := if_pos ⟨hlow, hhigh⟩

theorem rev_lower (hlow : 0x61 ≤ b.toNat) (hhigh : b.toNat ≤ 0x7A) :
    rev b = .valid (BitVec.ofNat 6 (b.toNat - 0x47)) := by
  rw [rev, if_neg (by omega), if_pos ⟨hlow, hhigh⟩]

theorem rev_digit (hlow : 0x30 ≤ b.toNat) (hhigh : b.toNat ≤ 0x39) :
    rev b = .valid (BitVec.ofNat 6 (b.toNat + 4)) := by
  rw [rev, if_neg (by omega), if_neg (by omega), if_pos ⟨hlow, hhigh⟩]

/-- A byte that REV calls VALID is the entry of FWD at its value. -/
theorem fwd_of_rev {v : Sextet} (h : rev b = .valid v) : fwd v = b := by
  rw [rev] at h
  split_ifs at h with hupper hlower hdigit hplus hslash <;> injection h with hv <;> subst hv <;>
    refine BitVec.eq_of_toNat_eq ?_
  · rw [fwd_upper _ (by bv_omega)]; bv_omega
  · rw [fwd_lower _ (by bv_omega) (by bv_omega)]; bv_omega
  · rw [fwd_digit _ (by bv_omega) (by bv_omega)]; bv_omega
  · exact hplus.symm
  · exact hslash.symm

theorem rev_eq_pad_iff : rev b = .pad ↔ b = padSymbol := by
  refine ⟨fun h => ?_, fun h => h ▸ rev_padSymbol⟩
  rw [rev] at h
  split_ifs at h with _ _ _ _ _ hpad
  exact BitVec.eq_of_toNat_eq hpad

end

/-- Settles O8: each table reads back what the other gives. -/
theorem tablesAreInverse : Obligations.TablesAreInverse := by
  unfold Obligations.TablesAreInverse
  exact ⟨rev_fwd, fun b v => fwd_of_rev, rev_padSymbol, fwd_ne_padSymbol⟩

/-! ### How many bytes are in each class (R63) -/

/-- The 256 indices of REV in order. -/
def allBytes : List Byte := (List.range 256).map (BitVec.ofNat 8)

theorem mem_allBytes (b : Byte) : b ∈ allBytes :=
  List.mem_map.2 ⟨b.toNat, List.mem_range.2 b.isLt, BitVec.eq_of_toNat_eq (Nat.mod_eq_of_lt b.isLt)⟩

theorem nodup_allBytes : allBytes.Nodup := by
  refine List.nodup_range.map_on fun m hm n hn h => ?_
  have hmod : m % 256 = n % 256 := congrArg BitVec.toNat h
  rwa [Nat.mod_eq_of_lt (List.mem_range.1 hm), Nat.mod_eq_of_lt (List.mem_range.1 hn)] at hmod

theorem mem_fwdRom_iff {b : Byte} : b ∈ fwdRom ↔ ∃ v, rev b = .valid v := by
  constructor
  · intro h
    have hrows : ∀ c ∈ fwdRom, fwd (rev c).value = c := by decide
    exact ⟨(rev b).value, by rw [← hrows b h, rev_fwd, SymbolClass.value]⟩
  · rintro ⟨v, hv⟩
    have hlt : v.toNat < fwdRom.length := v.isLt
    rw [← fwd_of_rev hv, fwd, List.getD_eq_getElem _ _ hlt]
    exact List.getElem_mem hlt

/-- The VALID bytes are the entries of FWD in another order. -/
theorem validBytes_perm :
    (allBytes.filter fun b => rev b != .pad && rev b != .invalid).Perm fwdRom := by
  have hdistinct : fwdRom.Nodup := by decide
  refine (List.perm_ext_iff_of_nodup (nodup_allBytes.filter _) hdistinct).2 fun b => ?_
  rw [mem_fwdRom_iff, List.mem_filter, and_iff_right (mem_allBytes b)]
  cases rev b <;> simp

theorem padBytes_eq : allBytes.filter (fun b => rev b == .pad) = [padSymbol] := by
  calc allBytes.filter (fun b => rev b == .pad)
      = allBytes.filter (fun b => b == padSymbol) :=
        List.filter_congr fun b _ => Bool.eq_iff_iff.2 (by simp [rev_eq_pad_iff])
    _ = [padSymbol] := by
        rw [List.filter_beq, nodup_allBytes.count, if_pos (mem_allBytes _)]; rfl

theorem allBytes_length : allBytes.length = 256 := by
  rw [allBytes, List.length_map, List.length_range]

/-- Every byte of a list is INVALID, PAD or VALID. -/
theorem length_by_class (bs : List Byte) :
    bs.length = (bs.filter fun b => rev b == .invalid).length +
      ((bs.filter fun b => rev b == .pad).length +
        (bs.filter fun b => rev b != .pad && rev b != .invalid).length) := by
  have hpad : ∀ b ∈ bs, (rev b == .pad && !(rev b == .invalid)) = (rev b == .pad) := by
    intro b _
    cases rev b <;> rfl
  rw [List.length_eq_length_filter_add fun b => rev b == .invalid,
    List.length_eq_length_filter_add (l := bs.filter fun b => !(rev b == .invalid))
      fun b => rev b == .pad, List.filter_filter, List.filter_filter, List.filter_congr hpad]
  rfl

/-- Settles O7: the ranges are the branches of `rev`; the VALID bytes are as many as the entries of
FWD, and INVALID is what they and the pad leave. -/
theorem reverseTableEntries : Obligations.ReverseTableEntries := by
  unfold Obligations.ReverseTableEntries
  have hvalid : (allBytes.filter fun b => rev b != .pad && rev b != .invalid).length = 64 :=
    validBytes_perm.length_eq
  have hinvalid : (allBytes.filter fun b => rev b == .invalid).length = 191 := by
    have hall := length_by_class allBytes
    rw [allBytes_length, padBytes_eq, hvalid, List.length_singleton] at hall
    omega
  exact ⟨fun b => ⟨rev_upper, rev_lower, rev_digit⟩, rfl, rfl, hvalid, padBytes_eq, hinvalid⟩

/-! ### The lookup commands (R65, R66) -/

/-- A command that completes with COUNT 1 on an idle block leaves this state (R57, R58). -/
theorem State.accept_complete_one {s : State} (hb : s.busy = false) (dout : State → Word) :
    s.accept (fun u => u.complete (dout u) 1) =
      .next { s with dout := dout s, status := 0x00000100 } := by
  rw [State.accept_idle hb, State.complete, statusComplete_one]

theorem exec_flut {s : State} (hb : s.busy = false) :
    exec .flut s = .next { s with dout := (fwd s.din5).setWidth 32, status := 0x00000100 } :=
  State.accept_complete_one hb fun u => (fwd u.din5).setWidth 32

theorem exec_rlut {s : State} (hb : s.busy = false) :
    exec .rlut s = .next { s with dout := (rev s.din7).word, status := 0x00000100 } :=
  State.accept_complete_one hb fun u => (rev u.din7).word

theorem zero_append_eq_setWidth {m n : Nat} (x : BitVec n) :
    (0 : BitVec m) ++ x = x.setWidth (m + n) := by
  have hfits : x.toNat < 2 ^ (m + n) :=
    x.isLt.trans_le (Nat.pow_le_pow_right (by decide) (by omega))
  apply BitVec.eq_of_toNat_eq
  simp [BitVec.toNat_append, Nat.mod_eq_of_lt hfits]

/-- Settles O13: the entry is zero-extended to the width of DOUT. -/
theorem flutResult : Obligations.FlutResult := by
  unfold Obligations.FlutResult
  refine ⟨rfl, fun s hb => ?_⟩
  rw [exec_flut hb, zero_append_eq_setWidth, State.din5]

/-- Settles O14: DOUT is the class of the byte as a word. -/
theorem rlutResult : Obligations.RlutResult := by
  unfold Obligations.RlutResult
  refine ⟨rfl, fun s hb => ?_⟩
  rw [exec_rlut hb]
  refine ⟨fun v hv => ?valid, fun hpad => ?pad, fun hinvalid => ?invalid⟩
  case valid => rw [hv, SymbolClass.word, zero_append_eq_setWidth]
  case pad => rw [hpad, SymbolClass.word]
  case invalid => rw [hinvalid, SymbolClass.word]

end Sys2Proof.Machine
end

section
/-! PROOF. The encoder's group transform (R67, R68) and the commands ENC1, ENC2 and ENC3 (R69 to
R71). -/

namespace Sys2Proof.Machine

/-! ### The symbols of a group -/

section
variable (b0 b1 b2 : Byte)

theorem encGroup_one :
    encGroup 1 b0 b1 b2 =
      ⟨fwd (b0.extractLsb' 2 6), fwd (b0.extractLsb' 0 2 ++ (0 : BitVec 4)), padSymbol,
        padSymbol⟩ := by
  have hword : groupWord 1 b0 b1 b2 = b0 ++ (0 : Byte) ++ (0 : Byte) := rfl
  simp only [encGroup, hword, group_slice0, group_slice1]
  rfl

theorem encGroup_two :
    encGroup 2 b0 b1 b2 =
      ⟨fwd (b0.extractLsb' 2 6), fwd (b0.extractLsb' 0 2 ++ b1.extractLsb' 4 4),
        fwd (b1.extractLsb' 0 4 ++ (0 : BitVec 2)), padSymbol⟩ := by
  have hword : groupWord 2 b0 b1 b2 = b0 ++ b1 ++ (0 : Byte) := rfl
  simp only [encGroup, hword, group_slice0, group_slice1, group_slice2]
  rfl

theorem encGroup_three :
    encGroup 3 b0 b1 b2 =
      ⟨fwd (b0.extractLsb' 2 6), fwd (b0.extractLsb' 0 2 ++ b1.extractLsb' 4 4),
        fwd (b1.extractLsb' 0 4 ++ b2.extractLsb' 6 2), fwd (b2.extractLsb' 0 6)⟩ := by
  have hword : groupWord 3 b0 b1 b2 = b0 ++ b1 ++ b2 := rfl
  simp only [encGroup, hword, group_slice0, group_slice1, group_slice2, group_slice3]
  rfl

end

/-! ### R67's formulas name the same bits -/

theorem low_six_eq : ∀ b : Byte, (b &&& 0x3F).setWidth 6 = b.extractLsb' 0 6 := by decide

/-- The last two bits of a byte, then the first four of the next one. -/
theorem two_four_bits_eq (x y : Byte) :
    (((x &&& 0x03) <<< 4) ||| (y >>> 4)).setWidth 6 = x.extractLsb' 0 2 ++ y.extractLsb' 4 4 := by
  have hx : ∀ x : Byte, ((x &&& 0x03) <<< 4).setWidth 6 = x.extractLsb' 0 2 ++ 0#4 := by decide
  have hy : ∀ y : Byte, (y >>> 4).setWidth 6 = 0#2 ++ y.extractLsb' 4 4 := by decide
  rw [BitVec.setWidth_or, hx, hy, BitVec.or_append, BitVec.or_zero, BitVec.zero_or]

/-- The last four bits of a byte, then the first two of the next one. -/
theorem four_two_bits_eq (x y : Byte) :
    (((x &&& 0x0F) <<< 2) ||| (y >>> 6)).setWidth 6 = x.extractLsb' 0 4 ++ y.extractLsb' 6 2 := by
  have hx : ∀ x : Byte, ((x &&& 0x0F) <<< 2).setWidth 6 = x.extractLsb' 0 4 ++ 0#2 := by decide
  have hy : ∀ y : Byte, (y >>> 6).setWidth 6 = 0#4 ++ y.extractLsb' 6 2 := by decide
  rw [BitVec.setWidth_or, hx, hy, BitVec.or_append, BitVec.or_zero, BitVec.zero_or]

/-- Settles O9: R67's formulas pick the slices of the 24-bit group word. -/
theorem encGroupFormula : Obligations.EncGroupFormula := by
  unfold Obligations.EncGroupFormula
  intro b0 b1 b2
  simp only [two_four_bits_eq, four_two_bits_eq, low_six_eq,
    BitVec.setWidth_ushiftRight_eq_extractLsb]
  exact ⟨encGroup_one b0 b1 b2, encGroup_two b0 b1 b2, encGroup_three b0 b1 b2⟩

/-! ### The commands (R69 to R71) -/

/-- A command that completes with COUNT 4 on an idle block leaves this state (R57, R58). -/
theorem State.accept_complete_four {s : State} (hb : s.busy = false) (dout : State → Word) :
    s.accept (fun u => u.complete (dout u) 4) =
      .next { s with dout := dout s, status := 0x00000400 } := by
  rw [State.accept_idle hb, State.complete, statusComplete_four]

theorem exec_enc1 {s : State} (hb : s.busy = false) :
    exec .enc1 s =
      .next { s with dout := (encGroup 1 s.din23 0 0).word, status := 0x00000400 } :=
  State.accept_complete_four hb fun u => (encGroup 1 u.din23 0 0).word

theorem exec_enc2 {s : State} (hb : s.busy = false) :
    exec .enc2 s =
      .next { s with dout := (encGroup 2 s.din23 s.din15 0).word, status := 0x00000400 } :=
  State.accept_complete_four hb fun u => (encGroup 2 u.din23 u.din15 0).word

theorem exec_enc3 {s : State} (hb : s.busy = false) :
    exec .enc3 s =
      .next { s with dout := (encGroup 3 s.din23 s.din15 s.din7).word, status := 0x00000400 } :=
  State.accept_complete_four hb fun u => (encGroup 3 u.din23 u.din15 u.din7).word

/-- Settles O10: DOUT is the group of one byte as a word. -/
theorem enc1Result : Obligations.Enc1Result := by
  unfold Obligations.Enc1Result
  refine ⟨rfl, fun s hb => ?_⟩
  rw [exec_enc1 hb, encGroup_one, Quad.word, padSymbol]

/-- Settles O11: DOUT is the group of two bytes as a word. -/
theorem enc2Result : Obligations.Enc2Result := by
  unfold Obligations.Enc2Result
  refine ⟨rfl, fun s hb => ?_⟩
  rw [exec_enc2 hb, encGroup_two, Quad.word, padSymbol]

/-- Settles O12: DOUT is the group of three bytes as a word. -/
theorem enc3Result : Obligations.Enc3Result := by
  unfold Obligations.Enc3Result
  refine ⟨rfl, fun s hb => ?_⟩
  rw [exec_enc3 hb, encGroup_three, Quad.word]

end Sys2Proof.Machine
end

section
/-! PROOF. The acceptance of ENCODE, how a buffer command ends, and the engine steps of ENCODE (R72,
R73, R74, R75, R94). -/

namespace Sys2Proof.Machine

/-! ### Acceptance and the end (R73, R74) -/

/-- Settles O20: on an idle block ENCODE starts the engine. -/
theorem encodeAccepted : Obligations.EncodeAccepted := by
  unfold Obligations.EncodeAccepted
  intro s hb
  have hexec : exec .encode s = .next (s.startBuffer .enc) :=
    State.accept_idle hb fun u => u.startBuffer .enc
  rw [hexec, State.startBuffer, statusRunning_word]

/-- Settles O23, field by field. -/
theorem finishEndsCommand : Obligations.FinishEndsCommand := by
  unfold Obligations.FinishEndsCommand
  intro s err code rlen grp
  exact ⟨rfl, rfl, statusErr_finish _ err code, statusCode_finish _ err code,
    statusCount_finish _ err code, statusBusy_finish _ err code, statusIgn_finish _ err code, rfl,
    ⟨rfl, rfl, rfl, rfl, rfl⟩, rfl⟩

/-- A command accepted by the block that ends without an error leaves STATUS 0 (R73, R74). -/
theorem statusFinish_running : statusFinish statusRunning false .none = 0 := by decide

section
variable {s : State}

/-! ### ENCODE's start step (R72, R73) -/

theorem State.engineStep_encodeStart_tooLong (hp : s.phase = .enc) (hs : s.started = false)
    (hlen : Config.encMaxLen < s.len.toNat) : s.engineStep = s.finish true .length 0 0 := by
  have hmove : s.encodeMove = .quiet (.finish true .length 0 0) := by
    simp [State.encodeMove, State.encodeStart, hs, hlen]
  rw [State.engineStep_enc hp, hmove, State.performMove_quiet, State.endStep_finish]

theorem State.engineStep_encodeStart (hp : s.phase = .enc) (hs : s.started = false)
    (hlen : s.len.toNat ≤ Config.encMaxLen) : s.engineStep = s.begin (ceilDiv s.len.toNat 3) := by
  have hmove : s.encodeMove = .quiet (.begin (ceilDiv s.len.toNat 3)) := by
    simp [State.encodeMove, State.encodeStart, hs, Nat.not_lt.2 hlen]
  rw [State.engineStep_enc hp, hmove, State.performMove_quiet, State.endStep_begin]

/-! ### ENCODE's group step (R73) -/

/-- A group step whose accesses are completed writes the symbols of the bytes it reads. -/
theorem State.engineStep_encodeGroup {bs : List Byte} (hp : s.phase = .enc)
    (hs : s.started = true) (hg : s.g < s.groups)
    (hread : s.readBytes s.encodeCount s.encodeSource = some bs)
    (hdone : (s.writeBytes s.encodeTarget (encodeSymbols bs).bytes).2 = true) :
    s.engineStep =
      (s.writeBytes s.encodeTarget (encodeSymbols bs).bytes).1.nextGroup 4 := by
  have hmove : s.encodeMove = ⟨s.encodeTarget, (encodeSymbols bs).bytes, s.g, .next 4⟩ := by
    simp [State.encodeMove, State.encodeGroup, hs, hg, hread]
  rw [State.engineStep_enc hp, hmove, State.performMove_done hdone]
  rfl

/-- The symbols of a group depend on its bytes alone: those past the count are taken as 0 (R67). -/
theorem encodeSymbols_take {n : Nat} (b0 b1 b2 : Byte) (hpos : 1 ≤ n) (hle : n ≤ 3) :
    encodeSymbols ([b0, b1, b2].take n) = encGroup n b0 b1 b2 := by
  obtain rfl | rfl | rfl : n = 1 ∨ n = 2 ∨ n = 3 := by omega
  all_goals rfl

/-! ### The terminator step (R73, R87, R94) -/

/-- The terminator step of either command, with `n` output bytes written (R73, R87). -/
def State.terminatorMove (s : State) (n : Word) : EngineMove :=
  ⟨s.dst + n, [terminator], s.groups, .finish false .none n 0⟩

theorem State.engineStep_terminator {n : Word} (hs : s.started = true) (hg : ¬s.g < s.groups)
    (hn : s.phase = .enc ∧ n = 4 * s.groups ∨ s.phase = .dec ∧ n = s.olen) :
    s.engineStep = s.performMove (s.terminatorMove n) := by
  rcases hn with ⟨hp, rfl⟩ | ⟨hp, rfl⟩
  · rw [State.engineStep_enc hp, State.encodeMove, if_pos hs, if_neg hg]
    rfl
  · rw [State.engineStep_dec hp, State.decodeMove, if_pos hs, if_neg hg]
    rfl

theorem State.performMove_terminator_done {n : Word}
    (hok : s.platform.memOk (s.dst + n) .write = true) :
    s.performMove (s.terminatorMove n) =
      (s.engineWrite (s.dst + n) terminator).finish false .none n 0 := by
  have hwrite : s.writeBytes (s.dst + n) [terminator] =
      (s.engineWrite (s.dst + n) terminator, true) := State.writeBytes_cons_ok hok
  rw [State.performMove_done (congrArg Prod.snd hwrite), State.writeMove, State.terminatorMove,
    hwrite, State.endStep_finish]

theorem State.performMove_terminator_denied {n : Word}
    (hdenied : s.platform.memOk (s.dst + n) .write = false) :
    s.performMove (s.terminatorMove n) = s.finish true .busError 0 s.groups := by
  have hwrite : s.writeBytes (s.dst + n) [terminator] = (s, false) :=
    State.writeBytes_cons_denied hdenied
  rw [State.performMove_busError (congrArg Prod.snd hwrite), State.writeMove, State.terminatorMove,
    hwrite]

end

/-- Settles O24: the start step refuses the length before any access. -/
theorem encodeLengthLimit : Obligations.EncodeLengthLimit := by
  unfold Obligations.EncodeLengthLimit
  intro s hp hs hlen
  rw [State.engineStep_encodeStart_tooLong hp hs hlen]
  rfl

/-- Settles O37: the engine reads the group's bytes, and these give the symbols of the group. -/
theorem encodeGroupStep : Obligations.EncodeGroupStep := by
  unfold Obligations.EncodeGroupStep
  intro s b0 b1 b2 n hp hs hg hn hpos hread hdone
  have hsymbols := encodeSymbols_take b0 b1 b2 hpos (by omega)
  subst hn
  rw [← hsymbols] at hdone ⊢
  rw [State.engineStep_encodeGroup hp hs hg hread hdone, State.nextGroup, State.writeBytes_olen,
    State.writeBytes_g]
  rfl

/-- Settles O60: both commands make the same move, and its one write is completed or denied. -/
theorem terminatorStepFinishes : Obligations.TerminatorStepFinishes := by
  unfold Obligations.TerminatorStepFinishes
  intro s n hs hg hn
  rw [State.engineStep_terminator hs hg hn]
  refine ⟨fun hok => ?done, fun hdenied => ?busError⟩
  case done =>
    rw [State.performMove_terminator_done hok]
    rfl
  case busError =>
    rw [State.performMove_terminator_denied hdenied]
    rfl

/-- Settles O26: with no group the start step is followed by the terminator step. -/
theorem encodeOfNothing : Obligations.EncodeOfNothing := by
  unfold Obligations.EncodeOfNothing
  intro s hlen hok
  have hstart : (s.startBuffer .enc).engineStep = (s.startBuffer .enc).begin 0 := by
    have hnone : (s.startBuffer .enc).len.toNat = 0 := by simp [hlen]
    rw [State.engineStep_encodeStart rfl rfl (by rw [hnone]; exact Nat.zero_le _), hnone]
    rfl
  have hend : ((s.startBuffer .enc).begin 0).engineStep =
      (((s.startBuffer .enc).begin 0).engineWrite s.dst terminator).finish false .none 0 0 := by
    have hdst : ((s.startBuffer .enc).begin 0).dst + 0 = s.dst := BitVec.add_zero s.dst
    rw [State.engineStep_terminator (n := 0) rfl (by simp) (.inl ⟨rfl, rfl⟩),
      State.performMove_terminator_done (by rw [hdst]; exact hok), hdst]
  rw [State.engineSteps, State.engineSteps, State.engineSteps, hstart, hend]
  exact ⟨rfl, statusFinish_running, rfl, rfl,
    fun a => State.byteAt_engineWrite _ s.dst a terminator⟩

end Sys2Proof.Machine
end

section
/-! PROOF. A run of ENCODE without bus errors (R41, R67, R72, R73, R76): how it ends, and the bytes
that it leaves in memory. -/

namespace Sys2Proof.Machine

/-! ### The bytes of a range -/

theorem State.bytesAt_eq_of_getElem? {s : State} {a : Word} {n : Nat} {bs : List Byte}
    (hlen : bs.length = n)
    (h : ∀ i, i < n → bs[i]? = some (s.byteAt (a + BitVec.ofNat 32 i))) : s.bytesAt a n = bs := by
  refine List.ext_getElem? fun i => ?_
  by_cases hi : i < n
  · rw [State.bytesAt_getElem? s a hi, h i hi]
  · rw [List.getElem?_eq_none (by rw [State.bytesAt_length]; omega),
      List.getElem?_eq_none (by omega)]

theorem State.bytesAt_congr {s t : State} {a : Word} {n : Nat}
    (h : ∀ i, i < n → t.byteAt (a + BitVec.ofNat 32 i) = s.byteAt (a + BitVec.ofNat 32 i)) :
    t.bytesAt a n = s.bytesAt a n :=
  State.bytesAt_eq_of_getElem? (s.bytesAt_length a n) fun i hi => by
    rw [State.bytesAt_getElem? s a hi, h i hi]

theorem State.bytesAt_of_mem {s t : State} (h : t.mem = s.mem) (a : Word) (n : Nat) :
    t.bytesAt a n = s.bytesAt a n :=
  State.bytesAt_congr fun _ _ => State.byteAt_of_mem h _

theorem State.bytesAt_add (s : State) (a : Word) (m n : Nat) :
    s.bytesAt a (m + n) = s.bytesAt a m ++ s.bytesAt (a + BitVec.ofNat 32 m) n := by
  induction m generalizing a with
  | zero => simp [State.bytesAt]
  | succ m ih =>
    rw [Nat.succ_add, State.bytesAt, State.bytesAt, ih, add_ofNat_succ, List.cons_append]

/-- Writes that are completed leave the bytes written (R37). -/
theorem State.bytesAt_writeBytes {s : State} {a : Word} {bs : List Byte}
    (hdone : (s.writeBytes a bs).2 = true) (hfit : bs.length ≤ 2 ^ 32) :
    (s.writeBytes a bs).1.bytesAt a bs.length = bs :=
  State.bytesAt_eq_of_getElem? rfl fun i hi => by
    rw [State.byteAt_writeBytes_inside hdone hfit hi, List.getElem?_eq_getElem hi]

/-- An address below a range that does not wrap round to it. -/
theorem inRange_false_below (a : Word) {i u k : Nat} (hi : i < u) (hfit : u + k ≤ 2 ^ 32) :
    inRange (a + BitVec.ofNat 32 i) (a + BitVec.ofNat 32 u) k = false := by
  have hsub : a + BitVec.ofNat 32 i - (a + BitVec.ofNat 32 u) =
      BitVec.ofNat 32 i - BitVec.ofNat 32 u := by
    rw [← BitVec.sub_sub, BitVec.add_comm a, BitVec.add_sub_cancel]
  simp only [inRange, decide_eq_false_iff_not, hsub, BitVec.toNat_sub, BitVec.toNat_ofNat]
  omega

/-! ### The transform, one group at a time (R72) -/

/-- The encoding of a buffer is the symbols of its first group and the encoding of the rest. -/
theorem encodeText_bytesAt (s : State) (a : Word) {m : Nat} (hm : 0 < m) :
    encodeText (s.bytesAt a m) =
      (encodeSymbols (s.bytesAt a (min 3 m))).bytes ++ encodeText (s.bytesAt (a + 3) (m - 3)) := by
  match m with
  | 1 => rfl
  | 2 => rfl
  | k + 3 =>
    have hthree : a + 1 + 1 + 1 = a + 3 := by rw [BitVec.add_assoc, BitVec.add_assoc]; rfl
    rw [Nat.min_eq_left (by omega), Nat.add_sub_cancel]
    simp only [State.bytesAt, encodeText, hthree]
    rfl

/-! ### The groups still to come -/

/-- An ENCODE past its start step, without bus errors, has `n` groups still to do. -/
structure State.GroupsToEncode (s : State) (n : Nat) : Prop where
  phase : s.phase = .enc
  started : s.started = true
  noBusErrors : s.NoBusErrors
  running : s.EncodeRunning
  left : s.groups.toNat = s.g.toNat + n

/-- The bytes of the input that no group step has read yet. -/
def State.bytesLeft (s : State) : Nat := s.len.toNat - 3 * s.g.toNat

/-- What a group step leaves when it gets no bus error (R73). -/
def State.afterEncodeGroup (s : State) : State :=
  (s.writeBytes s.encodeTarget
    (encodeSymbols (s.bytesAt s.encodeSource s.encodeCount)).bytes).1.nextGroup 4

/-- An ENCODE that is accepted and past its start step (R73). -/
def State.encodeStarted (s : State) : State :=
  (s.startBuffer .enc).begin (ceilDiv s.len.toNat 3)

section
variable {s : State} {n : Nat}

/-- The start step of an accepted ENCODE of a legal length, and then the steps after it. -/
theorem State.engineSteps_encode (hlen : s.len.toNat ≤ Config.encMaxLen) :
    (s.startBuffer .enc).engineSteps (n + 1) = s.encodeStarted.engineSteps n :=
  congrArg (State.engineSteps · n) (State.engineStep_encodeStart rfl rfl hlen)

theorem State.encodeStarted_source : s.encodeStarted.encodeSource = s.src := BitVec.add_zero s.src

theorem State.encodeStarted_target : s.encodeStarted.encodeTarget = s.dst := BitVec.add_zero s.dst

theorem State.encodeStarted_groups_toNat (hlen : s.len.toNat ≤ Config.encMaxLen) :
    s.encodeStarted.groups.toNat = ceilDiv s.len.toNat 3 :=
  Nat.mod_eq_of_lt (by have := ceilDiv_three_le hlen; omega)

theorem State.encodeStarted_groupsToEncode (hbus : s.NoBusErrors)
    (hlen : s.len.toNat ≤ Config.encMaxLen) :
    s.encodeStarted.GroupsToEncode (ceilDiv s.len.toNat 3) := by
  have hG := State.encodeStarted_groups_toNat hlen
  exact ⟨rfl, rfl, hbus, ⟨hlen, hG, Nat.zero_le _, rfl, rfl⟩, hG.trans (Nat.zero_add _).symm⟩

theorem State.GroupsToEncode.group_lt (h : s.GroupsToEncode (n + 1)) : s.g < s.groups := by
  have := h.left
  rw [BitVec.lt_def]
  omega

theorem State.GroupsToEncode.not_group_lt (h : s.GroupsToEncode 0) : ¬s.g < s.groups := by
  have := h.left
  rw [BitVec.lt_def]
  omega

theorem State.GroupsToEncode.bytesLeft_pos (h : s.GroupsToEncode (n + 1)) : 0 < s.bytesLeft := by
  obtain ⟨_, hG, _⟩ := h.running
  have := h.left
  unfold ceilDiv at hG
  unfold State.bytesLeft
  omega

theorem State.GroupsToEncode.bytesLeft_eq_zero (h : s.GroupsToEncode 0) : s.bytesLeft = 0 := by
  obtain ⟨_, hG, _⟩ := h.running
  have := h.left
  unfold ceilDiv at hG
  unfold State.bytesLeft
  omega

/-- The output still to come, terminator included, does not wrap round (R72). -/
theorem State.GroupsToEncode.output_fits (h : s.GroupsToEncode n) : 4 * n + 1 ≤ 2 ^ 32 := by
  obtain ⟨hlen, hG, _⟩ := h.running
  have := ceilDiv_three_le hlen
  have := h.left
  omega

theorem State.GroupsToEncode.engineStep (h : s.GroupsToEncode (n + 1)) :
    s.engineStep = s.afterEncodeGroup :=
  State.engineStep_encodeGroup h.phase h.started h.group_lt
    (State.readBytes_noBusErrors h.noBusErrors _ _) (State.writeBytes_noBusErrors h.noBusErrors _ _)

theorem State.GroupsToEncode.afterEncodeGroup (h : s.GroupsToEncode (n + 1)) :
    s.afterEncodeGroup.GroupsToEncode n where
  phase := (s.writeBytes_phase _ _).trans h.phase
  started := (s.writeBytes_started _ _).trans h.started
  noBusErrors := (congrArg Platform.denied (s.writeBytes_platform _ _)).trans h.noBusErrors
  running := h.running.nextGroup h.group_lt (State.writeBytes_noBusErrors h.noBusErrors _ _) rfl
  left := by
    have := h.left
    have := toNat_succ_of_lt h.group_lt
    simp only [State.afterEncodeGroup, State.nextGroup_groups, State.nextGroup_g,
      State.writeBytes_groups, State.writeBytes_g]
    omega

/-- With no group left the terminator step ends the command (R73). -/
theorem State.GroupsToEncode.engineStep_last (h : s.GroupsToEncode 0) :
    s.engineStep =
      (s.engineWrite (s.dst + 4 * s.groups) terminator).finish false .none (4 * s.groups) 0 := by
  rw [State.engineStep_terminator h.started h.not_group_lt (.inl ⟨h.phase, rfl⟩),
    State.performMove_terminator_done (Platform.memOk_of_denied h.noBusErrors _ _)]

/-! ### The end of a run (R73, R74) -/

/-- From any group on, the run ends in success with the terminator written. -/
theorem State.GroupsToEncode.engineSteps_end (h : s.GroupsToEncode n) :
    (s.engineSteps (n + 1)).phase = .idle ∧
      (s.engineSteps (n + 1)).status = statusFinish s.status false .none ∧
      (s.engineSteps (n + 1)).rlen = 4 * s.groups ∧ (s.engineSteps (n + 1)).errgrp = 0 ∧
      (s.engineSteps (n + 1)).byteAt (s.dst + 4 * s.groups) = terminator := by
  induction n generalizing s with
  | zero =>
    rw [State.engineSteps, State.engineSteps, h.engineStep_last]
    refine ⟨rfl, rfl, rfl, rfl, ?_⟩
    rw [State.byteAt_of_mem (State.finish_mem ..), State.byteAt_engineWrite, if_pos rfl]
  | succ n ih =>
    rw [State.engineSteps, h.engineStep]
    simpa [State.afterEncodeGroup] using ih h.afterEncodeGroup

/-! ### The bytes that a run writes (R67, R72, R73, R76) -/

theorem State.afterEncodeGroup_target : s.afterEncodeGroup.encodeTarget = s.encodeTarget + 4 := by
  simp only [State.afterEncodeGroup, State.encodeTarget, State.nextGroup_dst, State.nextGroup_g,
    State.writeBytes_dst, State.writeBytes_g]
  rw [BitVec.mul_add, BitVec.add_assoc]
  rfl

theorem State.afterEncodeGroup_source : s.afterEncodeGroup.encodeSource = s.encodeSource + 3 := by
  simp only [State.afterEncodeGroup, State.encodeSource, State.nextGroup_src, State.nextGroup_g,
    State.writeBytes_src, State.writeBytes_g]
  rw [BitVec.mul_add, BitVec.add_assoc]
  rfl

theorem State.GroupsToEncode.bytesLeft_afterEncodeGroup (h : s.GroupsToEncode (n + 1)) :
    s.afterEncodeGroup.bytesLeft = s.bytesLeft - 3 := by
  have := toNat_succ_of_lt h.group_lt
  simp only [State.bytesLeft, State.afterEncodeGroup, State.nextGroup_len, State.nextGroup_g,
    State.writeBytes_len, State.writeBytes_g]
  omega

/-- A group step writes the group's symbols at `DST + 4g`. -/
theorem State.GroupsToEncode.bytesAt_afterEncodeGroup (h : s.GroupsToEncode (n + 1)) :
    s.afterEncodeGroup.bytesAt s.encodeTarget 4 =
      (encodeSymbols (s.bytesAt s.encodeSource s.encodeCount)).bytes := by
  rw [State.afterEncodeGroup, State.bytesAt_of_mem (State.nextGroup_mem ..)]
  exact State.bytesAt_writeBytes (State.writeBytes_noBusErrors h.noBusErrors _ _)
    (by rw [Quad.bytes_length]; decide)

theorem State.byteAt_afterEncodeGroup {a : Word} (ha : inRange a s.encodeTarget 4 = false) :
    s.afterEncodeGroup.byteAt a = s.byteAt a :=
  s.byteAt_writeBytes_outside _ _ _ (by rw [Quad.bytes_length]; decide) ha

/-- The output of the `n` groups still to come, terminator included, does not overlap their
input. -/
def State.RestDisjoint (s : State) (n : Nat) : Prop :=
  ∀ i, i < s.bytesLeft →
    inRange (s.encodeSource + BitVec.ofNat 32 i) s.encodeTarget (4 * n + 1) = false

/-- Byte `i` past the first group is byte `i + 3`. -/
theorem State.encodeSource_add_three (i : Nat) :
    s.encodeSource + 3 + BitVec.ofNat 32 i = s.encodeSource + BitVec.ofNat 32 (i + 3) := by
  rw [BitVec.add_assoc, Nat.add_comm i, BitVec.ofNat_add]
  rfl

/-- An address outside the output still to come is outside that of the later groups. -/
theorem inRange_false_later {a base : Word} (ha : inRange a base (4 * (n + 1) + 1) = false) :
    inRange a (base + 4) (4 * n + 1) = false :=
  inRange_false_part (u := 4) (by rwa [Nat.mul_succ, Nat.add_right_comm, Nat.add_comm] at ha)

theorem State.RestDisjoint.afterEncodeGroup (hdisj : s.RestDisjoint (n + 1))
    (h : s.GroupsToEncode (n + 1)) : s.afterEncodeGroup.RestDisjoint n := by
  intro i hi
  rw [h.bytesLeft_afterEncodeGroup] at hi
  rw [State.afterEncodeGroup_source, State.afterEncodeGroup_target, State.encodeSource_add_three]
  exact inRange_false_later (hdisj (i + 3) (by omega))

/-- A group step leaves the input of the later groups as it was. -/
theorem State.RestDisjoint.bytesAt_afterEncodeGroup (hdisj : s.RestDisjoint (n + 1)) :
    s.afterEncodeGroup.bytesAt (s.encodeSource + 3) (s.bytesLeft - 3) =
      s.bytesAt (s.encodeSource + 3) (s.bytesLeft - 3) := by
  refine State.bytesAt_congr fun i hi => State.byteAt_afterEncodeGroup ?_
  rw [State.encodeSource_add_three]
  exact inRange_false_mono (by omega) (hdisj (i + 3) (by omega))

/-- `t` holds the encoding of the input that `s` has not read yet, where `s` writes next and with
the terminator after it, and is as `s` elsewhere. -/
def State.EncodesRestTo (s t : State) (n : Nat) : Prop :=
  t.bytesAt s.encodeTarget (4 * n + 1) =
      encodeText (s.bytesAt s.encodeSource s.bytesLeft) ++ [terminator] ∧
    ∀ a, inRange a s.encodeTarget (4 * n + 1) = false → t.byteAt a = s.byteAt a

/-- The terminator step, with no input left. -/
theorem State.GroupsToEncode.encodesRestTo_last (h : s.GroupsToEncode 0) :
    s.EncodesRestTo s.engineStep 0 := by
  have htarget : s.dst + 4 * s.groups = s.encodeTarget := by
    obtain ⟨_, _, hle, _⟩ := h.running
    rw [groups_eq_of_not_lt h.not_group_lt hle, State.encodeTarget]
  have hbyte : ∀ a, s.engineStep.byteAt a =
      if a = s.encodeTarget then terminator else s.byteAt a := by
    intro a
    rw [h.engineStep_last, htarget, State.byteAt_of_mem (State.finish_mem ..),
      State.byteAt_engineWrite]
  refine ⟨?_, fun a ha => ?_⟩
  · rw [h.bytesLeft_eq_zero]
    exact congrArg (fun b => [b]) ((hbyte _).trans (if_pos rfl))
  · have hne : a ≠ s.encodeTarget := by
      rintro rfl
      simp [inRange] at ha
    rw [hbyte, if_neg hne]

/-- A group step, and then the groups after it. -/
theorem State.GroupsToEncode.encodesRestTo_succ (h : s.GroupsToEncode (n + 1))
    (hdisj : s.RestDisjoint (n + 1)) {t : State} (hrest : s.afterEncodeGroup.EncodesRestTo t n) :
    s.EncodesRestTo t (n + 1) := by
  obtain ⟨htext, hframe⟩ := hrest
  rw [State.afterEncodeGroup_target] at htext hframe
  rw [State.afterEncodeGroup_source, h.bytesLeft_afterEncodeGroup,
    hdisj.bytesAt_afterEncodeGroup] at htext
  have hfirst : t.bytesAt s.encodeTarget 4 =
      (encodeSymbols (s.bytesAt s.encodeSource s.encodeCount)).bytes := by
    rw [← h.bytesAt_afterEncodeGroup]
    have hfit := h.output_fits
    exact State.bytesAt_congr fun i hi => hframe _ (inRange_false_below (u := 4) _ hi (by omega))
  refine ⟨?_, fun a ha => ?_⟩
  · have hsplit : 4 * (n + 1) + 1 = 4 + (4 * n + 1) := by omega
    rw [hsplit, State.bytesAt_add, hfirst, encodeText_bytesAt s _ h.bytesLeft_pos,
      List.append_assoc, ← htext]
    rfl
  · rw [hframe a (inRange_false_later ha),
      State.byteAt_afterEncodeGroup (inRange_false_mono (by omega) ha)]

/-- From any group on, the run writes the encoding of the rest of the input. -/
theorem State.GroupsToEncode.encodesRestTo (h : s.GroupsToEncode n) (hdisj : s.RestDisjoint n) :
    s.EncodesRestTo (s.engineSteps (n + 1)) n := by
  induction n generalizing s with
  | zero => exact h.encodesRestTo_last
  | succ n ih =>
    rw [State.engineSteps, h.engineStep]
    exact h.encodesRestTo_succ hdisj (ih h.afterEncodeGroup (hdisj.afterEncodeGroup h))

theorem State.Disjoint.encodeStarted (hdisj : s.Disjoint (4 * n + 1)) :
    s.encodeStarted.RestDisjoint n := fun i hi => by
  rw [State.encodeStarted_source, State.encodeStarted_target]
  exact hdisj _ (inRange_add_ofNat s.src hi)

end

/-- Settles O27: after the start step the engine has all the groups to do, and ends in success. -/
theorem encodeRunSucceeds : Obligations.EncodeRunSucceeds := by
  unfold Obligations.EncodeRunSucceeds
  intro s hbus hlen
  have hG : 4 * s.encodeStarted.groups = BitVec.ofNat 32 (4 * ceilDiv s.len.toNat 3) :=
    (BitVec.ofNat_mul ..).symm
  obtain ⟨hphase, hstatus, hrlen, herrgrp, hterm⟩ :=
    (State.encodeStarted_groupsToEncode hbus hlen).engineSteps_end
  rw [← State.engineSteps_encode hlen] at hphase hstatus hrlen herrgrp hterm
  rw [hG] at hrlen hterm
  refine ⟨hphase, hstatus.trans statusFinish_running, ?_, herrgrp, hterm⟩
  rw [hrlen, BitVec.toNat_ofNat, Nat.mod_eq_of_lt (ceilDiv_three_le hlen)]

/-- Settles O28, by induction on the groups still to come: each group step writes the symbols of the
first group left, where no later step writes, and leaves the input of the later ones as it was. -/
theorem encodeRunWritesEncoding : Obligations.EncodeRunWritesEncoding := by
  unfold Obligations.EncodeRunWritesEncoding
  intro s hbus hlen hdisj
  have hinput : s.encodeStarted.bytesAt s.src s.encodeStarted.bytesLeft =
      s.bytesAt s.src s.len.toNat :=
    State.bytesAt_of_mem (s := s) (t := s.encodeStarted) rfl s.src s.len.toNat
  have hrun := (State.encodeStarted_groupsToEncode hbus hlen).encodesRestTo
    (State.Disjoint.encodeStarted hdisj)
  rwa [← State.engineSteps_encode hlen, State.EncodesRestTo, State.encodeStarted_source,
    State.encodeStarted_target, hinput] at hrun

end Sys2Proof.Machine
end

section
/-! PROOF. The decoder's group transform (R78 to R82), and that it gives back the bytes a group was
encoded from (R89). -/

namespace Sys2Proof.Machine

/-! ### Packing, bit field by bit field (R80) -/

/-- The whole of one value, then the first two bits of the next one. -/
theorem pack_six_two (v w : Sextet) :
    (v.setWidth 8 <<< 2) ||| (w.setWidth 8 >>> 4) = v ++ w.extractLsb' 4 2 := by
  have hv : ∀ v : Sextet, v.setWidth 8 <<< 2 = v ++ 0#2 := by decide
  have hw : ∀ w : Sextet, w.setWidth 8 >>> 4 = 0#6 ++ w.extractLsb' 4 2 := by decide
  rw [hv, hw, BitVec.or_append, BitVec.or_zero, BitVec.zero_or]

/-- The last four bits of one value, then the first four of the next one. -/
theorem pack_four_four (v w : Sextet) :
    (v.setWidth 8 <<< 4) ||| (w.setWidth 8 >>> 2) = v.extractLsb' 0 4 ++ w.extractLsb' 2 4 := by
  have hv : ∀ v : Sextet, v.setWidth 8 <<< 4 = v.extractLsb' 0 4 ++ 0#4 := by decide
  have hw : ∀ w : Sextet, w.setWidth 8 >>> 2 = 0#4 ++ w.extractLsb' 2 4 := by decide
  rw [hv, hw, BitVec.or_append, BitVec.or_zero, BitVec.zero_or]

/-- The last two bits of one value, then the whole of the next one. -/
theorem pack_two_six (v w : Sextet) :
    (v.setWidth 8 <<< 6) ||| w.setWidth 8 = v.extractLsb' 0 2 ++ w := by
  have hv : ∀ v : Sextet, v.setWidth 8 <<< 6 = v.extractLsb' 0 2 ++ 0#6 := by decide
  have hw : ∀ w : Sextet, w.setWidth 8 = 0#2 ++ w := by decide
  rw [hv, hw, BitVec.or_append, BitVec.or_zero, BitVec.zero_or]

/-- R80's shifts put the six bits of each value one after the other. -/
theorem packBytes_eq (v0 v1 v2 v3 : Sextet) :
    packBytes v0 v1 v2 v3 =
      [v0 ++ v1.extractLsb' 4 2, v1.extractLsb' 0 4 ++ v2.extractLsb' 2 4,
        v2.extractLsb' 0 2 ++ v3] := by
  rw [packBytes, pack_six_two, pack_four_four, pack_two_six]

/-! ### What a group decodes to, by the classes of its symbols (R78 to R82) -/

section
variable {final : Bool} {q : Quad} {v0 v1 v2 v3 : Sextet}

theorem decGroup_error {e : ErrCode}
    (h : checkGroup final (rev q.s0) (rev q.s1) (rev q.s2) (rev q.s3) = .error e) :
    decGroup final q = .error e := by
  rw [decGroup, h]

theorem decGroup_ok {k : Nat}
    (h : checkGroup final (rev q.s0) (rev q.s1) (rev q.s2) (rev q.s3) = .ok k) :
    decGroup final q = .ok ((packBytes (rev q.s0).value (rev q.s1).value (rev q.s2).value
      (rev q.s3).value).take k) := by
  rw [decGroup, h]

/-- Four VALID symbols are three bytes in either kind of group. -/
theorem decGroup_three (final : Bool) (h0 : rev q.s0 = .valid v0) (h1 : rev q.s1 = .valid v1)
    (h2 : rev q.s2 = .valid v2) (h3 : rev q.s3 = .valid v3) :
    decGroup final q = .ok [v0 ++ v1.extractLsb' 4 2, v1.extractLsb' 0 4 ++ v2.extractLsb' 2 4,
      v2.extractLsb' 0 2 ++ v3] := by
  have hcheck : checkGroup final (rev q.s0) (rev q.s1) (rev q.s2) (rev q.s3) = .ok 3 := by
    rw [h0, h1, h2, h3]
    cases final <;> rfl
  rw [decGroup_ok hcheck, h0, h1, h2, h3, packBytes_eq]
  rfl

/-- A final group with one pad is two bytes; the last two bits of its third value are discarded. -/
theorem decGroup_two (h0 : rev q.s0 = .valid v0) (h1 : rev q.s1 = .valid v1)
    (h2 : rev q.s2 = .valid v2) (h3 : rev q.s3 = .pad) :
    decGroup true q =
      .ok [v0 ++ v1.extractLsb' 4 2, v1.extractLsb' 0 4 ++ v2.extractLsb' 2 4] := by
  have hcheck : checkGroup true (rev q.s0) (rev q.s1) (rev q.s2) (rev q.s3) = .ok 2 := by
    rw [h0, h1, h2, h3]
    rfl
  rw [decGroup_ok hcheck, h0, h1, h2, h3, packBytes_eq]
  rfl

/-- A final group with two pads is one byte; the last four bits of its second value are
discarded. -/
theorem decGroup_one (h0 : rev q.s0 = .valid v0) (h1 : rev q.s1 = .valid v1)
    (h2 : rev q.s2 = .pad) (h3 : rev q.s3 = .pad) :
    decGroup true q = .ok [v0 ++ v1.extractLsb' 4 2] := by
  have hcheck : checkGroup true (rev q.s0) (rev q.s1) (rev q.s2) (rev q.s3) = .ok 1 := by
    rw [h0, h1, h2, h3]
    rfl
  rw [decGroup_ok hcheck, h0, h1, h2, h3, packBytes_eq]
  rfl

end

/-- Settles O33: the bytes of a padded group leave the discarded bits out. -/
theorem discardedBitsIgnored : Obligations.DiscardedBitsIgnored := by
  unfold Obligations.DiscardedBitsIgnored
  refine ⟨fun a b b' va vb vb' ha hb hb' hbits => ?twoPads,
    fun a b c c' va vb vc vc' ha hb hc hc' hbits => ?onePad, ?specExample⟩
  case twoPads =>
    rw [decGroup_one ha hb rev_padSymbol rev_padSymbol,
      decGroup_one ha hb' rev_padSymbol rev_padSymbol, hbits]
  case onePad =>
    rw [decGroup_two ha hb hc rev_padSymbol, decGroup_two ha hb hc' rev_padSymbol, hbits]
  case specExample => decide

/-! ### A group is decoded to the bytes it was encoded from (R89) -/

/-- The fields that the symbols take from the bytes make up the bytes again (R67, R80). -/
theorem byte_of_high_two (b : Byte) : b.extractLsb' 2 6 ++ b.extractLsb' 0 2 = b :=
  BitVec.extractLsb'_append_extractLsb'
theorem byte_of_nibbles (b : Byte) : b.extractLsb' 4 4 ++ b.extractLsb' 0 4 = b :=
  BitVec.extractLsb'_append_extractLsb'
theorem byte_of_low_six (b : Byte) : b.extractLsb' 6 2 ++ b.extractLsb' 0 6 = b :=
  BitVec.extractLsb'_append_extractLsb'

section
variable (b0 b1 b2 : Byte)

theorem decGroup_encGroup_one : decGroup true (encGroup 1 b0 b1 b2) = .ok [b0] := by
  rw [encGroup_one, decGroup_one (rev_fwd _) (rev_fwd _) rev_padSymbol rev_padSymbol,
    BitVec.extractLsb'_append_eq_left, byte_of_high_two]

theorem decGroup_encGroup_two : decGroup true (encGroup 2 b0 b1 b2) = .ok [b0, b1] := by
  rw [encGroup_two, decGroup_two (rev_fwd _) (rev_fwd _) (rev_fwd _) rev_padSymbol]
  simp only [BitVec.extractLsb'_append_eq_left, BitVec.extractLsb'_append_eq_right,
    byte_of_high_two, byte_of_nibbles]

theorem decGroup_encGroup_three (final : Bool) :
    decGroup final (encGroup 3 b0 b1 b2) = .ok [b0, b1, b2] := by
  rw [encGroup_three, decGroup_three final (rev_fwd _) (rev_fwd _) (rev_fwd _) (rev_fwd _)]
  simp only [BitVec.extractLsb'_append_eq_left, BitVec.extractLsb'_append_eq_right,
    byte_of_high_two, byte_of_nibbles, byte_of_low_six]

end

/-- Settles O32. -/
theorem groupRoundTrip : Obligations.GroupRoundTrip := by
  unfold Obligations.GroupRoundTrip
  exact fun b0 b1 b2 => ⟨decGroup_encGroup_one b0 b1 b2, decGroup_encGroup_two b0 b1 b2,
    decGroup_encGroup_three b0 b1 b2 true, decGroup_encGroup_three b0 b1 b2 false⟩

end Sys2Proof.Machine
end

section
/-! PROOF. The commands DEC and DECF (R78, R79, R83, R84). -/

namespace Sys2Proof.Machine

/-! ### The decoded bytes as a word (R25, R80) -/

theorem toNat_append_add {m n : Nat} (x : BitVec m) (y : BitVec n) :
    (x ++ y).toNat = x.toNat * 2 ^ n + y.toNat := by
  rw [BitVec.toNat_append, Nat.shiftLeft_eq, Nat.mul_comm, Nat.two_pow_add_eq_or_of_lt y.isLt]

section
variable (v0 v1 v2 v3 : Sextet)

/-- The word of three bytes is the 24 bits of the four values. -/
theorem bytesWord_three :
    bytesWord [v0 ++ v1.extractLsb' 4 2, v1.extractLsb' 0 4 ++ v2.extractLsb' 2 4,
        v2.extractLsb' 0 2 ++ v3] = (0 : Byte) ++ v0 ++ v1 ++ v2 ++ v3 := by
  apply BitVec.eq_of_toNat_eq
  simp only [bytesWord, List.getD_cons_zero, List.getD_cons_succ, toNat_append_add,
    BitVec.extractLsb'_toNat, Nat.shiftRight_eq_div_pow]
  omega

theorem bytesWord_two :
    bytesWord [v0 ++ v1.extractLsb' 4 2, v1.extractLsb' 0 4 ++ v2.extractLsb' 2 4] =
      (0 : Byte) ++ v0 ++ v1 ++ v2.extractLsb' 2 4 ++ (0 : Byte) := by
  apply BitVec.eq_of_toNat_eq
  simp only [bytesWord, List.getD_cons_zero, List.getD_cons_succ, List.getD_nil, toNat_append_add,
    BitVec.extractLsb'_toNat, Nat.shiftRight_eq_div_pow]
  omega

theorem bytesWord_one :
    bytesWord [v0 ++ v1.extractLsb' 4 2] =
      (0 : Byte) ++ v0 ++ v1.extractLsb' 4 2 ++ (0 : BitVec 16) := by
  have hzero (n : Nat) : (0 : BitVec n).toNat = 0 := rfl
  apply BitVec.eq_of_toNat_eq
  simp only [bytesWord, List.getD_cons_zero, List.getD_cons_succ, List.getD_nil, toNat_append_add,
    hzero]
  omega

end

/-! ### How a group fails (R78, R79) -/

/-- VALID symbols in front do not count. -/
theorem firstFailure_append {before : List SymbolClass} (after : List SymbolClass)
    (h : ∀ c ∈ before, ∃ v, c = .valid v) :
    firstFailure (before ++ after) = firstFailure after := by
  induction before with
  | nil => rfl
  | cons c before ih =>
    obtain ⟨⟨v, rfl⟩, hrest⟩ := List.forall_mem_cons.1 h
    exact ih hrest

/-- A pad at position 2 that no pad follows (R79). -/
theorem checkTail_pad {c : SymbolClass} (h : c ≠ .pad) :
    checkTail .pad c = .error .misplacedPad := by
  cases c with
  | valid v => rfl
  | pad => exact absurd rfl h
  | invalid => rfl

section
variable {q : Quad} {e : ErrCode}

theorem decGroup_nonFinal_error
    (h : firstFailure [rev q.s0, rev q.s1, rev q.s2, rev q.s3] = some e) :
    decGroup false q = .error e :=
  decGroup_error (by simp only [checkGroup, checkNonFinal, h, Bool.false_eq_true, if_false])

/-- Positions 0 and 1 of a final group fail as in any group. -/
theorem decGroup_final_headError (h : firstFailure [rev q.s0, rev q.s1] = some e) :
    decGroup true q = .error e :=
  decGroup_error (by simp only [checkGroup, checkFinal, h, if_true])

/-- Positions 2 and 3 of a final group fail by the table of R79. -/
theorem decGroup_final_tailError {v0 v1 : Sextet} (h0 : rev q.s0 = .valid v0)
    (h1 : rev q.s1 = .valid v1) (h : checkTail (rev q.s2) (rev q.s3) = .error e) :
    decGroup true q = .error e :=
  decGroup_error (by simp only [checkGroup, checkFinal, h0, h1, firstFailure, h, if_true])

end

/-! ### The commands (R83, R84) -/

section
variable {s : State}

theorem exec_dec (hb : s.busy = false) :
    exec .dec s = .next (s.endDecode (decGroup false s.dinQuad)) :=
  State.accept_idle hb fun u => u.endDecode (decGroup false u.dinQuad)

theorem exec_decf (hb : s.busy = false) :
    exec .decf s = .next (s.endDecode (decGroup true s.dinQuad)) :=
  State.accept_idle hb fun u => u.endDecode (decGroup true u.dinQuad)

end

section
variable (s : State) (x y z : Byte)

theorem State.endDecode_three :
    s.endDecode (.ok [x, y, z]) =
      { s with dout := bytesWord [x, y, z], status := 0x00000300 } := by
  rw [← statusComplete_three]
  rfl

theorem State.endDecode_two :
    s.endDecode (.ok [x, y]) = { s with dout := bytesWord [x, y], status := 0x00000200 } := by
  rw [← statusComplete_two]
  rfl

theorem State.endDecode_one :
    s.endDecode (.ok [x]) = { s with dout := bytesWord [x], status := 0x00000100 } := by
  rw [← statusComplete_one]
  rfl

theorem State.endDecode_invalidSymbol :
    s.endDecode (.error .invalidSymbol) = { s with dout := 0, status := 0x00000032 } := by
  rw [State.endDecode, State.fail, statusFail_invalidSymbol]

theorem State.endDecode_misplacedPad :
    s.endDecode (.error .misplacedPad) = { s with dout := 0, status := 0x00000042 } := by
  rw [State.endDecode, State.fail, statusFail_misplacedPad]

end

/-- Settles O15: the first position that is not VALID decides, and with none the values are
packed. -/
theorem decResult : Obligations.DecResult := by
  unfold Obligations.DecResult
  refine ⟨rfl, fun s hb => ?_⟩
  rw [exec_dec hb]
  refine ⟨fun v0 v1 v2 v3 h0 h1 h2 h3 => ?allValid,
    fun before after hbefore => ⟨fun hclasses => ?invalid, fun hclasses => ?pad⟩⟩
  case allValid =>
    rw [decGroup_three (q := s.dinQuad) false h0 h1 h2 h3, State.endDecode_three, bytesWord_three]
  case invalid =>
    have hfirst := firstFailure_append (.invalid :: after) hbefore
    rw [← hclasses] at hfirst
    rw [decGroup_nonFinal_error (q := s.dinQuad) hfirst, State.endDecode_invalidSymbol]
  case pad =>
    have hfirst := firstFailure_append (.pad :: after) hbefore
    rw [← hclasses] at hfirst
    rw [decGroup_nonFinal_error (q := s.dinQuad) hfirst, State.endDecode_misplacedPad]

/-- Settles O16: position 0 decides, then position 1, and then the table of R79. -/
theorem decfResult : Obligations.DecfResult := by
  unfold Obligations.DecfResult
  refine ⟨rfl, fun s hb => ?_⟩
  have hinvalid : decGroup true s.dinQuad = .error .invalidSymbol →
      exec .decf s = .next { s with dout := 0, status := 0x00000032 } := fun h => by
    rw [exec_decf hb, h, State.endDecode_invalidSymbol]
  have hpad : decGroup true s.dinQuad = .error .misplacedPad →
      exec .decf s = .next { s with dout := 0, status := 0x00000042 } := fun h => by
    rw [exec_decf hb, h, State.endDecode_misplacedPad]
  refine ⟨fun h0 => hinvalid (decGroup_final_headError ?_),
    fun h0 => hpad (decGroup_final_headError ?_), fun v0 h0 =>
    ⟨fun h1 => hinvalid (decGroup_final_headError ?_),
      fun h1 => hpad (decGroup_final_headError ?_), fun v1 h1 =>
      ⟨fun v2 v3 h2 h3 => ?three, fun v2 h2 h3 => ?two, fun h2 h3 => ?one,
        fun v2 h2 h3 => hinvalid (decGroup_final_tailError h0 h1 ?_),
        fun h2 => hinvalid (decGroup_final_tailError h0 h1 ?_),
        fun h2 h3 => hpad (decGroup_final_tailError h0 h1 ?tailPad)⟩⟩⟩
  case three =>
    rw [exec_decf hb, decGroup_three (q := s.dinQuad) true h0 h1 h2 h3, State.endDecode_three,
      bytesWord_three]
  case two =>
    rw [exec_decf hb, decGroup_two (q := s.dinQuad) h0 h1 h2 h3, State.endDecode_two,
      bytesWord_two]
  case one =>
    rw [exec_decf hb, decGroup_one (q := s.dinQuad) h0 h1 h2 h3, State.endDecode_one,
      bytesWord_one]
  case tailPad => exact (congrArg (checkTail · _) h2).trans (checkTail_pad h3)
  all_goals simp only [State.dinQuad, firstFailure, checkTail, *]

end Sys2Proof.Machine
end

section
/-! PROOF. The acceptance of DECODE and the engine steps of DECODE (R85, R86, R87). -/

namespace Sys2Proof.Machine

/-- Settles O21: on an idle block DECODE starts the engine. -/
theorem decodeAccepted : Obligations.DecodeAccepted := by
  unfold Obligations.DecodeAccepted
  intro s hb
  have hexec : exec .decode s = .next (s.startBuffer .dec) :=
    State.accept_idle hb fun u => u.startBuffer .dec
  rw [hexec, State.startBuffer, statusRunning_word]

section
variable {s : State}

/-! ### DECODE's start step (R85, R87) -/

theorem State.decodeLenOk_iff : s.decodeLenOk = true ↔ s.len.toNat % 4 = 0 ∧ s.len.toNat ≠ 0 := by
  simp [State.decodeLenOk, bne_iff_ne]

theorem State.engineStep_decodeStart (hp : s.phase = .dec) (hs : s.started = false)
    (hlen : s.decodeLenOk = true) : s.engineStep = s.begin (s.len.toNat / 4) := by
  have hmove : s.decodeMove = .quiet (.begin (s.len.toNat / 4)) := by
    simp [State.decodeMove, State.decodeStart, hs, hlen]
  rw [State.engineStep_dec hp, hmove, State.performMove_quiet, State.endStep_begin]

/-- A refused length: the marker at DST, and then LENGTH (R85). -/
theorem State.engineStep_decodeStart_badLength (hp : s.phase = .dec) (hs : s.started = false)
    (hlen : s.decodeLenOk = false) :
    s.engineStep = s.performMove ⟨s.dst, [terminator], 0, .finish true .length 0 0⟩ := by
  have hmove : s.decodeMove = ⟨s.dst, [terminator], 0, .finish true .length 0 0⟩ := by
    simp [State.decodeMove, State.decodeStart, hs, hlen]
  rw [State.engineStep_dec hp, hmove]

/-- A move of one write that is completed. -/
theorem State.performMove_one_done {a : Word} (b : Byte) (grp : Word) (e : StepEnd)
    (hok : s.platform.memOk a .write = true) :
    s.performMove ⟨a, [b], grp, e⟩ = (s.engineWrite a b).endStep e := by
  have hwrite : s.writeBytes a [b] = (s.engineWrite a b, true) := State.writeBytes_cons_ok hok
  rw [State.performMove_done (congrArg Prod.snd hwrite), State.writeMove, hwrite]

/-- A move of one write that gets a bus error (R94). -/
theorem State.performMove_one_denied {a : Word} (b : Byte) (grp : Word) (e : StepEnd)
    (hdenied : s.platform.memOk a .write = false) :
    s.performMove ⟨a, [b], grp, e⟩ = s.finish true .busError 0 grp := by
  have hwrite : s.writeBytes a [b] = (s, false) := State.writeBytes_cons_denied hdenied
  rw [State.performMove_busError (congrArg Prod.snd hwrite), State.writeMove, hwrite]

/-! ### DECODE's group step (R87) -/

/-- R87's test for the last group, with the subtraction on the other side. -/
theorem State.lastGroup_eq (s : State) : s.lastGroup = (s.g == s.groups - 1) := by
  rw [State.lastGroup, Bool.eq_iff_iff, beq_iff_eq, beq_iff_eq, eq_sub_iff_add_eq]

/-- A group that fails validation has a move that writes nothing (R88). -/
theorem State.decodeMove_error {bs : List Byte} {e : ErrCode} (hs : s.started = true)
    (hg : s.g < s.groups) (hread : s.readBytes 4 s.decodeSource = some bs)
    (herror : decGroup s.lastGroup (decodeSymbols bs) = .error e) :
    s.decodeMove = .quiet (.finish true e 0 s.g) := by
  simp [State.decodeMove, State.decodeGroup, hs, hg, hread, herror]

theorem State.engineStep_decodeGroup_error {bs : List Byte} {e : ErrCode} (hp : s.phase = .dec)
    (hs : s.started = true) (hg : s.g < s.groups)
    (hread : s.readBytes 4 s.decodeSource = some bs)
    (herror : decGroup s.lastGroup (decodeSymbols bs) = .error e) :
    s.engineStep = s.finish true e 0 s.g := by
  rw [State.engineStep_dec hp, State.decodeMove_error hs hg hread herror,
    State.performMove_quiet, State.endStep_finish]

/-- A group step whose accesses are completed writes the bytes of an accepted group (R87). -/
theorem State.engineStep_decodeGroup_ok {bs out : List Byte} (hp : s.phase = .dec)
    (hs : s.started = true) (hg : s.g < s.groups)
    (hread : s.readBytes 4 s.decodeSource = some bs)
    (hok : decGroup s.lastGroup (decodeSymbols bs) = .ok out)
    (hdone : (s.writeBytes s.decodeTarget out).2 = true) :
    s.engineStep = (s.writeBytes s.decodeTarget out).1.nextGroup out.length := by
  have hmove : s.decodeMove = ⟨s.decodeTarget, out, s.g, .next out.length⟩ := by
    simp [State.decodeMove, State.decodeGroup, hs, hg, hread, hok]
  rw [State.engineStep_dec hp, hmove, State.performMove_done hdone]
  rfl

end

/-- Settles O25: the start step's one write is completed or denied. -/
theorem decodeLengthCheck : Obligations.DecodeLengthCheck := by
  unfold Obligations.DecodeLengthCheck
  intro s hp hs hbad
  have hlen : s.decodeLenOk = false := by
    rw [← Bool.not_eq_true, State.decodeLenOk_iff]
    omega
  rw [State.engineStep_decodeStart_badLength hp hs hlen]
  cases hwrite : s.platform.memOk s.dst .write with
  | true =>
    rw [State.performMove_one_done _ _ _ hwrite, State.endStep_finish]
    exact ⟨⟨rfl, rfl, rfl, statusBusy_finish .., statusErr_finish ..⟩,
      fun _ => ⟨statusCode_finish .., fun a => s.byteAt_engineWrite s.dst a terminator⟩, by simp⟩
  | false =>
    rw [State.performMove_one_denied _ _ _ hwrite]
    exact ⟨⟨rfl, rfl, rfl, statusBusy_finish .., statusErr_finish ..⟩, by simp,
      fun _ => ⟨statusCode_finish .., fun _ => rfl⟩⟩

/-- Settles O36: the symbols read are validated, and either end the command or give its writes. -/
theorem decodeGroupStep : Obligations.DecodeGroupStep := by
  unfold Obligations.DecodeGroupStep
  intro s q hp hs hg hread
  rw [← State.lastGroup_eq]
  refine ⟨fun e herror => ?error, fun out hok hdone => ?ok⟩
  case error => exact State.engineStep_decodeGroup_error hp hs hg hread herror
  case ok =>
    have hstep := State.engineStep_decodeGroup_ok hp hs hg hread hok hdone
    rw [hstep, State.nextGroup, State.writeBytes_olen, State.writeBytes_g]
    rfl

end Sys2Proof.Machine
end

section
/-! PROOF. A run of DECODE without bus errors (R41, R52, R85 to R89; log 9): it goes group by group
as the transform does, which gives its end, its writes and its output range. -/

namespace Sys2Proof.Machine

/-! ### The transform, one group at a time (R87, R88) -/

/-- What `decodeText` answers: the bytes of the groups accepted, and the failure if there is one. -/
abbrev DecodeResult := List Byte × Option (Nat × ErrCode)

/-- The answer for one more group in front, which is accepted with these bytes. -/
def DecodeResult.after (r : DecodeResult) (out : List Byte) : DecodeResult :=
  (out ++ r.1, r.2.map fun f => (f.1 + 1, f.2))

/-- The bytes that DECODE writes for this answer: the terminator follows a success alone (R87,
R88). -/
def DecodeResult.writes (r : DecodeResult) : List Byte :=
  match r.2 with
  | none => r.1 ++ [terminator]
  | some _ => r.1

theorem DecodeResult.writes_after (r : DecodeResult) (out : List Byte) :
    (r.after out).writes = out ++ r.writes := by
  obtain ⟨bytes, _ | f⟩ := r
  · exact List.append_assoc out bytes [terminator]
  · rfl

theorem decodeText_error {q : Quad} {rest : List Byte} {e : ErrCode}
    (h : decGroup rest.isEmpty q = .error e) :
    decodeText (q.bytes ++ rest) = ([], some (0, e)) := by
  simp only [Quad.bytes, List.cons_append, List.nil_append, decodeText, h]

theorem decodeText_ok {q : Quad} {rest out : List Byte} (h : decGroup rest.isEmpty q = .ok out) :
    decodeText (q.bytes ++ rest) = DecodeResult.after (decodeText rest) out := by
  simp only [Quad.bytes, List.cons_append, List.nil_append, decodeText, h]
  rfl

/-- The symbols that DECODE's group step reads (R87). -/
def State.nextSymbols (s : State) : Quad := decodeSymbols (s.bytesAt s.decodeSource 4)

/-- The symbols left are those of the next group and those of the groups after it. -/
theorem State.bytesAt_nextSymbols (s : State) (n : Nat) :
    s.bytesAt s.decodeSource (4 * (n + 1)) =
      s.nextSymbols.bytes ++ s.bytesAt (s.decodeSource + 4) (4 * n) := by
  rw [Nat.mul_succ, Nat.add_comm, State.bytesAt_add]
  rfl

theorem State.bytesAt_isEmpty (s : State) (a : Word) (n : Nat) :
    (s.bytesAt a (4 * n)).isEmpty = decide (n = 0) := by
  cases n <;> rfl

/-! ### What writes leave in memory -/

/-- `t` has `bs` from `a` up, and is as `s` elsewhere. -/
def State.Wrote (s t : State) (a : Word) (bs : List Byte) : Prop :=
  t.bytesAt a bs.length = bs ∧ ∀ a', inRange a' a bs.length = false → t.byteAt a' = s.byteAt a'

section
variable {s t u : State} {a : Word} {bs : List Byte}

theorem State.Wrote.nothing (h : t.mem = s.mem) (a : Word) : s.Wrote t a [] :=
  ⟨rfl, fun _ _ => State.byteAt_of_mem h _⟩

theorem State.Wrote.of_mem (h : s.Wrote t a bs) (hmem : u.mem = t.mem) : s.Wrote u a bs := by
  obtain ⟨hbytes, hframe⟩ := h
  exact ⟨(State.bytesAt_of_mem hmem a _).trans hbytes,
    fun a' ha => (State.byteAt_of_mem hmem a').trans (hframe a' ha)⟩

theorem State.wrote_writeBytes (hbus : s.NoBusErrors) (a : Word) (hfit : bs.length ≤ 2 ^ 32) :
    s.Wrote (s.writeBytes a bs).1 a bs :=
  ⟨State.bytesAt_writeBytes (State.writeBytes_noBusErrors hbus a bs) hfit,
    fun a' ha => s.byteAt_writeBytes_outside a a' bs hfit ha⟩

/-- Writes that go on where the ones before have ended. -/
theorem State.Wrote.append {bs' : List Byte} (h : s.Wrote t a bs)
    (h' : t.Wrote u (a + BitVec.ofNat 32 bs.length) bs')
    (hfit : bs.length + bs'.length ≤ 2 ^ 32) : s.Wrote u a (bs ++ bs') := by
  obtain ⟨hbytes, hframe⟩ := h
  obtain ⟨hbytes', hframe'⟩ := h'
  have hkept : u.bytesAt a bs.length = bs :=
    (State.bytesAt_congr fun i hi => hframe' _ (inRange_false_below a hi hfit)).trans hbytes
  refine ⟨?_, fun a' ha => ?_⟩
  · rw [List.length_append, State.bytesAt_add, hkept, hbytes']
  · rw [List.length_append] at ha
    rw [hframe' a' (inRange_false_part ha), hframe a' (inRange_false_mono (by omega) ha)]

end

/-! ### The groups still to come -/

/-- A DECODE past its start step, without bus errors, has `n` groups still to do. -/
structure State.GroupsToDecode (s : State) (n : Nat) : Prop where
  phase : s.phase = .dec
  started : s.started = true
  noBusErrors : s.NoBusErrors
  running : s.DecodeRunning
  left : s.groups.toNat = s.g.toNat + n

/-- What a group step leaves that writes these bytes and gets no bus error (R87). -/
def State.afterDecodeGroup (s : State) (out : List Byte) : State :=
  (s.writeBytes s.decodeTarget out).1.nextGroup out.length

/-- A DECODE that is accepted and past its start step (R87). -/
def State.decodeStarted (s : State) : State := (s.startBuffer .dec).begin (s.len.toNat / 4)

/-- Symbol `i` of the `n` groups still to come lies outside what the groups before its own write. -/
def State.SymbolsKept (s : State) (n : Nat) : Prop :=
  ∀ i, i < 4 * n →
    inRange (s.decodeSource + BitVec.ofNat 32 i) s.decodeTarget (3 * (i / 4)) = false

section
variable {s : State} {n : Nat} {out : List Byte} {e : ErrCode}

theorem State.GroupsToDecode.group_lt (h : s.GroupsToDecode (n + 1)) : s.g < s.groups := by
  have := h.left
  rw [BitVec.lt_def]
  omega

theorem State.GroupsToDecode.not_group_lt (h : s.GroupsToDecode 0) : ¬s.g < s.groups := by
  have := h.left
  rw [BitVec.lt_def]
  omega

theorem State.GroupsToDecode.lastGroup_eq (h : s.GroupsToDecode (n + 1)) :
    s.lastGroup = decide (n = 0) := by
  have hleft := h.left
  have hsucc := toNat_succ_of_lt h.group_lt
  rw [State.lastGroup, Bool.eq_iff_iff, beq_iff_eq, decide_eq_true_eq, ← BitVec.toNat_inj]
  omega

/-- The output still to come, terminator included, does not wrap round (R86). -/
theorem State.GroupsToDecode.output_fits (h : s.GroupsToDecode n) : 3 * n + 1 ≤ 2 ^ 32 := by
  obtain ⟨_, hG, _⟩ := h.running
  have := h.left
  have := s.len.isLt
  omega

/-- An accepted group has 1 to 3 bytes, and 3 if another one follows (R78, R79). -/
theorem State.GroupsToDecode.out_length (h : s.GroupsToDecode (n + 1))
    (hok : decGroup s.lastGroup s.nextSymbols = .ok out) :
    1 ≤ out.length ∧ out.length ≤ 3 ∧ (n ≠ 0 → out.length = 3) := by
  obtain ⟨hlo, hhi, hfull⟩ := decGroup_length hok
  exact ⟨hlo, hhi, fun hn => hfull (h.lastGroup_eq.trans (decide_eq_false hn))⟩

theorem State.GroupsToDecode.engineStep_error (h : s.GroupsToDecode (n + 1))
    (herror : decGroup s.lastGroup s.nextSymbols = .error e) :
    s.engineStep = s.finish true e 0 s.g :=
  State.engineStep_decodeGroup_error h.phase h.started h.group_lt
    (State.readBytes_noBusErrors h.noBusErrors _ _) herror

theorem State.GroupsToDecode.engineStep_ok (h : s.GroupsToDecode (n + 1))
    (hok : decGroup s.lastGroup s.nextSymbols = .ok out) :
    s.engineStep = s.afterDecodeGroup out :=
  State.engineStep_decodeGroup_ok h.phase h.started h.group_lt
    (State.readBytes_noBusErrors h.noBusErrors _ _) hok
    (State.writeBytes_noBusErrors h.noBusErrors _ _)

/-- With no group left the terminator step ends the command (R87). -/
theorem State.GroupsToDecode.engineStep_last (h : s.GroupsToDecode 0) :
    s.engineStep = (s.writeBytes s.decodeTarget [terminator]).1.finish false .none s.olen 0 := by
  rw [State.engineStep_terminator h.started h.not_group_lt (.inr ⟨h.phase, rfl⟩),
    State.performMove_done (State.writeBytes_noBusErrors h.noBusErrors _ _)]
  rfl

theorem State.GroupsToDecode.afterDecodeGroup (h : s.GroupsToDecode (n + 1))
    (hok : decGroup s.lastGroup s.nextSymbols = .ok out) :
    (s.afterDecodeGroup out).GroupsToDecode n where
  phase := (s.writeBytes_phase _ _).trans h.phase
  started := (s.writeBytes_started _ _).trans h.started
  noBusErrors := (congrArg Platform.denied (s.writeBytes_platform _ _)).trans h.noBusErrors
  running := by
    obtain ⟨hlo, hhi, hfull⟩ := decGroup_length hok
    exact h.running.nextGroup h.group_lt (State.writeBytes_noBusErrors h.noBusErrors _ _)
      ⟨hlo, hhi⟩ hfull
  left := by
    have := h.left
    have := toNat_succ_of_lt h.group_lt
    simp only [State.afterDecodeGroup, State.nextGroup_groups, State.nextGroup_g,
      State.writeBytes_groups, State.writeBytes_g]
    omega

/-- What a group step adds to the engine's progress (R87). -/
theorem State.GroupsToDecode.progress (h : s.GroupsToDecode (n + 1)) (hlen : out.length ≤ 3) :
    (s.afterDecodeGroup out).g.toNat = s.g.toNat + 1 ∧
      (s.afterDecodeGroup out).olen.toNat = s.olen.toNat + out.length ∧
      (s.afterDecodeGroup out).undo.length = s.undo.length + out.length := by
  obtain ⟨_, hG, _, holen, _⟩ := h.running
  have hlt : s.g.toNat < s.groups.toNat := h.group_lt
  have hsofar := holen hlt
  have hmax := s.len.isLt
  exact State.nextGroup_progress h.group_lt (State.writeBytes_noBusErrors h.noBusErrors _ _)
    (by omega)

theorem State.afterDecodeGroup_status : (s.afterDecodeGroup out).status = s.status :=
  s.writeBytes_status _ _

theorem State.afterDecodeGroup_source :
    (s.afterDecodeGroup out).decodeSource = s.decodeSource + 4 := by
  simp only [State.afterDecodeGroup, State.decodeSource, State.nextGroup_src, State.nextGroup_g,
    State.writeBytes_src, State.writeBytes_g]
  rw [BitVec.mul_add, BitVec.add_assoc]
  rfl

theorem State.afterDecodeGroup_target :
    (s.afterDecodeGroup out).decodeTarget = s.decodeTarget + BitVec.ofNat 32 out.length := by
  simp only [State.afterDecodeGroup, State.decodeTarget, State.nextGroup_dst, State.nextGroup_olen,
    State.writeBytes_dst, State.writeBytes_olen]
  rw [BitVec.add_assoc]

theorem State.GroupsToDecode.wrote_afterDecodeGroup (h : s.GroupsToDecode n)
    (hlen : out.length ≤ 3) : s.Wrote (s.afterDecodeGroup out) s.decodeTarget out :=
  (State.wrote_writeBytes h.noBusErrors _ (by omega)).of_mem (State.nextGroup_mem ..)

/-! ### The input of the groups still to come (R41, R52) -/

/-- Symbol `i` past the next group is symbol `i + 4`. -/
theorem State.decodeSource_add_four (i : Nat) :
    s.decodeSource + 4 + BitVec.ofNat 32 i = s.decodeSource + BitVec.ofNat 32 (i + 4) := by
  rw [BitVec.add_assoc, Nat.add_comm i, BitVec.ofNat_add]
  rfl

theorem State.SymbolsKept.afterDecodeGroup (hkept : s.SymbolsKept (n + 1))
    (hfull : n ≠ 0 → out.length = 3) : (s.afterDecodeGroup out).SymbolsKept n := by
  intro i hi
  have hgroup : 3 * ((i + 4) / 4) = out.length + 3 * (i / 4) := by
    have := hfull (by omega)
    omega
  have hsymbol := hkept (i + 4) (by omega)
  rw [hgroup] at hsymbol
  rw [State.afterDecodeGroup_source, State.afterDecodeGroup_target, State.decodeSource_add_four]
  exact inRange_false_part hsymbol

/-- A group step leaves the symbols of the later groups as they were. -/
theorem State.SymbolsKept.bytesAt_afterDecodeGroup (hkept : s.SymbolsKept (n + 1))
    (hwrote : s.Wrote (s.afterDecodeGroup out) s.decodeTarget out) (hlen : out.length ≤ 3) :
    (s.afterDecodeGroup out).bytesAt (s.decodeSource + 4) (4 * n) =
      s.bytesAt (s.decodeSource + 4) (4 * n) := by
  obtain ⟨_, hframe⟩ := hwrote
  refine State.bytesAt_congr fun i hi => hframe _ ?_
  rw [State.decodeSource_add_four]
  exact inRange_false_mono (by omega) (hkept (i + 4) (by omega))

theorem State.decodeStarted_source : s.decodeStarted.decodeSource = s.src := BitVec.add_zero s.src

theorem State.decodeStarted_target : s.decodeStarted.decodeTarget = s.dst := BitVec.add_zero s.dst

/-- A disjoint output keeps the symbols, and so does one that starts where the input does: a group
writes three bytes and reads four (R52). -/
theorem State.symbolsKept_decodeStarted (hlen : s.len.toNat = 4 * n)
    (hplace : s.Disjoint (3 * n + 1) ∨ s.dst = s.src) : s.decodeStarted.SymbolsKept n := by
  intro i hi
  rw [State.decodeStarted_source, State.decodeStarted_target]
  rcases hplace with hdisj | hdst
  · exact inRange_false_mono (by omega) (hdisj _ (inRange_add_ofNat s.src (by omega)))
  · have hoffset : (s.src + BitVec.ofNat 32 i - s.src).toNat = i := by
      have := s.len.isLt
      rw [BitVec.add_comm, BitVec.add_sub_cancel, BitVec.toNat_ofNat, Nat.mod_eq_of_lt (by omega)]
    rw [inRange, hdst, hoffset, decide_eq_false_iff_not]
    omega

end

/-! ### A run follows the transform (R87, R88) -/

/-- From this state, with `n` groups to do, the run goes as the answer says, group by group. -/
inductive DecodeRun : State → Nat → DecodeResult → Prop where
  | last {s : State} (h : s.GroupsToDecode 0) : DecodeRun s 0 ([], none)
  | error {s : State} {n : Nat} {e : ErrCode} (h : s.GroupsToDecode (n + 1))
      (herror : decGroup s.lastGroup s.nextSymbols = .error e) :
      DecodeRun s (n + 1) ([], some (0, e))
  | ok {s : State} {n : Nat} {out : List Byte} {r : DecodeResult} (h : s.GroupsToDecode (n + 1))
      (hok : decGroup s.lastGroup s.nextSymbols = .ok out)
      (rest : DecodeRun (s.afterDecodeGroup out) n r) : DecodeRun s (n + 1) (r.after out)

section
variable {s : State} {n : Nat} {r : DecodeResult}

/-- The groups still to come run as the transform does on their symbols. -/
theorem State.GroupsToDecode.decodeRun (h : s.GroupsToDecode n) (hkept : s.SymbolsKept n) :
    DecodeRun s n (decodeText (s.bytesAt s.decodeSource (4 * n))) := by
  induction n generalizing s with
  | zero => exact .last h
  | succ n ih =>
    have hfinal : (s.bytesAt (s.decodeSource + 4) (4 * n)).isEmpty = s.lastGroup := by
      rw [State.bytesAt_isEmpty, h.lastGroup_eq]
    rw [State.bytesAt_nextSymbols]
    cases hgroup : decGroup s.lastGroup s.nextSymbols with
    | error e =>
      rw [decodeText_error (by rwa [hfinal])]
      exact .error h hgroup
    | ok out =>
      obtain ⟨_, hle, hfull⟩ := h.out_length hgroup
      have hinput := hkept.bytesAt_afterDecodeGroup (h.wrote_afterDecodeGroup hle) hle
      rw [decodeText_ok (by rwa [hfinal]), ← hinput, ← State.afterDecodeGroup_source]
      exact .ok h hgroup (ih (h.afterDecodeGroup hgroup) (hkept.afterDecodeGroup hfull))

/-- At most three bytes for each group, and the terminator. -/
theorem DecodeRun.writes_length_le (run : DecodeRun s n r) : r.writes.length ≤ 3 * n + 1 := by
  induction run with
  | last h => exact Nat.le_refl 1
  | error h herror => exact Nat.zero_le _
  | ok h hok rest ih =>
    obtain ⟨_, hle, _⟩ := h.out_length hok
    rw [DecodeResult.writes_after, List.length_append]
    omega

/-- A run that fails has three bytes from each group before the failing one (R88). -/
theorem DecodeRun.failure (run : DecodeRun s n r) {g : Nat} {e : ErrCode}
    (hr : r.2 = some (g, e)) : g < n ∧ r.1.length = 3 * g := by
  induction run generalizing g with
  | last h => cases hr
  | error h herror => cases hr; exact ⟨Nat.succ_pos _, rfl⟩
  | @ok s n out r h hok rest ih =>
    obtain ⟨⟨g', e'⟩, hr', heq⟩ := Option.map_eq_some_iff.1 hr
    cases heq
    obtain ⟨hlt, hlength⟩ := ih hr'
    obtain ⟨_, _, hfull⟩ := h.out_length hok
    have hthree := hfull (by omega)
    exact ⟨by omega, by rw [DecodeResult.after, List.length_append]; omega⟩

/-- The bytes that the run writes. -/
theorem DecodeRun.wrote (run : DecodeRun s n r) :
    s.Wrote (s.engineSteps (n + 1)) s.decodeTarget r.writes := by
  induction run with
  | last h =>
    rw [State.engineSteps, State.engineSteps, h.engineStep_last]
    exact (State.wrote_writeBytes h.noBusErrors _ (by decide)).of_mem (State.finish_mem ..)
  | error h herror =>
    rw [State.engineSteps, h.engineStep_error herror,
      State.engineSteps_idle (State.finish_phase ..)]
    exact .nothing (State.finish_mem ..) _
  | ok h hok rest ih =>
    obtain ⟨_, hle, _⟩ := h.out_length hok
    have hrest := rest.writes_length_le
    have hfit := h.output_fits
    rw [State.engineSteps, h.engineStep_ok hok, DecodeResult.writes_after]
    rw [State.afterDecodeGroup_target] at ih
    exact (h.wrote_afterDecodeGroup hle).append ih (by omega)

/-- How the registers say that a DECODE from `s` ended in `t` (R74, R87, R88). -/
def State.DecodeEnds (s t : State) (r : DecodeResult) : Prop :=
  t.phase = .idle ∧
    match r.2 with
    | none =>
      t.status = statusFinish s.status false .none ∧
        t.rlen.toNat = s.olen.toNat + r.1.length ∧ t.errgrp = 0
    | some (g, e) =>
      t.status = statusFinish s.status true e ∧ t.rlen = 0 ∧ t.errgrp.toNat = s.g.toNat + g

theorem DecodeRun.ends (run : DecodeRun s n r) : s.DecodeEnds (s.engineSteps (n + 1)) r := by
  induction run with
  | last h =>
    rw [State.engineSteps, State.engineSteps, h.engineStep_last]
    exact ⟨rfl, congrArg (statusFinish · false .none) (State.writeBytes_status ..), rfl, rfl⟩
  | error h herror =>
    rw [State.engineSteps, h.engineStep_error herror,
      State.engineSteps_idle (State.finish_phase ..)]
    exact ⟨rfl, rfl, rfl, rfl⟩
  | @ok s n out r h hok rest ih =>
    obtain ⟨_, hle, _⟩ := h.out_length hok
    obtain ⟨hg, holen, _⟩ := h.progress hle
    rw [State.engineSteps, h.engineStep_ok hok]
    obtain ⟨bytes, _ | ⟨g, e⟩⟩ := r
    · obtain ⟨hphase, hstatus, hrlen, herrgrp⟩ := ih
      rw [State.afterDecodeGroup_status] at hstatus
      refine ⟨hphase, hstatus, ?_, herrgrp⟩
      rw [hrlen, holen, DecodeResult.after, List.length_append, Nat.add_assoc]
    · obtain ⟨hphase, hstatus, hrlen, herrgrp⟩ := ih
      rw [State.afterDecodeGroup_status] at hstatus
      refine ⟨hphase, hstatus, hrlen, ?_⟩
      rw [herrgrp, hg, Nat.add_assoc, Nat.add_comm 1]

/-! ### The output range, from running the engine ahead (R41; log 9) -/

/-- When the next step is the last one, its writes are the last ones. -/
theorem State.writesAhead_of_ending (hend : s.engineStep.phase = .idle) (m : Nat) :
    s.writesAhead m = (s.midStep 4).undo.length := by
  cases m with
  | zero => rfl
  | succ m => rw [State.writesAhead, if_pos hend]

theorem State.midStep_dec (hp : s.phase = .dec) : s.midStep 4 = s.writeMove s.decodeMove :=
  State.midStep_all (by simp only [State.engineMove, hp]) (Nat.le_refl 4)

theorem DecodeRun.writesAhead (run : DecodeRun s n r) :
    s.writesAhead (n + 1) = s.undo.length + r.writes.length := by
  induction run with
  | @last s h =>
    have hmove : s.decodeMove = s.decodeTerminator := by
      rw [State.decodeMove, if_pos h.started, if_neg h.not_group_lt]
    rw [State.writesAhead_of_ending (by rw [h.engineStep_last]; rfl), State.midStep_dec h.phase,
      hmove]
    exact State.writeBytes_undo_length (State.writeBytes_noBusErrors h.noBusErrors _ _)
  | @error s n e h herror =>
    have hmove := State.decodeMove_error h.started h.group_lt
      (State.readBytes_noBusErrors h.noBusErrors _ _) herror
    rw [State.writesAhead_of_ending (by rw [h.engineStep_error herror]; rfl),
      State.midStep_dec h.phase, hmove]
    rfl
  | @ok s n out r h hok rest ih =>
    obtain ⟨_, hle, _⟩ := h.out_length hok
    obtain ⟨_, _, hundo⟩ := h.progress hle
    have hstep := h.engineStep_ok hok
    have hgoes : s.engineStep.phase ≠ .idle := by
      rw [hstep, (h.afterDecodeGroup hok).phase]
      decide
    rw [State.writesAhead, if_neg hgoes, hstep, ih, hundo, DecodeResult.writes_after,
      List.length_append, Nat.add_assoc]

end

/-! ### The whole command -/

section
variable {s : State}

/-- The start step of an accepted DECODE of a legal length, and then the steps after it. -/
theorem State.engineSteps_decode (hlen : s.decodeLenOk = true) (n : Nat) :
    (s.startBuffer .dec).engineSteps (n + 1) = s.decodeStarted.engineSteps n :=
  congrArg (State.engineSteps · n) (State.engineStep_decodeStart rfl rfl hlen)

theorem State.outputBytes_decode (hlen : s.decodeLenOk = true) :
    (s.startBuffer .dec).outputBytes = s.decodeStarted.writesAhead (s.len.toNat / 4 + 1) := by
  have hstep : (s.startBuffer .dec).engineStep = s.decodeStarted :=
    State.engineStep_decodeStart rfl rfl hlen
  have hgoes : (s.startBuffer .dec).engineStep.phase ≠ .idle := by
    rw [hstep]
    exact Phase.noConfusion
  have hahead : (s.startBuffer .dec).outputBytes =
      (s.startBuffer .dec).writesAhead (s.len.toNat / 4 + 1 + 1) := rfl
  rw [hahead, State.writesAhead, if_neg hgoes, hstep]

theorem State.decodeStarted_groupsToDecode (hbus : s.NoBusErrors) (hlen : s.decodeLenOk = true) :
    s.decodeStarted.GroupsToDecode (s.len.toNat / 4) := by
  have hrest : ({ s.startBuffer .dec with groups := 0 } : State).EngineAtRest :=
    ⟨rfl, rfl, rfl, rfl, rfl⟩
  have hrunning : s.decodeStarted.DecodeRunning := hrest.decodeRunning_begin hlen
  have ⟨_, hG, _⟩ := hrunning
  exact ⟨rfl, rfl, hbus, hrunning, hG.trans (Nat.zero_add _).symm⟩

/-- The run of an accepted DECODE is the one of the transform on its input (R85 to R88). -/
theorem State.decodeRun_decodeStarted (hbus : s.NoBusErrors) (hlen : s.decodeLenOk = true)
    (hplace : s.Disjoint (3 * (s.len.toNat / 4) + 1) ∨ s.dst = s.src) :
    DecodeRun s.decodeStarted (s.len.toNat / 4) (decodeText (s.bytesAt s.src s.len.toNat)) := by
  obtain ⟨hmod, _⟩ := State.decodeLenOk_iff.1 hlen
  have hfour : 4 * (s.len.toNat / 4) = s.len.toNat :=
    Nat.mul_div_cancel' (Nat.dvd_of_mod_eq_zero hmod)
  have hinput : s.decodeStarted.bytesAt s.decodeStarted.decodeSource (4 * (s.len.toNat / 4)) =
      s.bytesAt s.src s.len.toNat := by
    rw [hfour, State.decodeStarted_source]
    exact State.bytesAt_of_mem (s := s) (t := s.decodeStarted) rfl _ _
  rw [← hinput]
  exact (State.decodeStarted_groupsToDecode hbus hlen).decodeRun
    (State.symbolsKept_decodeStarted hfour.symm hplace)

end

/-- A command accepted by the block that ends with an error leaves its code and IGN 0 (R73, R74). -/
theorem statusFinish_running_error (e : ErrCode) :
    statusFinish statusRunning true e = statusWord false true false e.bits 0 := by
  rw [statusFinish, statusRunning, statusIgn_statusWord]

/-- Settles O29: the run goes as the transform does, by induction on the groups; a group step leaves
the symbols of the later groups as they were, in place too. -/
theorem decodeRunRefinesTransform : Obligations.DecodeRunRefinesTransform := by
  unfold Obligations.DecodeRunRefinesTransform
  intro s hbus hlen hplace
  have run := State.decodeRun_decodeStarted hbus hlen hplace
  have hends := run.ends
  have hwrote := run.wrote
  have hrange := run.writesAhead
  rw [← State.engineSteps_decode hlen] at hends hwrote
  rw [← State.outputBytes_decode hlen] at hrange
  rw [State.decodeStarted_target] at hwrote
  dsimp only
  generalize decodeText (s.bytesAt s.src s.len.toNat) = r at *
  obtain ⟨hbytes, hframe⟩ := hwrote
  obtain ⟨out, _ | ⟨g, e⟩⟩ := r
  · obtain ⟨hphase, hstatus, hrlen, herrgrp⟩ := hends
    have hlength : (DecodeResult.writes (out, none)).length = out.length + 1 :=
      List.length_append
    rw [hlength] at hbytes hframe hrange
    exact ⟨hphase, hstatus.trans statusFinish_running, hrlen.trans (Nat.zero_add _), herrgrp,
      hrange.trans (Nat.zero_add _), hbytes, hframe⟩
  · obtain ⟨hphase, hstatus, hrlen, herrgrp⟩ := hends
    obtain ⟨_, hthree⟩ := run.failure rfl
    have hlength : (DecodeResult.writes (out, some (g, e))).length = 3 * g := hthree
    rw [hlength] at hbytes hframe hrange
    exact ⟨hphase, hstatus.trans (statusFinish_running_error e), hrlen,
      herrgrp.trans (Nat.zero_add _), hthree, hrange.trans (Nat.zero_add _), hbytes, hframe⟩

end Sys2Proof.Machine
end

section
/-! PROOF. Decoding gives back what was encoded (R89): the transforms on lists, and the two commands
one after the other. -/

namespace Sys2Proof.Machine

/-! ### The transforms -/

/-- A single group is the final one. -/
theorem decodeText_last {q : Quad} {out : List Byte} (h : decGroup true q = .ok out) :
    decodeText q.bytes = (out, none) := by
  have hgroup : decodeText (q.bytes ++ []) = (out ++ [], none) := decodeText_ok h
  rwa [List.append_nil, List.append_nil] at hgroup

theorem decodeText_encodeText (b : List Byte) : decodeText (encodeText b) = (b, none) := by
  induction b using encodeText.induct with
  | case1 => rfl
  | case2 b0 => rw [encodeText, decodeText_last (decGroup_encGroup_one b0 0 0)]
  | case3 b0 b1 => rw [encodeText, decodeText_last (decGroup_encGroup_two b0 b1 0)]
  | case4 b0 b1 b2 rest ih =>
    rw [encodeText, decodeText_ok (decGroup_encGroup_three b0 b1 b2 _), ih]
    rfl

/-- Settles O30, by induction on the groups: a full group decodes alike as the final one or not. -/
theorem transformRoundTrip : Obligations.TransformRoundTrip := by
  unfold Obligations.TransformRoundTrip
  exact decodeText_encodeText

/-! ### The commands -/

@[simp] theorem State.engineSteps_platform (s : State) (n : Nat) :
    (s.engineSteps n).platform = s.platform := by
  induction n generalizing s with
  | zero => rfl
  | succ n ih => exact (ih s.engineStep).trans s.engineStep_platform

section
variable {s : State}

/-- The bytes in front of the last one. -/
theorem State.bytesAt_of_snoc {a : Word} {n : Nat} {bs : List Byte} {b : Byte}
    (h : s.bytesAt a (n + 1) = bs ++ [b]) : s.bytesAt a n = bs := by
  rw [State.bytesAt_add] at h
  exact List.append_inj_left' h rfl

/-- What an ENCODE leaves for a DECODE to read (R72, R73, R76). -/
theorem State.encode_leaves (hbus : s.NoBusErrors) (hlen : s.len.toNat ≤ Config.encMaxLen)
    (hdisj : s.Disjoint (4 * ceilDiv s.len.toNat 3 + 1)) :
    let G := ceilDiv s.len.toNat 3
    let e := (s.startBuffer .enc).engineSteps (G + 2)
    e.NoBusErrors ∧ e.rlen.toNat = 4 * G ∧
      e.bytesAt s.dst (4 * G) = encodeText (s.bytesAt s.src s.len.toNat) := by
  obtain ⟨_, _, hrlen, _⟩ := encodeRunSucceeds s hbus hlen
  obtain ⟨hbytes, _⟩ := encodeRunWritesEncoding s hbus hlen hdisj
  refine ⟨?_, hrlen, State.bytesAt_of_snoc hbytes⟩
  rw [State.NoBusErrors, State.engineSteps_platform]
  exact hbus

/-- A DECODE whose input the transform accepts (R87). -/
theorem State.decode_leaves {G : Nat} {out : List Byte} (hbus : s.NoBusErrors) (hG : 0 < G)
    (hlen : s.len.toNat = 4 * G) (hdisj : s.Disjoint (3 * G + 1))
    (htext : decodeText (s.bytesAt s.src (4 * G)) = (out, none)) :
    let t := (s.startBuffer .dec).engineSteps (G + 2)
    t.status = 0 ∧ t.rlen.toNat = out.length ∧ t.bytesAt s.dst out.length = out := by
  have hlenOk : s.decodeLenOk = true := State.decodeLenOk_iff.2 (by omega)
  have hgroups : s.len.toNat / 4 = G := by omega
  have hrun := decodeRunRefinesTransform s hbus hlenOk (.inl (by rwa [hgroups]))
  rw [hgroups, hlen, htext] at hrun
  obtain ⟨_, hstatus, hrlen, _, _, hbytes, _⟩ := hrun
  exact ⟨hstatus, hrlen, State.bytesAt_of_snoc hbytes⟩

end

/-- Settles O31: ENCODE leaves the encoding of the input, DECODE ends as the transform says, and the
transform gives the input back. -/
theorem engineRoundTrip : Obligations.EngineRoundTrip := by
  unfold Obligations.EngineRoundTrip
  intro s d hbus hne hlen hdisj G e u hplace
  obtain ⟨hbus', hrlen, htext⟩ := State.encode_leaves hbus hlen hdisj
  have hpos : 0 < G := by
    have hbyte : s.len.toNat ≠ 0 := BitVec.toNat_ne.1 hne
    simp only [G, ceilDiv]
    omega
  have hinput : decodeText (u.bytesAt u.src (4 * G)) = (s.bytesAt s.src s.len.toNat, none) := by
    rw [State.bytesAt_of_mem (s := e) (t := u) rfl]
    exact (congrArg decodeText htext).trans (decodeText_encodeText _)
  obtain ⟨hstatus, hrlen', hbytes⟩ := State.decode_leaves (s := u) hbus' hpos hrlen hplace hinput
  rw [State.bytesAt_length] at hrlen' hbytes
  exact ⟨hstatus, BitVec.eq_of_toNat_eq hrlen', hbytes⟩

end Sys2Proof.Machine
end

section
/-! PROOF. Bus errors of the memory port (R36, R73, R87, R94): which writes of a group are made when one
of them is denied, and how the group step then ends the command. -/

namespace Sys2Proof.Machine

/-! ### Where the writes end (R36, R94) -/

section
variable {s : State}

/-- Writes get a bus error exactly when one of their addresses is denied (R36). -/
theorem State.writeBytes_denied_iff (s : State) (a : Word) (bs : List Byte) :
    (s.writeBytes a bs).2 = false ↔
      ∃ i, i < bs.length ∧ s.platform.memOk (a + BitVec.ofNat 32 i) .write = false := by
  induction bs generalizing s a with
  | nil => simp [State.writeBytes]
  | cons b bs ih =>
    rw [List.length_cons, Nat.exists_lt_succ_left, BitVec.add_zero]
    cases hfirst : s.platform.memOk a .write with
    | false => simp [State.writeBytes_cons_denied hfirst]
    | true =>
      rw [State.writeBytes_cons_ok hfirst, ih, State.engineWrite_platform]
      simp only [add_ofNat_succ, Bool.true_eq_false, false_or]

/-- Writes that get a bus error have done those before the first denied address, and no other. -/
theorem State.writeBytes_stop {a : Word} {bs : List Byte} (h : (s.writeBytes a bs).2 = false) :
    ∃ k, k < bs.length ∧ s.platform.memOk (a + BitVec.ofNat 32 k) .write = false ∧
      (∀ i, i < k → s.platform.memOk (a + BitVec.ofNat 32 i) .write = true) ∧
      (s.writeBytes a bs).1 = (s.writeBytes a (bs.take k)).1 := by
  induction bs generalizing s a with
  | nil => cases h
  | cons b bs ih =>
    cases hfirst : s.platform.memOk a .write with
    | false =>
      rw [State.writeBytes_cons_denied hfirst]
      exact ⟨0, Nat.succ_pos _, by simpa using hfirst, by simp, rfl⟩
    | true =>
      rw [State.writeBytes_cons_ok hfirst] at h ⊢
      obtain ⟨k, hk, hdenied, hbefore, hstate⟩ := ih h
      rw [State.engineWrite_platform] at hdenied hbefore
      refine ⟨k + 1, Nat.succ_lt_succ hk, by rwa [add_ofNat_succ], fun i hi => ?_, ?_⟩
      · cases i with
        | zero => simpa using hfirst
        | succ i => rw [add_ofNat_succ]; exact hbefore i (by omega)
      · rw [hstate, List.take_succ_cons, State.writeBytes_cons_ok hfirst]

/-- Writes of which no address is denied are all done. -/
theorem State.writeBytes_of_memOk {a : Word} {bs : List Byte}
    (h : ∀ i, i < bs.length → s.platform.memOk (a + BitVec.ofNat 32 i) .write = true) :
    (s.writeBytes a bs).2 = true := by
  rw [← Bool.not_eq_false, State.writeBytes_denied_iff]
  rintro ⟨i, hi, hdenied⟩
  simp [h i hi] at hdenied

/-- Writes that are all done leave their bytes, and the other bytes as they were. -/
theorem State.wrote_of_done {a : Word} {bs : List Byte} (hdone : (s.writeBytes a bs).2 = true)
    (hfit : bs.length ≤ 2 ^ 32) : s.Wrote (s.writeBytes a bs).1 a bs :=
  ⟨State.bytesAt_writeBytes hdone hfit,
    fun a' ha => s.byteAt_writeBytes_outside a a' bs hfit ha⟩

/-! ### How a group step ends at a bus error (R94) -/

/-- ENCODE's group step ends with BUS_ERROR before any write when a byte of the group is denied. -/
theorem State.engineStep_encodeGroup_readDenied (hp : s.phase = .enc) (hs : s.started = true)
    (hg : s.g < s.groups) (hread : s.readBytes s.encodeCount s.encodeSource = none) :
    s.engineStep = s.finish true .busError 0 s.g := by
  have hmove : s.encodeMove = .quiet (.finish true .busError 0 s.g) := by
    simp [State.encodeMove, State.encodeGroup, hs, hg, hread]
  rw [State.engineStep_enc hp, hmove, State.performMove_quiet, State.endStep_finish]

/-- DECODE's group step does so when one of the four symbols is denied. -/
theorem State.engineStep_decodeGroup_readDenied (hp : s.phase = .dec) (hs : s.started = true)
    (hg : s.g < s.groups) (hread : s.readBytes 4 s.decodeSource = none) :
    s.engineStep = s.finish true .busError 0 s.g := by
  have hmove : s.decodeMove = .quiet (.finish true .busError 0 s.g) := by
    simp [State.decodeMove, State.decodeGroup, hs, hg, hread]
  rw [State.engineStep_dec hp, hmove, State.performMove_quiet, State.endStep_finish]

/-- ENCODE's group step ends with BUS_ERROR after the writes done when one of its four is denied. -/
theorem State.engineStep_encodeGroup_writeDenied {bs : List Byte} (hp : s.phase = .enc)
    (hs : s.started = true) (hg : s.g < s.groups)
    (hread : s.readBytes s.encodeCount s.encodeSource = some bs)
    (hdenied : (s.writeBytes s.encodeTarget (encodeSymbols bs).bytes).2 = false) :
    s.engineStep =
      (s.writeBytes s.encodeTarget (encodeSymbols bs).bytes).1.finish true .busError 0 s.g := by
  have hmove : s.encodeMove = ⟨s.encodeTarget, (encodeSymbols bs).bytes, s.g, .next 4⟩ := by
    simp [State.encodeMove, State.encodeGroup, hs, hg, hread]
  rw [State.engineStep_enc hp, hmove, State.performMove_busError hdenied]
  rfl

/-- DECODE's group step does so when the write of one of the decoded bytes is denied. -/
theorem State.engineStep_decodeGroup_writeDenied {bs out : List Byte} (hp : s.phase = .dec)
    (hs : s.started = true) (hg : s.g < s.groups)
    (hread : s.readBytes 4 s.decodeSource = some bs)
    (hok : decGroup s.lastGroup (decodeSymbols bs) = .ok out)
    (hdenied : (s.writeBytes s.decodeTarget out).2 = false) :
    s.engineStep = (s.writeBytes s.decodeTarget out).1.finish true .busError 0 s.g := by
  have hmove : s.decodeMove = ⟨s.decodeTarget, out, s.g, .next out.length⟩ := by
    simp [State.decodeMove, State.decodeGroup, hs, hg, hread, hok]
  rw [State.engineStep_dec hp, hmove, State.performMove_busError hdenied]
  rfl

/-- The state in which a group step with a bus error on a write ends. -/
theorem State.finish_busError_writeBytes (s : State) (a : Word) (bs : List Byte) :
    (s.writeBytes a bs).1.finish true .busError 0 s.g = { (s.writeBytes a bs).1 with
      status := statusWord false true (statusIgn s.status) 5 0, rlen := 0, errgrp := s.g,
      phase := .idle, started := false, g := 0, groups := 0, olen := 0, undo := [] } := by
  rw [State.finish, State.writeBytes_status]
  rfl

end

/-- Settles O34: a denied read makes the move of either command one that finishes without writes. -/
theorem readBusErrorStops : Obligations.ReadBusErrorStops := by
  unfold Obligations.ReadBusErrorStops
  rintro s hs hg (⟨hp, i, hi, hlen, hdenied⟩ | ⟨hp, hdenied⟩)
  · have hcount : i < s.encodeCount := by rw [State.encodeCount]; omega
    exact State.engineStep_encodeGroup_readDenied hp hs hg
      (s.readBytes_of_denied _ _ ⟨i, hcount, hdenied⟩)
  · exact State.engineStep_decodeGroup_readDenied hp hs hg (s.readBytes_of_denied _ _ hdenied)

/-- Settles O35: the writes that get a bus error leave what the writes before the first denied one
leave, and these are all done. -/
theorem writeBusErrorKeepsEarlierBytes : Obligations.WriteBusErrorKeepsEarlierBytes := by
  unfold Obligations.WriteBusErrorKeepsEarlierBytes
  refine ⟨State.writeBytes_denied_iff, fun s a bs hle hdone => State.wrote_of_done hdone (by omega),
    fun s a bs hle hdenied => ?stop, fun s hs hg =>
      ⟨fun b0 b1 b2 n hp hn hpos hread hdenied => ?enc,
        fun q out hp hread hok hdenied => ?dec⟩⟩
  case stop =>
    obtain ⟨k, hk, hfirst, hbefore, hstate⟩ := State.writeBytes_stop hdenied
    have htake : (bs.take k).length = k := List.length_take_of_le (by omega)
    have hdone : (s.writeBytes a (bs.take k)).2 = true :=
      State.writeBytes_of_memOk (by rwa [htake])
    obtain ⟨hbytes, hframe⟩ := State.wrote_of_done hdone (by omega)
    rw [htake, ← hstate] at hbytes hframe
    exact ⟨k, hk, hfirst, hbefore, hbytes, s.writeBytes_frame a bs, hframe⟩
  case enc =>
    have hsymbols := encodeSymbols_take b0 b1 b2 hpos (by omega)
    subst hn
    rw [← hsymbols] at hdenied ⊢
    exact (State.engineStep_encodeGroup_writeDenied hp hs hg hread hdenied).trans
      (s.finish_busError_writeBytes _ _)
  case dec =>
    rw [← State.lastGroup_eq] at hok
    exact (State.engineStep_decodeGroup_writeDenied hp hs hg hread hok hdenied).trans
      (s.finish_busError_writeBytes _ _)

end Sys2Proof.Machine
end

section
/-! PROOF. Which steps are refused (R49, R90; log 9), and which steps change STATUS while BUSY is 0
(R19, R98). -/

namespace Sys2Proof.Machine

/-! ### Refused steps (R49, R90) -/

theorem State.inInput_hostTurn (s : State) (rest : List HostOp) (a : Word) :
    (s.hostTurn rest).inInput a = s.inInput a := by
  simp [State.inInput, State.hostTurn]

theorem State.inOutput_hostTurn (s : State) (rest : List HostOp) (a : Word) :
    (s.hostTurn rest).inOutput a = s.inOutput a := by
  rw [State.inOutput, State.outputBytes_hostTurn]
  simp [State.inOutput, State.hostTurn]

/-- The one answer of the host's operations besides a next state (R49). -/
theorem hostStep_refused_cases {op : HostOp} {s : State} {r : Refusal}
    (h : hostStep op s = .refused r) :
    r = .hostTouchesRunningBuffer ∧
      ((∃ a b, op = .memWrite a b ∧ s.writeForbidden a = true) ∨
        ∃ a, op = .memRead a ∧ s.readForbidden a = true) := by
  cases op with
  | access a =>
    obtain ⟨t, ht⟩ := portAccess_next a s
    rw [hostStep, ht] at h
    cases h
  | poll => cases h
  | reset n => cases h
  | memWrite a b =>
    by_cases hf : s.writeForbidden a = true
    · rw [hostStep_memWrite_refused b hf] at h
      cases h
      exact ⟨rfl, .inl ⟨a, b, rfl, hf⟩⟩
    · rw [hostStep_memWrite_performed b hf] at h
      cases h
  | memRead a =>
    by_cases hf : s.readForbidden a = true
    · rw [hostStep_memRead_refused hf] at h
      cases h
      exact ⟨rfl, .inr ⟨a, rfl, hf⟩⟩
    · rw [hostStep_memRead_performed hf] at h
      cases h

/-- A refused step is one of the host's. -/
theorem step_refused {s : State} {r : Refusal} (h : step s = .refused r) :
    ∃ op rest, s.ops = op :: rest ∧ hostStep op (s.hostTurn rest) = .refused r := by
  cases hm : s.mover with
  | engine => rw [step_engine hm] at h; cases h
  | host =>
    cases ho : s.ops with
    | nil => simp [step, advance, hm, ho] at h
    | cons op rest => exact ⟨op, rest, rfl, by rwa [← step_host hm ho]⟩

/-- Settles O48: only the two memory operations of the host are refused, by the checks of R49. -/
theorem onlyHostDutyRefuses : Obligations.OnlyHostDutyRefuses := by
  unfold Obligations.OnlyHostDutyRefuses
  intro s r h
  obtain ⟨op, rest, hops, hrefused⟩ := step_refused h
  obtain ⟨hr, ⟨a, b, rfl, hf⟩ | ⟨a, rfl, hf⟩⟩ := hostStep_refused_cases hrefused
  · rw [State.writeForbidden_iff, State.hostTurn_busy, State.inInput_hostTurn,
      State.inOutput_hostTurn] at hf
    obtain ⟨hb, hrange⟩ := hf
    exact ⟨hr, hb, a, rest, .inl ⟨b, hops, hrange⟩⟩
  · rw [State.readForbidden_iff, State.hostTurn_busy, State.inOutput_hostTurn] at hf
    obtain ⟨hb, hrange⟩ := hf
    exact ⟨hr, hb, a, rest, .inr ⟨hops, hrange⟩⟩

/-! ### STATUS while BUSY is 0 (R19, R98) -/

/-- A served access of CMD is one at the base of the window (R15, R45). -/
theorem State.addr_of_serves_cmd {s : State} {a : BusAccess} (hserved : s.serves a = true)
    (hcmd : regAt a.offset = some .cmd) :
    a.addr = s.platform.base ∧ a.size = 4 ∧ a.beats = 1 := by
  obtain ⟨hsize, hbeats, _, hpage⟩ := (s.serves_iff a).1 hserved
  have hoffset : a.addr.toNat % 256 = 0 := by
    have := congrArg BitVec.toNat (offset_of_regAt hcmd)
    simpa [BusAccess.offset, Reg.offset] using this
  have hbase : s.platform.base.toNat % 256 = 0 := by
    have := congrArg BitVec.toNat (offset_of_address s.platform.basePage 0)
    simpa [Platform.base] using this
  exact ⟨BitVec.eq_of_toNat_eq (by omega), hsize, hbeats⟩

/-- While BUSY is 0 a register write stores an operand or nothing (R16). -/
theorem State.writeReg_status_idle {s : State} (hb : s.busy = false) (r : Reg) (v : Word) :
    (s.writeReg r v).status = s.status := by
  rcases s.writeReg_cases r v with e | ⟨hbusy, _⟩ | ⟨_, e | e | e | e⟩
  case inr.inl => simp [hb] at hbusy
  all_goals rw [e]

/-- While BUSY is 0 only a CMD write changes STATUS over the register port (R16, R57). -/
theorem portAccess_status_idle {a : BusAccess} {s t : State} (hb : s.busy = false)
    (h : portAccess a s = .next t) : t.status = s.status ∨ ∃ w, a = s.cmdAccess w := by
  unfold portAccess at h
  split at h
  case isFalse => cases h; exact .inl rfl
  case isTrue hserved =>
    split at h
    case h_1 => cases h; exact .inl rfl
    case h_2 v hwrite =>
      unfold writeOffset at h
      split at h
      case h_1 => cases h; exact .inl rfl
      case h_2 r hr =>
        by_cases hcmd : r = .cmd
        · subst hcmd
          obtain ⟨haddr, hsize, hbeats⟩ := State.addr_of_serves_cmd hserved hr
          refine .inr ⟨v, ?_⟩
          rw [State.cmdAccess, cmdWrite, ← haddr, ← hsize, ← hbeats, ← hwrite]
        · rw [if_neg hcmd] at h
          cases h
          exact .inl (State.writeReg_status_idle (s := s.answer .done) hb r v)

/-- While BUSY is 0 only a CMD write and a reset change STATUS among the host's operations. -/
theorem hostStep_status_idle {op : HostOp} {s t : State} (hb : s.busy = false)
    (h : hostStep op s = .next t) :
    t.status = s.status ∨ (∃ n, op = .reset n) ∨ ∃ w, op = .access (s.cmdAccess w) := by
  rcases hostStep_cases h with ⟨a, rfl, h⟩ | ⟨_, rfl⟩ | ⟨a, b, _, _, rfl⟩ | ⟨a, _, _, rfl⟩ |
    ⟨n, rfl, _⟩
  · rcases portAccess_status_idle hb h with hkept | ⟨w, rfl⟩
    · exact .inl hkept
    · exact .inr (.inr ⟨w, rfl⟩)
  · rw [State.pollStep, if_neg (by simp [hb])]
    exact .inl rfl
  · exact .inl rfl
  · exact .inl rfl
  · exact .inr (.inl ⟨n, rfl⟩)

/-- Settles O58: while BUSY is 0 the engine is idle, so the step is one of the host's. -/
theorem errorStaysUntilNextCommand : Obligations.ErrorStaysUntilNextCommand := by
  unfold Obligations.ErrorStaysUntilNextCommand
  intro s t hlegal hb h
  obtain ⟨hp, _⟩ := hlegal.rest_of_not_busy hb
  rcases step_cases h with ⟨hm, _⟩ | ⟨_, op, rest, hops, h⟩ | ⟨_, _, rfl⟩
  · simp [State.mover_idle hp] at hm
  · rcases hostStep_status_idle (by rwa [State.hostTurn_busy]) h with hkept | ⟨n, rfl⟩ | ⟨w, rfl⟩
    · exact .inl (hkept.trans s.takeTurn_status)
    · exact .inr (.inl ⟨n, rest, hops⟩)
    · rw [State.cmdAccess, State.hostTurn_platform] at hops
      exact .inr (.inr ⟨w, rest, hops⟩)
  · exact .inl rfl

end Sys2Proof.Machine
end

section
/-! PROOF. The write sequence of a running command (R108; logs 4 and 11): the writes of a step stand
at its head, in the middle of the step too, and taking them back gives the memory before them. -/

namespace Sys2Proof.Machine

/-! ### Taking writes back -/

/-- Writing back the byte that a write has replaced undoes the write. -/
theorem Memory.write_write_read {m : List Host.Cell} {a : Nat} (b : Byte) (hm : Memory.wf m)
    (ha : a < 2 ^ 32) : Memory.write (Memory.write m a b) a (Memory.read m a) = m := by
  refine Memory.eq_of_read (Memory.wf_write _ (Memory.wf_write b hm ha) ha) hm fun a' => ?_
  rw [Memory.read_write, Memory.read_write]
  by_cases h : a' = a <;> simp [h]

/-- Of `n + 1` writes taken back, entry `n` of the list is the last one. -/
theorem undoWrites_succ {n : Nat} {log rest : List Host.Cell} {a : Nat} {b : Byte}
    (m : List Host.Cell) (h : log.drop n = (a, b) :: rest) :
    undoWrites m (n + 1) log = Memory.write (undoWrites m n log) a b := by
  induction n generalizing m log with
  | zero =>
    obtain rfl : log = (a, b) :: rest := h
    simp only [undoWrites]
  | succ n ih =>
    cases log with
    | nil => cases h
    | cons c log => exact ih (Memory.write m c.1 c.2) h

/-! ### What a step's writes do to the list -/

section
variable (s : State) (a : Word) (bs : List Byte)

/-- The writes done go to the head of the list. -/
theorem State.undo_suffix_writeBytes : s.undo <:+ (s.writeBytes a bs).1.undo := by
  induction bs generalizing s a with
  | nil => exact List.suffix_rfl
  | cons b bs ih =>
    cases hok : s.platform.memOk a .write with
    | false => rw [State.writeBytes_cons_denied hok]
    | true =>
      rw [State.writeBytes_cons_ok hok]
      exact (List.suffix_cons _ s.undo).trans (ih (s.engineWrite a b) (a + 1))

/-- The first writes stand before the later ones in time, so nearer to the end of the list. -/
theorem State.undo_writeBytes_take_suffix (n : Nat) :
    (s.writeBytes a (bs.take n)).1.undo <:+ (s.writeBytes a bs).1.undo := by
  induction bs generalizing s a n with
  | nil => rw [List.take_nil]
  | cons b bs ih =>
    cases n with
    | zero => exact s.undo_suffix_writeBytes a (b :: bs)
    | succ n =>
      rw [List.take_succ_cons]
      cases hok : s.platform.memOk a .write with
      | false => rw [State.writeBytes_cons_denied hok, State.writeBytes_cons_denied hok]
      | true =>
        rw [State.writeBytes_cons_ok hok, State.writeBytes_cons_ok hok]
        exact ih (s.engineWrite a b) (a + 1) n

/-- Of the first `n` writes as many are made as there are before the end or a bus error. -/
theorem State.writeBytes_take_undo_length (n : Nat) :
    (s.writeBytes a (bs.take n)).1.undo.length =
      min (s.undo.length + n) (s.writeBytes a bs).1.undo.length := by
  induction bs generalizing s a n with
  | nil => simp [State.writeBytes]
  | cons b bs ih =>
    cases n with
    | zero => exact (Nat.min_eq_left (s.writeBytes_undo_le a (b :: bs))).symm
    | succ n =>
      rw [List.take_succ_cons]
      cases hok : s.platform.memOk a .write with
      | false =>
        rw [State.writeBytes_cons_denied hok, State.writeBytes_cons_denied hok]
        exact (Nat.min_eq_right (Nat.le_add_right _ _)).symm
      | true =>
        rw [State.writeBytes_cons_ok hok, State.writeBytes_cons_ok hok, ih, State.engineWrite_undo,
          List.length_cons, Nat.add_right_comm, Nat.add_assoc]

theorem State.MemoryCanonical.engineWrite {s : State} (h : s.MemoryCanonical) (a : Word)
    (b : Byte) : (s.engineWrite a b).MemoryCanonical := by
  obtain ⟨hmem, hundo⟩ := h
  exact ⟨Memory.wf_write b hmem a.isLt, List.forall_mem_cons.2 ⟨a.isLt, hundo⟩⟩

/-- Taking the writes done back, the last one first, gives the memory before them. -/
theorem State.MemoryCanonical.undoWrites_writeBytes {s : State} (h : s.MemoryCanonical) :
    undoWrites (s.writeBytes a bs).1.mem ((s.writeBytes a bs).1.undo.length - s.undo.length)
      (s.writeBytes a bs).1.undo = s.mem := by
  induction bs generalizing s a with
  | nil => simp [State.writeBytes, undoWrites]
  | cons b bs ih =>
    cases hok : s.platform.memOk a .write with
    | false => rw [State.writeBytes_cons_denied hok, Nat.sub_self, undoWrites]
    | true =>
      rw [State.writeBytes_cons_ok hok]
      have hlater := ih (a + 1) (h.engineWrite a b)
      have hlast :=
        List.suffix_iff_eq_drop.1 ((s.engineWrite a b).undo_suffix_writeBytes (a + 1) bs)
      have hle := (s.engineWrite a b).writeBytes_undo_le (a + 1) bs
      generalize ((s.engineWrite a b).writeBytes (a + 1) bs).1 = t at hlater hlast hle ⊢
      rw [State.engineWrite_undo] at hlater hlast hle
      rw [List.length_cons] at hlater hlast hle
      have hcount : t.undo.length - s.undo.length =
          t.undo.length - (s.undo.length + 1) + 1 := by omega
      rw [hcount, undoWrites_succ t.mem hlast.symm, hlater]
      exact Memory.write_write_read b h.1 a.isLt

end

/-! ### The middle of a step -/

/-- The middle of a step is some writes, the same ones whatever number of them has landed. -/
theorem State.midStep_eq_writeBytes (s : State) :
    ∃ a bs, s.midStep 4 = (s.writeBytes a bs).1 ∧
      ∀ n, s.midStep n = (s.writeBytes a (bs.take n)).1 := by
  cases h : s.engineMove with
  | none =>
    have hidle : ∀ n, s.midStep n = s := fun n => by rw [State.midStep, h]
    exact ⟨0, [], hidle 4, fun n => by rw [hidle n, List.take_nil, State.writeBytes]⟩
  | some m =>
    have hmid : ∀ n, s.midStep n = (s.writeBytes m.target (m.bytes.take n)).1 := fun n => by
      simp only [State.midStep, h, State.writeMove]
    exact ⟨m.target, m.bytes, State.midStep_all h (Nat.le_refl 4), hmid⟩

/-- Settles O52: the middle of a step is a first part of the step's writes, each of which puts the
byte it replaces at the head of the list. -/
theorem writeSequenceRecordsMemory : Obligations.WriteSequenceRecordsMemory := by
  unfold Obligations.WriteSequenceRecordsMemory
  intro s landed h
  obtain ⟨a, bs, hall, hmid⟩ := s.midStep_eq_writeBytes
  refine ⟨s.midStep_frame landed, ?_, s.midStep_undo_le landed, ?_, ?_, ?_, s.engineStep_mem,
    State.engineStep_undo⟩
  · rw [hall, hmid]
    exact s.writeBytes_take_undo_length a bs landed
  · rw [hall, hmid]
    exact (List.suffix_iff_eq_drop.1 (s.undo_writeBytes_take_suffix a bs landed)).symm
  · rw [hmid]
    exact (List.suffix_iff_eq_drop.1 (s.undo_suffix_writeBytes a (bs.take landed))).symm
  · rw [hmid]
    exact h.undoWrites_writeBytes a (bs.take landed)

end Sys2Proof.Machine
end

section
/-! PROOF. Reset (R107 to R109): the values of the registers and of the engine, what is left of
memory, and the next access of the host. -/

namespace Sys2Proof.Machine

/-! ### The values after a reset (R107) -/

section
variable (s : State) (n : Nat)

theorem State.resetBlock_readReg (r : Reg) :
    (s.resetBlock n).readReg r = if r = .id then 0x42363401 else 0 := by cases r <;> rfl

theorem State.resetBlock_engineAtRest : (s.resetBlock n).EngineAtRest :=
  ⟨rfl, rfl, rfl, rfl, rfl⟩

end

/-- Settles O51: the writes that a reset leaves are those that survive the draw of log 5. -/
theorem resetAborts : Obligations.ResetAborts := by
  unfold Obligations.ResetAborts
  intro s landed
  refine ⟨s.resetBlock landed, s.surviving landed, rfl, Nat.min_le_right _ _,
    s.resetBlock_readReg landed, rfl, s.resetBlock_engineAtRest landed, rfl, rfl, rfl, rfl, ?_⟩
  rw [State.resetBlock_mem, State.memAfterReset]

/-! ### The reset state -/

theorem State.reset_readReg (r : Reg) :
    State.reset.readReg r = if r = .id then 0x42363401 else 0 := by cases r <;> rfl

theorem State.reset_engineAtRest : State.reset.EngineAtRest := ⟨rfl, rfl, rfl, rfl, rfl⟩

theorem State.reset_busy : State.reset.busy = false := by decide

/-- Settles O56: memory lists nothing, STATUS is the word a reset writes, and the engine is at
rest. -/
theorem resetMeetsInvariants : Obligations.ResetMeetsInvariants := by
  unfold Obligations.ResetMeetsInvariants
  exact ⟨State.memoryCanonical_of_no_undo Memory.wf_reset rfl,
    (State.reset.statusLegal_resetBlock 0).congr rfl,
    State.engineLegal_of_idle rfl State.reset_busy rfl State.reset_engineAtRest⟩

/-! ### The next access (R109; log 6) -/

/-- While the engine is idle the host's next register access is performed by the next step. -/
theorem step_access_of_idle {s : State} {a : BusAccess} {rest : List HostOp}
    (hp : s.phase = .idle) (ho : s.ops = .access a :: rest) :
    step s = portAccess a { s with ops := rest } := by
  rw [step_host (State.mover_idle hp) ho, State.hostTurn, State.takeTurn_idle hp]
  rfl

/-- Settles O50: the engine is idle in the reset state and after any reset, so the host moves. -/
theorem resetValues : Obligations.ResetValues := by
  unfold Obligations.ResetValues
  refine ⟨State.reset_readReg, rfl, State.reset_engineAtRest, State.reset_busy,
    fun a rest => step_access_of_idle rfl rfl, fun s t n a rest h ho => ?_⟩
  obtain rfl : s.resetBlock n = t := by injection h
  exact step_access_of_idle rfl ho

end Sys2Proof.Machine
end
